-- ==== Sys2Proof/Word.lean ====
section
/-! DEFINITION. The words and items of the interface (R71, R72). -/

namespace Sys2Proof

/-- The 32-bit command word and response word (R71, R76). -/
abbrev Word := BitVec 32

/-- The unsigned 16-bit immediate of a command, and the `aux` field of a response (R75, R76). -/
abbrev Imm := BitVec 16

/-- A `SYM` item: a 3-bit symbol value or a tone index (R72). -/
abbrev Sym := BitVec 3

/-- An `IDX` item: an eight-bit index (R72). -/
abbrev Idx := BitVec 8

/-- R10: the field `v[hi:lo]` of a word, by its low bit and its width. -/
def Word.field (w : Word) (lo width : Nat) : BitVec width := w.extractLsb' lo width

end Sys2Proof
end

