-- ==== Sys2Proof/Syntax.lean ====
section
/-! DEFINITION. Commands: the twelve operations of the opcode map (R74) the items of a payload (R72), and real numbers as
plain data (R11). -/

namespace Sys2Proof

/-- The twelve operations of R74, one constructor for each row of spec/opcode_table.json. The payload of a command is
no field of the operation: it arrives beside the command word and stands in `OPERAND` (R26, R70). -/
inductive Instr where
  /-- 0x00 `INIT` (R220) -/
  | init
  /-- 0x01 `CRC14.ENC` (R102) -/
  | crc14Enc
  /-- 0x02 `CRC14.VFY` (R103) -/
  | crc14Vfy
  /-- 0x03 `GRAY.ENC` (R122) -/
  | grayEnc
  /-- 0x04 `GRAY.DEC` (R123) -/
  | grayDec
  /-- 0x05 `GRAY.MAP` (R124) -/
  | grayMap
  /-- 0x06 `GRAY.UNMAP` (R125) -/
  | grayUnmap
  /-- 0x07 `LDPC.ENC` (R142) -/
  | ldpcEnc
  /-- 0x08 `LDPC.SYN` (R143) -/
  | ldpcSyn
  /-- 0x09 `FG.NM #c`, c a check node (R156) -/
  | fgNm (c : Imm)
  /-- 0x0A `FG.MN #n`, n a bit node (R157) -/
  | fgMn (n : Imm)
  /-- 0x0B `BP.DEC #maxIterations` (R170) -/
  | bpDec (maxIterations : Imm)
  deriving DecidableEq, Repr, Inhabited

/-- The four item types of R72. -/
inductive ItemType where
  | bit
  | sym
  | idx
  | llr
  deriving DecidableEq, Repr

/-- A real number as plain data (R11): a rational number as it stands, and any other by a name.
Which number a name stands for is a free value (log 17). -/
inductive RealNum where
  | rat (q : Rat)
  | named (k : Nat)
  deriving DecidableEq, Repr, Inhabited

/-- One `LLR` item. A finite item is a real number (R11, R72), taken as it stands (R81).
A format may also have encodings that are no finite number (R192); `code` tells them apart and nothing reads it. -/
inductive LlrItem where
  | finite (x : RealNum)
  | nonFinite (code : Nat)
  deriving DecidableEq, Repr

/-- One item of a payload (R72). -/
inductive Item where
  | bit (b : Bool)
  | sym (v : Sym)
  | idx (i : Idx)
  | llr (x : LlrItem)
  deriving DecidableEq, Repr

/-- The type of an item. -/
def Item.type : Item → ItemType
  | .bit _ => .bit
  | .sym _ => .sym
  | .idx _ => .idx
  | .llr _ => .llr

/-- A payload: a list of items, item 0 the first to arrive (R73). -/
abbrev Payload := List Item

end Sys2Proof
end

