-- ==== Sys2Proof/WellFormed.lean ====
section
/-! DEFINITION. When a command is well formed: what its immediate and its payload must be for none of the checks of R250
to turn it away. An ill-formed command is still executed: it is answered with the fault its rule names. -/

namespace Sys2Proof

/-- R75: the range of the immediate. -/
def Instr.immOk : Instr → Bool
  | .init | .crc14Enc | .crc14Vfy | .grayEnc | .grayDec | .grayMap | .grayUnmap | .ldpcEnc | .ldpcSyn => true
  | .fgNm c => c.toNat ≤ 82
  | .fgMn n => n.toNat ≤ 173
  | .bpDec _ => true

/-- R241: the number of items that the operation needs. -/
def Instr.lengthOk : Instr → Nat → Bool
  | .init, k => k == 0
  | .crc14Enc, k => k == 77
  | .crc14Vfy, k => k == 91
  | .grayEnc, k => k == 1
  | .grayDec, k => k == 1
  | .grayMap, k => k % 3 == 0
  | .grayUnmap, _ => true
  | .ldpcEnc, k => k == 91
  | .ldpcSyn, k => k == 174
  | .fgNm _, k => k == 0
  | .fgMn _, k => k == 0
  | .bpDec _, k => k == 174

/-- R74: the item type of the operation's payload; none where it needs 0 items. -/
def Instr.itemType : Instr → Option ItemType
  | .init => none
  | .crc14Enc => some .bit
  | .crc14Vfy => some .bit
  | .grayEnc => some .sym
  | .grayDec => some .sym
  | .grayMap => some .bit
  | .grayUnmap => some .sym
  | .ldpcEnc => some .bit
  | .ldpcSyn => some .bit
  | .fgNm _ => none
  | .fgMn _ => none
  | .bpDec _ => some .llr

/-- R72: every item of the payload is of the type that the opcode fixes. -/
def Instr.payloadTyped (i : Instr) (p : Payload) : Bool :=
  p.all fun x => i.itemType == some x.type

/-- R192: every `LLR` item of the payload is a finite number. -/
def Payload.finite (p : Payload) : Bool :=
  p.all fun x => match x with
    | .llr (.nonFinite _) => false
    | _ => true

/-- A well-formed command: immediate in range, payload of the needed length and type, its LLRs finite. -/
def Instr.wellFormed (i : Instr) (p : Payload) : Bool :=
  i.immOk && i.lengthOk p.length && i.payloadTyped p && Payload.finite p

end Sys2Proof
end

