-- ==== Sys2Proof/Decode.lean ====
section
/-! DEFINITION. The command word (R71, R74, R75, R78): decoding, total on every 32-bit word, and encoding. -/

namespace Sys2Proof

/-- Why a command word is illegal (R78). All three are answered `InvalidOp`. -/
inductive DecodeError where
  /-- `op` is 0x0C to 0xFF -/
  | reservedOp
  /-- `rsv` is not 0 -/
  | reservedField
  /-- `imm` is not 0 for an opcode that has no immediate -/
  | immediateNotZero
  deriving DecidableEq, Repr

/-- An opcode whose row says `imm` = 0 (R74, R78). -/
def withoutImm (imm : Imm) (i : Instr) : Except DecodeError Instr :=
  if imm = 0 then .ok i else .error .immediateNotZero

/-- R74, R78: the operation that a command word selects, or why it selects none. -/
def decode (w : Word) : Except DecodeError Instr :=
  if w.field 8 8 ≠ 0 then .error .reservedField
  else
    match (w.field 0 8).toNat with
    | 0x00 => withoutImm (w.field 16 16) .init
    | 0x01 => withoutImm (w.field 16 16) .crc14Enc
    | 0x02 => withoutImm (w.field 16 16) .crc14Vfy
    | 0x03 => withoutImm (w.field 16 16) .grayEnc
    | 0x04 => withoutImm (w.field 16 16) .grayDec
    | 0x05 => withoutImm (w.field 16 16) .grayMap
    | 0x06 => withoutImm (w.field 16 16) .grayUnmap
    | 0x07 => withoutImm (w.field 16 16) .ldpcEnc
    | 0x08 => withoutImm (w.field 16 16) .ldpcSyn
    | 0x09 => .ok (.fgNm (w.field 16 16))
    | 0x0A => .ok (.fgMn (w.field 16 16))
    | 0x0B => .ok (.bpDec (w.field 16 16))
    | _ => .error .reservedOp

/-- R71: a command word from its fields `imm`, `rsv` = 0 and `op`. -/
def commandWord (imm : Imm) (op : BitVec 8) : Word := imm ++ 0#8 ++ op

/-- R74: the opcode number of an operation. -/
def Instr.op : Instr → BitVec 8
  | .init => 0x00
  | .crc14Enc => 0x01
  | .crc14Vfy => 0x02
  | .grayEnc => 0x03
  | .grayDec => 0x04
  | .grayMap => 0x05
  | .grayUnmap => 0x06
  | .ldpcEnc => 0x07
  | .ldpcSyn => 0x08
  | .fgNm _ => 0x09
  | .fgMn _ => 0x0A
  | .bpDec _ => 0x0B

/-- R75: the immediate of an operation, 0 where it has none. -/
def Instr.imm : Instr → Imm
  | .init | .crc14Enc | .crc14Vfy | .grayEnc | .grayDec | .grayMap | .grayUnmap | .ldpcEnc | .ldpcSyn => 0
  | .fgNm c => c
  | .fgMn n => n
  | .bpDec k => k

/-- The command word of an operation (R71, R74). -/
def encode (i : Instr) : Word := commandWord i.imm i.op

/-- The operation read from a word given as spec/opcode_table.json numbers its bits: CORE has one 32-bit command word
(R84), bit 0 its least significant, and every bit above `nbits` is 0. -/
def decodeTableWord (nbits w : Nat) : Option Instr :=
  match decode (BitVec.ofNat 32 (w % 2 ^ nbits)) with
  | .ok i => some i
  | .error _ => none

end Sys2Proof
end

