-- ==== Sys2Proof/Machine/Reference.lean ====
section
/-! DEFINITION. The reference semantics of LLRs and messages: exact real numbers (R11, R175).
A message is written as the exact expression that makes it, over LLR items. -/

namespace Sys2Proof

/-- The real number written as data, where the name k stands for `value k`. -/
def RealNum.toRealWith (value : ℕ → ℝ) : RealNum → ℝ
  | .rat q => q
  | .named k => value k

/-- The rational number written as data; 0 for a name. -/
def RealNum.ratPart : RealNum → Rat
  | .rat q => q
  | .named _ => 0

namespace Machine

/-- R175: the check-node function on exact reals, `cn(xs) = -2 × atanh(product of tanh(-x/2))`.
The source prints `tan` and `atan`; 90_conflicts.md C2 reads them as the hyperbolic pair. -/
noncomputable def cnReal (xs : List ℝ) : ℝ :=
  -2 * Real.artanh (xs.map fun x => Real.tanh (-x / 2)).prod

/-- An exact message or corrected LLR (R28, R29, R30): the real number that the expression denotes. -/
inductive Msg where
  /-- an LLR item, taken as it stands (R81) -/
  | item (x : RealNum)
  /-- a sum (R177, R182) -/
  | add (a b : Msg)
  /-- the check-node function of two inputs (R175); `Value.cn` makes the function of a list from it -/
  | box (a b : Msg)
  deriving DecidableEq, Repr, Inhabited

/-- The real number a message is, where the name k stands for `value k`. -/
noncomputable def Msg.toRealWith (value : ℕ → ℝ) : Msg → ℝ
  | .item x => x.toRealWith value
  | .add a b => a.toRealWith value + b.toRealWith value
  | .box a b => cnReal [a.toRealWith value, b.toRealWith value]

end Machine

end Sys2Proof
end

