-- ==== Sys2Proof/Machine/Transcendental.lean ====
section
/-! DEFINITION. What the exact comparison `> 0` of a message (R177) rests on: powers of e are transcendental, so a non-zero
integer polynomial is not zero at exp (1/D).
The exact comparison of Sys2Proof/Machine/Exact.lean terminates because of it.
The analytic part of the proof (Hermite's approximations) is Mathlib's. -/

namespace Sys2Proof.Machine

open Polynomial
open scoped Nat

/-- The polynomial with the simple roots 1, ..., d, to which Hermite's approximation is applied. -/
noncomputable def rootsUpTo (d : ℕ) : ℤ[X] := ∏ i ∈ Finset.range d, (X - C ((i : ℤ) + 1))

theorem rootsUpTo_eval_zero (d : ℕ) : (rootsUpTo d).eval 0 ≠ 0 := by
  simp only [rootsUpTo, eval_prod, eval_sub, eval_X, eval_C]
  exact Finset.prod_ne_zero_iff.mpr fun i _ => by omega

theorem rootsUpTo_aroots {d i : ℕ} (h : i < d) : ((i : ℂ) + 1) ∈ (rootsUpTo d).aroots ℂ := by
  have h0 : rootsUpTo d ≠ 0 := fun e => rootsUpTo_eval_zero d (by simp [e])
  rw [mem_aroots]
  refine ⟨h0, ?_⟩
  simp only [rootsUpTo, map_prod, map_sub, aeval_X, aeval_C]
  exact Finset.prod_eq_zero (Finset.mem_range.mpr h) (by simp)

/-- An integer combination of 1, e, e^2, ..., e^d that vanishes has constant term 0. -/
theorem constant_term_eq_zero (d : ℕ) (a : ℕ → ℤ)
    (h : (a 0 : ℂ) + ∑ i ∈ Finset.range d, (a (i + 1) : ℂ) * Complex.exp ((i : ℂ) + 1) = 0) :
    a 0 = 0 := by
  by_contra ha
  obtain ⟨c, hc⟩ := LindemannWeierstrass.exp_polynomial_approx (rootsUpTo d) (rootsUpTo_eval_zero d)
  set S : ℝ := ∑ i ∈ Finset.range d, |(a (i + 1) : ℝ)| with hS
  have hS0 : 0 ≤ S := Finset.sum_nonneg fun i _ => abs_nonneg _
  -- the error term tends to 0
  have hlim : Filter.Tendsto (fun n : ℕ => S * |c| * (|c| ^ n / (n ! : ℝ))) Filter.atTop (nhds 0) := by
    simpa using (FloorSemiring.tendsto_pow_div_factorial_atTop |c|).const_mul (S * |c|)
  obtain ⟨n0, hn0⟩ := (hlim.eventually (gt_mem_nhds (zero_lt_one))).exists_forall_of_atTop
  obtain ⟨p, hpge, hp⟩ :=
    Nat.exists_infinite_primes (max (n0 + 1) (max ((rootsUpTo d).eval 0).natAbs (a 0).natAbs + 1))
  have hp1 : n0 + 1 ≤ p := le_trans (le_max_left _ _) hpge
  have hp2 : max ((rootsUpTo d).eval 0).natAbs (a 0).natAbs + 1 ≤ p := le_trans (le_max_right _ _) hpge
  have hp3 : ((rootsUpTo d).eval 0).natAbs < p := by
    have := le_max_left ((rootsUpTo d).eval 0).natAbs (a 0).natAbs; omega
  have hp4 : (a 0).natAbs < p := by
    have := le_max_right ((rootsUpTo d).eval 0).natAbs (a 0).natAbs; omega
  obtain ⟨n, hpn, gp, -, hg⟩ := hc p hp3 hp
  -- the integer n * a 0 + p * (sum of a i * gp i) is small, so it is 0
  set T : ℤ := n * a 0 + p * ∑ i ∈ Finset.range d, a (i + 1) * gp.eval ((i : ℤ) + 1) with hT
  have hgi : ∀ i < d, ‖(n : ℂ) * Complex.exp ((i : ℂ) + 1) - p * ((gp.eval ((i : ℤ) + 1) : ℤ) : ℂ)‖
      ≤ c ^ p / (p - 1)! := by
    intro i hi
    have := hg (rootsUpTo_aroots hi)
    have e : (aeval ((i : ℂ) + 1)) gp = ((gp.eval ((i : ℤ) + 1) : ℤ) : ℂ) := by
      have : ((i : ℂ) + 1) = algebraMap ℤ ℂ ((i : ℤ) + 1) := by simp
      rw [this, aeval_algebraMap_apply_eq_algebraMap_eval]; simp
    rw [e] at this
    simpa [zsmul_eq_mul, nsmul_eq_mul] using this
  have hTC : ((T : ℤ) : ℂ) = - ∑ i ∈ Finset.range d, (a (i + 1) : ℂ) *
      ((n : ℂ) * Complex.exp ((i : ℂ) + 1) - p * ((gp.eval ((i : ℤ) + 1) : ℤ) : ℂ)) := by
    have h' : (a 0 : ℂ) = - ∑ i ∈ Finset.range d, (a (i + 1) : ℂ) * Complex.exp ((i : ℂ) + 1) :=
      eq_neg_of_add_eq_zero_left h
    simp only [hT, Int.cast_add, Int.cast_mul, Int.cast_sum, Int.cast_natCast, h']
    simp only [mul_sub, Finset.sum_sub_distrib, Finset.mul_sum, mul_neg, neg_sub, ← Finset.sum_neg_distrib]
    rw [sub_eq_add_neg, add_comm, ← Finset.sum_neg_distrib]
    congr 1
    · exact Finset.sum_congr rfl fun i _ => by ring
    · exact Finset.sum_congr rfl fun i _ => by ring
  have hsmall : ‖((T : ℤ) : ℂ)‖ < 1 := by
    rw [hTC, norm_neg]
    have hb : ∀ i ∈ Finset.range d, ‖(a (i + 1) : ℂ) *
        ((n : ℂ) * Complex.exp ((i : ℂ) + 1) - p * ((gp.eval ((i : ℤ) + 1) : ℤ) : ℂ))‖
        ≤ |(a (i + 1) : ℝ)| * (|c| ^ p / (p - 1)!) := by
      intro i hi
      rw [norm_mul]
      gcongr
      · simp
      · refine (hgi i (Finset.mem_range.mp hi)).trans ?_
        exact div_le_div_of_nonneg_right ((le_abs_self _).trans (abs_pow c p).le) (by positivity)
    refine (norm_sum_le_of_le _ hb).trans_lt ?_
    rw [← Finset.sum_mul, ← hS]
    have := hn0 (p - 1) (by omega)
    have e : |c| ^ p = |c| * |c| ^ (p - 1) := by
      conv_lhs => rw [show p = (p - 1) + 1 by omega]
      rw [pow_succ]; ring
    rw [e]
    calc S * (|c| * |c| ^ (p - 1) / ((p - 1)! : ℝ)) = S * |c| * (|c| ^ (p - 1) / ((p - 1)! : ℝ)) := by ring
      _ < 1 := this
  have hT0 : T = 0 := by
    rw [Complex.norm_intCast] at hsmall
    have : |T| < 1 := by exact_mod_cast hsmall
    exact Int.abs_lt_one_iff.mp this
  have hdvd : (p : ℤ) ∣ n * a 0 := by
    have : n * a 0 = -(p * ∑ i ∈ Finset.range d, a (i + 1) * gp.eval ((i : ℤ) + 1)) := by
      rw [hT] at hT0; linarith
    rw [this]; exact (dvd_mul_right _ _).neg_right
  rcases (Nat.prime_iff_prime_int.mp hp).dvd_or_dvd hdvd with h1 | h1
  · exact hpn h1
  · have := Int.natAbs_dvd_natAbs.mpr h1
    exact absurd (Nat.le_of_dvd (Int.natAbs_pos.mpr ha) (by simpa using this)) (by omega)

/-- e is transcendental. -/
theorem transcendental_exp_one : Transcendental ℤ (Real.exp 1) := by
  rw [transcendental_iff]
  intro f hf
  by_contra hne
  -- divide out the largest power of X
  obtain ⟨g, hg, hgc⟩ : ∃ g : ℤ[X], f = X ^ f.natTrailingDegree * g ∧ g.coeff 0 ≠ 0 := by
    have hd : X ^ f.natTrailingDegree ∣ f :=
      X_pow_dvd_iff.mpr fun k hk => coeff_eq_zero_of_lt_natTrailingDegree hk
    obtain ⟨g, hg⟩ := hd
    refine ⟨g, hg, ?_⟩
    have h1 : f.coeff f.natTrailingDegree = g.coeff 0 := by
      have := coeff_X_pow_mul g f.natTrailingDegree 0
      rw [← hg, zero_add] at this
      exact this
    rw [← h1]
    exact mt trailingCoeff_eq_zero.mp hne
  have hge : aeval (Real.exp 1) g = 0 := by
    rw [hg, map_mul, map_pow, aeval_X] at hf
    exact (mul_eq_zero.mp hf).resolve_left (pow_ne_zero _ (Real.exp_ne_zero 1))
  refine hgc (constant_term_eq_zero g.natDegree (fun i => g.coeff i) ?_)
  have hsum : (aeval (Real.exp 1) g : ℝ) =
      ∑ i ∈ Finset.range (g.natDegree + 1), (g.coeff i : ℝ) * Real.exp 1 ^ i := by
    rw [aeval_eq_sum_range]; simp [zsmul_eq_mul]
  rw [hge, Finset.sum_range_succ'] at hsum
  have hc := congrArg (fun x : ℝ => (x : ℂ)) hsum
  push_cast at hc
  rw [add_comm, eq_comm] at hc
  have hexp : ∀ i : ℕ, Complex.exp 1 ^ (i + 1) = Complex.exp ((i : ℂ) + 1) := fun i => by
    rw [← Complex.exp_nat_mul]; push_cast; ring_nf
  simpa [hexp] using hc

/-- A non-zero integer polynomial does not vanish at exp (1/D). -/
theorem aeval_exp_inv_ne_zero {D : ℕ} (hD : 0 < D) {f : ℤ[X]} (hf : f ≠ 0) :
    aeval (Real.exp (1 / D)) f ≠ 0 := by
  intro h0
  have halg : IsAlgebraic ℤ (Real.exp (1 / D)) := ⟨f, hf, h0⟩
  have hpow : Real.exp (1 / D) ^ D = Real.exp 1 := by
    rw [← Real.exp_nat_mul]; congr 1; field_simp
  exact transcendental_exp_one (hpow ▸ halg.pow D)

end Sys2Proof.Machine
end

