-- ==== Sys2Proof/Machine/Exact.lean ====
section
/-! DEFINITION. The exact comparison `> 0` of a message over rational items (R177), as a computation.
The exponential of a message is a quotient P/Q of two polynomials with natural coefficients in t = e^(1/D), where D is a
common denominator of its items. The message is 0 exactly when P and Q are the same polynomial (e is transcendental);
else rational bounds of t, made tighter and tighter, show which of P and Q is the larger. -/

namespace Sys2Proof.Machine

/-- A common denominator of the items of a message. Here and below a named item is taken as 0. -/
def Msg.den : Msg → ℕ
  | .item x => x.ratPart.den
  | .add a b => Nat.lcm a.den b.den
  | .box a b => Nat.lcm a.den b.den

/-- Numerator and denominator of the exponential of a message at t, where t stands for e^(1/D).
With a = e^x and b = e^y, a sum has a·b and the check-node function has (a + b)/(1 + a·b). -/
def Msg.frac {R : Type} [CommSemiring R] (D : ℕ) (t : R) : Msg → R × R
  | .item x =>
    if 0 ≤ x.ratPart.num then (t ^ (x.ratPart.num.toNat * (D / x.ratPart.den)), 1)
    else (1, t ^ ((-x.ratPart.num).toNat * (D / x.ratPart.den)))
  | .add a b => ((a.frac D t).1 * (b.frac D t).1, (a.frac D t).2 * (b.frac D t).2)
  | .box a b =>
    ((a.frac D t).1 * (b.frac D t).2 + (b.frac D t).1 * (a.frac D t).2,
      (a.frac D t).2 * (b.frac D t).2 + (a.frac D t).1 * (b.frac D t).1)

/-- One more than the sum of all coefficients of numerator and denominator: a base in which the value of either
polynomial shows its coefficients as digits. -/
def Msg.base (m : Msg) : ℕ := (m.frac m.den (1 : ℕ)).1 + (m.frac m.den (1 : ℕ)).2 + 1

/-- Numerator and denominator are the same polynomial: the message is exactly 0. -/
def Msg.isZero (m : Msg) : Bool := (m.frac m.den m.base).1 == (m.frac m.den m.base).2

/-- The first n + 1 terms of the series of e^(1/D): a rational below it. -/
def expInvLower (D n : ℕ) : ℚ := ∑ i ∈ Finset.range (n + 1), (1 / (D : ℚ)) ^ i / (i.factorial : ℚ)

/-- A rational above e^(1/D): the same terms and a bound of the rest. -/
def expInvUpper (D n : ℕ) : ℚ :=
  expInvLower D n + (1 / (D : ℚ)) ^ (n + 1) * ((n + 1 : ℕ) + 1) / (((n + 1).factorial : ℚ) * ((n + 1 : ℕ) : ℚ))

/-- The sign of a message as far as the n-th bounds of e^(1/D) show it. -/
def Msg.signAt (m : Msg) (n : ℕ) : Option Bool :=
  if (m.frac m.den (expInvUpper m.den n)).2 < (m.frac m.den (expInvLower m.den n)).1 then some true
  else if (m.frac m.den (expInvUpper m.den n)).1 < (m.frac m.den (expInvLower m.den n)).2 then some false
  else none

/-! ### The facts that the comparison's termination rests on -/

theorem Msg.den_pos : ∀ m : Msg, 0 < m.den
  | .item x => x.ratPart.den_pos
  | .add a b => Nat.lcm_pos a.den_pos b.den_pos
  | .box a b => Nat.lcm_pos a.den_pos b.den_pos

theorem Msg.frac_map {R S : Type} [CommSemiring R] [CommSemiring S] (φ : R →+* S) (D : ℕ) (t : R) :
    ∀ m : Msg, m.frac D (φ t) = (φ (m.frac D t).1, φ (m.frac D t).2)
  | .item q => by simp only [Msg.frac]; split <;> simp
  | .add a b => by simp [Msg.frac, a.frac_map φ D t, b.frac_map φ D t]
  | .box a b => by simp [Msg.frac, a.frac_map φ D t, b.frac_map φ D t]

/-- The two polynomials of a message. -/
noncomputable def Msg.numPoly (m : Msg) : Polynomial ℕ := (m.frac m.den (Polynomial.X : Polynomial ℕ)).1
noncomputable def Msg.denPoly (m : Msg) : Polynomial ℕ := (m.frac m.den (Polynomial.X : Polynomial ℕ)).2

theorem Msg.frac_eq_eval₂ {S : Type} [CommSemiring S] (m : Msg) (t : S) :
    m.frac m.den t = (m.numPoly.eval₂ (Nat.castRingHom S) t, m.denPoly.eval₂ (Nat.castRingHom S) t) := by
  have h := m.frac_map (Polynomial.eval₂RingHom (Nat.castRingHom S) t) m.den Polynomial.X
  simpa [Msg.numPoly, Msg.denPoly] using h

/-- A natural number's base-b digits: polynomials with coefficients below b that agree at b are equal. -/
theorem poly_eq_of_eval_base {b : ℕ} : ∀ (n : ℕ) (p q : Polynomial ℕ), p.natDegree ≤ n → q.natDegree ≤ n →
    (∀ i, p.coeff i < b) → (∀ i, q.coeff i < b) → p.eval b = q.eval b → p = q := by
  intro n
  induction n with
  | zero =>
    intro p q hp hq _ _ h
    rw [Polynomial.eq_C_of_natDegree_le_zero hp, Polynomial.eq_C_of_natDegree_le_zero hq] at h ⊢
    simpa using h
  | succ n ih =>
    intro p q hp hq hpb hqb h
    rw [← Polynomial.divX_mul_X_add p, ← Polynomial.divX_mul_X_add q] at h
    simp only [Polynomial.eval_add, Polynomial.eval_mul, Polynomial.eval_X, Polynomial.eval_C] at h
    have hb : 0 < b := (Nat.zero_le _).trans_lt (hpb 0)
    have h0 : p.coeff 0 = q.coeff 0 := by
      have := congrArg (· % b) h
      simpa [Nat.mod_eq_of_lt (hpb 0), Nat.mod_eq_of_lt (hqb 0)] using this
    have h1 : p.divX.eval b = q.divX.eval b := by
      rw [h0] at h
      exact Nat.eq_of_mul_eq_mul_right hb (Nat.add_right_cancel h)
    have h2 : p.divX = q.divX := by
      refine ih _ _ ?_ ?_ (fun i => ?_) (fun i => ?_) h1
      · rw [Polynomial.natDegree_divX_eq_natDegree_tsub_one]; omega
      · rw [Polynomial.natDegree_divX_eq_natDegree_tsub_one]; omega
      · rw [Polynomial.coeff_divX]; exact hpb _
      · rw [Polynomial.coeff_divX]; exact hqb _
    rw [← Polynomial.divX_mul_X_add p, ← Polynomial.divX_mul_X_add q, h0, h2]

theorem coeff_le_eval_one (p : Polynomial ℕ) (i : ℕ) : p.coeff i ≤ p.eval 1 := by
  rw [Polynomial.eval_eq_sum_range]
  by_cases h : i ≤ p.natDegree
  · simpa using Finset.single_le_sum (f := fun j => p.coeff j * 1 ^ j) (fun _ _ => Nat.zero_le _)
      (Finset.mem_range.mpr (Nat.lt_succ_of_le h))
  · rw [Polynomial.coeff_eq_zero_of_natDegree_lt (not_le.mp h)]; exact Nat.zero_le _

theorem Msg.isZero_iff (m : Msg) : m.isZero = true ↔ m.numPoly = m.denPoly := by
  have hev : ∀ b : ℕ, m.frac m.den b = (m.numPoly.eval b, m.denPoly.eval b) := fun b => by
    have := m.frac_eq_eval₂ b
    rwa [show Nat.castRingHom ℕ = RingHom.id ℕ from RingHom.ext fun _ => rfl] at this
  have hb : m.base = m.numPoly.eval 1 + m.denPoly.eval 1 + 1 := by simp only [Msg.base, hev]
  rw [Msg.isZero, hev, beq_iff_eq]
  refine ⟨fun h => poly_eq_of_eval_base _ _ _ (le_max_left _ _) (le_max_right _ _) (fun i => ?_) (fun i => ?_) h,
    fun h => by rw [h]⟩
  · have := coeff_le_eval_one m.numPoly i; omega
  · have := coeff_le_eval_one m.denPoly i; omega

/-- e^(1/D) for the common denominator of a message. -/
noncomputable def Msg.root (m : Msg) : ℝ := Real.exp (1 / m.den)

theorem eval₂_nat_eq_aeval (p : Polynomial ℕ) (x : ℝ) :
    p.eval₂ (Nat.castRingHom ℝ) x = Polynomial.aeval x (p.map (Nat.castRingHom ℤ)) := by
  rw [Polynomial.aeval_def, Polynomial.eval₂_map]
  congr 1

/-- Where the polynomials differ, so do their values at e^(1/D): e is transcendental. -/
theorem Msg.frac_root_ne (m : Msg) (h : m.isZero = false) :
    (m.frac m.den m.root).1 ≠ (m.frac m.den m.root).2 := by
  have hne : m.numPoly ≠ m.denPoly := fun e => by
    rw [(m.isZero_iff).mpr e] at h; exact Bool.noConfusion h
  have hz : m.numPoly.map (Nat.castRingHom ℤ) - m.denPoly.map (Nat.castRingHom ℤ) ≠ 0 := fun e =>
    hne (Polynomial.map_injective _ (Nat.cast_injective (R := ℤ)) (sub_eq_zero.mp e))
  have := aeval_exp_inv_ne_zero m.den_pos hz
  rw [map_sub, ← eval₂_nat_eq_aeval, ← eval₂_nat_eq_aeval] at this
  rw [m.frac_eq_eval₂]
  exact sub_ne_zero.mp this

theorem inv_den_le_one (m : Msg) : (1 / (m.den : ℝ)) ≤ 1 := by
  rw [div_le_one (by exact_mod_cast m.den_pos)]; exact_mod_cast m.den_pos

theorem expInvLower_le (m : Msg) (n : ℕ) : (expInvLower m.den n : ℝ) ≤ m.root := by
  have := Real.sum_le_exp_of_nonneg (x := 1 / (m.den : ℝ)) (by positivity) (n + 1)
  simpa [expInvLower, Msg.root] using this

theorem root_le_expInvUpper (m : Msg) (n : ℕ) : m.root ≤ (expInvUpper m.den n : ℝ) := by
  have := Real.exp_bound' (x := 1 / (m.den : ℝ)) (by positivity) (inv_den_le_one m) (Nat.succ_pos n)
  simpa [expInvUpper, expInvLower, Msg.root] using this

theorem tendsto_bounds (m : Msg) :
    Filter.Tendsto (fun n => (expInvLower m.den n : ℝ)) Filter.atTop (nhds m.root) ∧
      Filter.Tendsto (fun n => (expInvUpper m.den n : ℝ)) Filter.atTop (nhds m.root) := by
  set e : ℕ → ℝ := fun n => (expInvUpper m.den n : ℝ) - (expInvLower m.den n : ℝ) with he
  have hbound : ∀ n, e n ≤ 2 * (1 ^ (n + 1) / ((n + 1).factorial : ℝ)) := by
    intro n
    have h1 : (1 / (m.den : ℝ)) ^ (n + 1) ≤ 1 := pow_le_one₀ (by positivity) (inv_den_le_one m)
    have h2 : e n = (1 / (m.den : ℝ)) ^ (n + 1) * ((n + 1 : ℝ) + 1) / (((n + 1).factorial : ℝ) * (n + 1 : ℝ)) := by
      simp [he, expInvUpper]
    rw [h2]
    have h3 : ((n + 1 : ℝ) + 1) ≤ 2 * (n + 1 : ℝ) := by
      have : (0 : ℝ) ≤ n := Nat.cast_nonneg n
      linarith
    have h4 : (0 : ℝ) < ((n + 1).factorial : ℝ) := by positivity
    have h5 : (0 : ℝ) < (n + 1 : ℝ) := by positivity
    rw [div_le_iff₀ (by positivity)]
    calc (1 / (m.den : ℝ)) ^ (n + 1) * ((n + 1 : ℝ) + 1) ≤ 1 * (2 * (n + 1 : ℝ)) := by gcongr
      _ = 2 * (1 ^ (n + 1) / ((n + 1).factorial : ℝ)) * (((n + 1).factorial : ℝ) * (n + 1 : ℝ)) := by
        field_simp; simp
  have hlim : Filter.Tendsto e Filter.atTop (nhds 0) := by
    refine squeeze_zero (fun n => ?_) hbound ?_
    · exact sub_nonneg.mpr ((expInvLower_le m n).trans (root_le_expInvUpper m n))
    · have := ((FloorSemiring.tendsto_pow_div_factorial_atTop (1 : ℝ)).comp
        (Filter.tendsto_add_atTop_nat 1)).const_mul 2
      simpa using this
  refine ⟨tendsto_of_tendsto_of_tendsto_of_le_of_le (by simpa using hlim.const_sub m.root) tendsto_const_nhds
      (fun n => ?_) (fun n => expInvLower_le m n),
    tendsto_of_tendsto_of_tendsto_of_le_of_le tendsto_const_nhds (by simpa using hlim.const_add m.root)
      (fun n => root_le_expInvUpper m n) (fun n => ?_)⟩
  · have := root_le_expInvUpper m n; simp only [he]; linarith
  · have := expInvLower_le m n; simp only [he]; linarith

theorem Msg.frac_cast (m : Msg) (q : ℚ) :
    m.frac m.den (q : ℝ) = (((m.frac m.den q).1 : ℝ), ((m.frac m.den q).2 : ℝ)) :=
  m.frac_map (Rat.castHom ℝ) m.den q

theorem Msg.tendsto_frac (m : Msg) {u : ℕ → ℚ} (h : Filter.Tendsto (fun n => (u n : ℝ)) Filter.atTop (nhds m.root)) :
    Filter.Tendsto (fun n => ((m.frac m.den (u n)).1 : ℝ)) Filter.atTop (nhds (m.frac m.den m.root).1) ∧
      Filter.Tendsto (fun n => ((m.frac m.den (u n)).2 : ℝ)) Filter.atTop (nhds (m.frac m.den m.root).2) := by
  have hc : ∀ p : Polynomial ℕ, Continuous fun x : ℝ => p.eval₂ (Nat.castRingHom ℝ) x := fun p =>
    p.continuous_eval₂ _
  have e : ∀ n, (((m.frac m.den (u n)).1 : ℝ), ((m.frac m.den (u n)).2 : ℝ)) =
      (m.numPoly.eval₂ (Nat.castRingHom ℝ) (u n : ℝ), m.denPoly.eval₂ (Nat.castRingHom ℝ) (u n : ℝ)) := fun n => by
    rw [← m.frac_cast, m.frac_eq_eval₂]
  have e1 : ∀ n, ((m.frac m.den (u n)).1 : ℝ) = m.numPoly.eval₂ (Nat.castRingHom ℝ) (u n : ℝ) :=
    fun n => congrArg Prod.fst (e n)
  have e2 : ∀ n, ((m.frac m.den (u n)).2 : ℝ) = m.denPoly.eval₂ (Nat.castRingHom ℝ) (u n : ℝ) :=
    fun n => congrArg Prod.snd (e n)
  simp only [e1, e2, m.frac_eq_eval₂ m.root]
  exact ⟨((hc m.numPoly).tendsto m.root).comp h, ((hc m.denPoly).tendsto m.root).comp h⟩

/-- Tight enough bounds show the sign of a message that is not 0. -/
theorem Msg.exists_signAt (m : Msg) (h : m.isZero = false) : ∃ n, (m.signAt n).isSome = true := by
  obtain ⟨hlo, hhi⟩ := tendsto_bounds m
  obtain ⟨hlo1, hlo2⟩ := m.tendsto_frac hlo
  obtain ⟨hhi1, hhi2⟩ := m.tendsto_frac hhi
  rcases lt_or_gt_of_ne (m.frac_root_ne h) with hlt | hgt
  · obtain ⟨n, hn⟩ := (hhi1.eventually_lt hlo2 hlt).exists
    refine ⟨n, ?_⟩
    have hn' : (m.frac m.den (expInvUpper m.den n)).1 < (m.frac m.den (expInvLower m.den n)).2 := by exact_mod_cast hn
    simp only [Msg.signAt, if_pos hn']
    split <;> rfl
  · obtain ⟨n, hn⟩ := (hhi2.eventually_lt hlo1 hgt).exists
    refine ⟨n, ?_⟩
    have hn' : (m.frac m.den (expInvUpper m.den n)).2 < (m.frac m.den (expInvLower m.den n)).1 := by exact_mod_cast hn
    simp only [Msg.signAt, if_pos hn', Option.isSome_some]

/-- R177: whether a message is greater than 0, its named items taken as 0, decided exactly. -/
def Msg.isPositive (m : Msg) : Bool :=
  if h : m.isZero = false then (m.signAt (Nat.find (m.exists_signAt h))).getD false else false

end Sys2Proof.Machine
end

