-- ==== Sys2Proof/Machine/Sign.lean ====
section
/-! DEFINITION. Which real numbers the names of `RealNum` stand for, as far as a machine can see them: the sign of every
message.
That there is such a thing for the names all 0 rests on the exact comparison of Machine/Exact.lean, whose proof comes first. -/

namespace Sys2Proof.Machine

/-! ### The check-node function in terms of exponentials -/

theorem tanh_half (x : ℝ) : Real.tanh (-x / 2) = (1 - Real.exp x) / (1 + Real.exp x) := by
  rw [Real.tanh_eq_sinh_div_cosh, Real.sinh_eq, Real.cosh_eq]
  have h : Real.exp x = Real.exp (x / 2) * Real.exp (x / 2) := by rw [← Real.exp_add]; ring_nf
  have h1 : Real.exp (-x / 2) * Real.exp (x / 2) = 1 := by rw [← Real.exp_add]; ring_nf; simp
  have h2 : -(-x / 2) = x / 2 := by ring
  have hp := Real.exp_pos (x / 2)
  have hn := Real.exp_pos (-x / 2)
  rw [h2, h]
  rw [div_div_div_cancel_right₀ (by norm_num), div_eq_div_iff (by positivity) (by positivity)]
  linear_combination (2 * Real.exp (x / 2)) * h1

theorem abs_tanh_half_lt_one (x : ℝ) : |Real.tanh (-x / 2)| < 1 := by
  rw [tanh_half, abs_lt]
  have hp := Real.exp_pos x
  constructor
  · rw [lt_div_iff₀ (by positivity)]; linarith
  · rw [div_lt_one (by positivity)]; linarith

theorem abs_prod_lt_one : ∀ {xs : List ℝ}, xs ≠ [] → |(xs.map fun x => Real.tanh (-x / 2)).prod| < 1
  | [x], _ => by simpa using abs_tanh_half_lt_one x
  | x :: y :: ys, _ => by
    have ih := abs_prod_lt_one (xs := y :: ys) (by simp)
    rw [List.map_cons, List.prod_cons, abs_mul]
    exact mul_lt_one_of_nonneg_of_lt_one_left (abs_nonneg _) (abs_tanh_half_lt_one x) ih.le

/-- The check-node function undone: `tanh(-cn(xs)/2)` is the product of the `tanh(-x/2)`. -/
theorem tanh_cnReal {xs : List ℝ} (h : xs ≠ []) :
    Real.tanh (-cnReal xs / 2) = (xs.map fun x => Real.tanh (-x / 2)).prod := by
  have hp := abs_lt.mp (abs_prod_lt_one h)
  have e : -cnReal xs / 2 = Real.artanh (xs.map fun x => Real.tanh (-x / 2)).prod := by
    simp only [cnReal]; ring
  rw [e, Real.tanh_artanh ⟨hp.1, hp.2⟩]

theorem tanh_half_injective {x y : ℝ} (h : Real.tanh (-x / 2) = Real.tanh (-y / 2)) : x = y := by
  have := Real.tanh_injective h
  linarith

/-- R189 (a): one input is passed on. -/
theorem cnReal_singleton (x : ℝ) : cnReal [x] = x :=
  tanh_half_injective (by rw [tanh_cnReal (by simp)]; simp)

/-- The check-node function of a list is that of its first inputs' value and the last input. -/
theorem cnReal_append_singleton {xs : List ℝ} (h : xs ≠ []) (y : ℝ) :
    cnReal (xs ++ [y]) = cnReal [cnReal xs, y] := by
  refine tanh_half_injective ?_
  rw [tanh_cnReal (by simp), tanh_cnReal (by simp)]
  simp [tanh_cnReal h]

/-- The exponential of the check-node function of two inputs. -/
theorem exp_cnReal_pair (x y : ℝ) :
    Real.exp (cnReal [x, y]) = (Real.exp x + Real.exp y) / (1 + Real.exp x * Real.exp y) := by
  have h := tanh_cnReal (xs := [x, y]) (by simp)
  simp only [List.map_cons, List.map_nil, List.prod_cons, List.prod_nil, mul_one, tanh_half] at h
  have hx := Real.exp_pos x
  have hy := Real.exp_pos y
  have hc := Real.exp_pos (cnReal [x, y])
  rw [div_mul_div_comm, div_eq_div_iff (by positivity) (by positivity)] at h
  rw [eq_div_iff (by positivity)]
  linear_combination (-1 / 2) * h

/-! ### The exact comparison decides `0 < x` -/

/-- Numerator over denominator, at e^(1/D), is the exponential of the message; both are positive. -/
theorem Msg.frac_exp {D : ℕ} (hD : 0 < D) : ∀ m : Msg, m.den ∣ D →
    0 < (m.frac D (Real.exp (1 / D))).1 ∧ 0 < (m.frac D (Real.exp (1 / D))).2 ∧
      Real.exp (m.toRealWith fun _ => 0) = (m.frac D (Real.exp (1 / D))).1 / (m.frac D (Real.exp (1 / D))).2
  | .item x, h => by
    obtain ⟨q, hxq⟩ : ∃ q, x.ratPart = q := ⟨_, rfl⟩
    have hx : (x.toRealWith fun _ => 0) = (q : ℝ) := by rw [← hxq]; cases x <;> simp [RealNum.toRealWith, RealNum.ratPart]
    simp only [Msg.den, hxq] at h
    obtain ⟨c, hc⟩ : q.den ∣ D := h
    have hc0 : (D / q.den : ℕ) = c := by rw [hc]; exact Nat.mul_div_cancel_left c q.den_pos
    have hq : (q : ℝ) = q.num / q.den := by exact_mod_cast (Rat.num_div_den q).symm
    have hD' : (D : ℝ) = q.den * c := by rw [hc]; push_cast; ring
    have hc' : (c : ℝ) ≠ 0 := fun e => by
      have : D = 0 := by exact_mod_cast (by rw [hD', e]; simp : (D : ℝ) = 0)
      omega
    have hd' : (q.den : ℝ) ≠ 0 := by exact_mod_cast q.den_ne_zero
    simp only [Msg.frac, Msg.toRealWith, hx, hxq, hc0]
    split
    · rename_i h0
      refine ⟨by positivity, one_pos, ?_⟩
      obtain ⟨k, hk⟩ := Int.eq_ofNat_of_zero_le h0
      rw [div_one, ← Real.exp_nat_mul, hq, hD', hk]
      congr 1
      push_cast
      simp only [Int.toNat_natCast]
      field_simp
    · rename_i h0
      refine ⟨one_pos, by positivity, ?_⟩
      obtain ⟨k, hk⟩ := Int.eq_ofNat_of_zero_le (show 0 ≤ -q.num by omega)
      have hk' : (q.num : ℝ) = -(k : ℝ) := by
        have : q.num = -(k : ℤ) := by omega
        rw [this]; push_cast; rfl
      rw [one_div, ← Real.exp_nat_mul, ← Real.exp_neg, hq, hD', hk', hk]
      congr 1
      push_cast
      simp only [Int.toNat_natCast]
      field_simp
  | .add a b, h => by
    obtain ⟨a1, a2, a3⟩ := a.frac_exp hD ((Nat.dvd_lcm_left _ _).trans h)
    obtain ⟨b1, b2, b3⟩ := b.frac_exp hD ((Nat.dvd_lcm_right _ _).trans h)
    refine ⟨mul_pos a1 b1, mul_pos a2 b2, ?_⟩
    simp only [Msg.toRealWith, Msg.frac, Real.exp_add, a3, b3, div_mul_div_comm]
  | .box a b, h => by
    obtain ⟨a1, a2, a3⟩ := a.frac_exp hD ((Nat.dvd_lcm_left _ _).trans h)
    obtain ⟨b1, b2, b3⟩ := b.frac_exp hD ((Nat.dvd_lcm_right _ _).trans h)
    refine ⟨add_pos (mul_pos a1 b2) (mul_pos b1 a2), add_pos (mul_pos a2 b2) (mul_pos a1 b1), ?_⟩
    simp only [Msg.toRealWith, Msg.frac, exp_cnReal_pair, a3, b3]
    field_simp

theorem Msg.pos_iff (m : Msg) : 0 < m.toRealWith (fun _ => 0) ↔ (m.frac m.den m.root).2 < (m.frac m.den m.root).1 := by
  obtain ⟨h1, h2, h3⟩ := m.frac_exp m.den_pos (dvd_refl _)
  rw [← Real.one_lt_exp_iff, h3, one_lt_div h2]; rfl

/-- The value at bounds of e^(1/D) moves with the bound: coefficients are natural numbers. -/
theorem Msg.frac_mono {D : ℕ} {s t : ℝ} (h0 : 0 ≤ s) (h : s ≤ t) : ∀ m : Msg,
    0 ≤ (m.frac D s).1 ∧ (m.frac D s).1 ≤ (m.frac D t).1 ∧ 0 ≤ (m.frac D s).2 ∧ (m.frac D s).2 ≤ (m.frac D t).2
  | .item x => by
    simp only [Msg.frac]
    split
    · exact ⟨by positivity, pow_le_pow_left₀ h0 h _, zero_le_one, le_rfl⟩
    · exact ⟨zero_le_one, le_rfl, by positivity, pow_le_pow_left₀ h0 h _⟩
  | .add a b => by
    obtain ⟨a1, a2, a3, a4⟩ := a.frac_mono (D := D) h0 h
    obtain ⟨b1, b2, b3, b4⟩ := b.frac_mono (D := D) h0 h
    exact ⟨mul_nonneg a1 b1, mul_le_mul a2 b2 b1 (a1.trans a2), mul_nonneg a3 b3, mul_le_mul a4 b4 b3 (a3.trans a4)⟩
  | .box a b => by
    obtain ⟨a1, a2, a3, a4⟩ := a.frac_mono (D := D) h0 h
    obtain ⟨b1, b2, b3, b4⟩ := b.frac_mono (D := D) h0 h
    exact ⟨add_nonneg (mul_nonneg a1 b3) (mul_nonneg b1 a3),
      add_le_add (mul_le_mul a2 b4 b3 (a1.trans a2)) (mul_le_mul b2 a4 a3 (b1.trans b2)),
      add_nonneg (mul_nonneg a3 b3) (mul_nonneg a1 b1),
      add_le_add (mul_le_mul a4 b4 b3 (a3.trans a4)) (mul_le_mul a2 b2 b1 (a1.trans a2))⟩

/-- Where the bounds of e^(1/D) show a sign, it is the right one. -/
theorem Msg.signAt_sound (m : Msg) (n : ℕ) {b : Bool} (h : m.signAt n = some b) : b = true ↔ 0 < m.toRealWith (fun _ => 0) := by
  have hlo : (expInvLower m.den n : ℝ) ≤ m.root := expInvLower_le m n
  have hlo0 : (0 : ℝ) ≤ (expInvLower m.den n : ℝ) := by
    have : (0 : ℚ) ≤ expInvLower m.den n := Finset.sum_nonneg fun i _ => by positivity
    exact_mod_cast this
  have hhi : m.root ≤ (expInvUpper m.den n : ℝ) := root_le_expInvUpper m n
  obtain ⟨-, hl1, -, hl2⟩ := m.frac_mono (D := m.den) hlo0 hlo
  obtain ⟨-, hh1, -, hh2⟩ := m.frac_mono (D := m.den) (hlo0.trans hlo) hhi
  rw [m.frac_cast] at hl1 hl2 hh1 hh2
  rw [m.pos_iff]
  simp only [Msg.signAt] at h
  split at h
  · rename_i hc
    have hc' : ((m.frac m.den (expInvUpper m.den n)).2 : ℝ) < ((m.frac m.den (expInvLower m.den n)).1 : ℝ) := by
      exact_mod_cast hc
    cases h
    exact ⟨fun _ => by linarith, fun _ => rfl⟩
  · split at h
    · rename_i hc
      have hc' : ((m.frac m.den (expInvUpper m.den n)).1 : ℝ) < ((m.frac m.den (expInvLower m.den n)).2 : ℝ) := by
        exact_mod_cast hc
      cases h
      exact ⟨fun h => Bool.noConfusion h, fun _ => by linarith⟩
    · cases h

/-- The exact comparison decides `0 < x`. -/
theorem Msg.isPositive_iff (m : Msg) : m.isPositive = true ↔ 0 < m.toRealWith (fun _ => 0) := by
  unfold Msg.isPositive
  split
  · rename_i h
    obtain ⟨b, hb⟩ := Option.isSome_iff_exists.mp (Nat.find_spec (m.exists_signAt h))
    rw [hb]
    exact m.signAt_sound _ hb
  · rename_i h
    have hz : m.isZero = true := by simpa using h
    rw [m.pos_iff, m.frac_eq_eval₂, (m.isZero_iff).mp hz]
    simp

/-! ### The names of real numbers -/

/-- R11, R177: the comparison `> 0` of every message, for some choice of the real numbers that the names stand for. -/
structure NamedReals where
  positive : Msg → Bool
  exact : ∃ value : ℕ → ℝ, ∀ m : Msg, positive m = true ↔ 0 < m.toRealWith value

/-- The choice of 0 for every name. It shows that the type is inhabited and is used for nothing else. -/
def NamedReals.zero : NamedReals := ⟨Msg.isPositive, fun _ => 0, Msg.isPositive_iff⟩

/-- What the opaque constant of Config.lean needs. -/
@[reducible] def NamedReals.inhabited : Inhabited NamedReals := ⟨NamedReals.zero⟩

end Sys2Proof.Machine
end

