-- ==== Sys2Proof/Config.lean ====
section
/-! DEFINITION. What is fixed for an instance of CORE: the two constants that the source gives, and the open parameters
of R8, whose values the spec does not give; and the real numbers that names stand for (R11). -/

namespace Sys2Proof

/-- R100: the CRC polynomial with all fifteen coefficients written, bit k the coefficient of x^k. -/
def Config.poly : BitVec 15 := 0x6757#15

/-- R120: the Gray table; the index is the symbol value, the entry the tone. -/
def Config.grayT : Vector Sym 8 := #v[0, 1, 3, 2, 5, 6, 4, 7]

/-- The stagnation policy `STAG` (R184): the three named instances, and any other total function of the history. -/
inductive StagPolicy where
  | never
  | window (w : Nat)
  | windowIncreasing (w : Nat)
  /-- another policy, told apart by its number: `Config.stagOther` of it -/
  | other (k : Nat)
  deriving DecidableEq, Repr, Inhabited

/-- R190: what the decoder asks of a format of numbers: the type of its values, the embedding of LLR items, the sum,
the check-node function of a non-empty list, and the comparison `> 0`. -/
structure Numerics (V : Type) where
  item : RealNum → V
  add : V → V → V
  cn : List V → V
  isPositive : V → Bool
  deriving Inhabited

/-- The numeric format `NUM` (R8): exact reals, the reference semantics, or a format of an implementation, told apart by its
number: `Config.numOther` of it. -/
inductive NumFormat where
  | exact
  | other (k : Nat)
  deriving DecidableEq, Repr, Inhabited

/-- The open parameters of one instance (R8). The model holds them as data beside the state, so that a statement about
every state is a statement about every value of them; no step changes them. -/
structure Params where
  /-- R140: `GEN`; row i has `GEN[i][j]` as its bit j counted from the most significant (R9) -/
  gen : Vector (BitVec 91) 83
  /-- R150: `NM`; `nm[c]` lists the bit nodes of check node c, well formed or not -/
  nm : Vector (List Nat) 83
  /-- R184: `STAG` -/
  stag : StagPolicy
  /-- R223: `HAS_ABORT` -/
  hasAbort : Bool
  /-- R190: `NUM` -/
  num : NumFormat
  /-- R190: `TOL`, a non-negative number where the instance meets its contract (Sys2Proof/Safety.lean) -/
  tol : RealNum
  /-- R190: `MSG_MAX`, a positive number or none -/
  msgMax : Option RealNum
  deriving DecidableEq, Repr

/-- FREE VALUE (log 2): the contents of `GEN` are not in the source (D13). -/
opaque Config.gen : Vector (BitVec 91) 83

/-- FREE VALUE (log 2): the contents of `NM` are not in the source (D13). -/
opaque Config.nm : Vector (List Nat) 83

/-- FREE VALUE (log 3): the source leaves the stagnation policy open (D18). -/
opaque Config.stag : StagPolicy

/-- FREE VALUE (log 3): a policy that is none of the three named ones, a total function of the history (R184). -/
opaque Config.stagOther : Nat → List Nat → Bool

/-- FREE VALUE (log 4): whether the abort request input exists (D19). -/
opaque Config.hasAbort : Bool

/-- FREE VALUE (log 6): the numeric format (D15). -/
opaque Config.num : NumFormat

/-- FREE VALUE (log 6): the tolerance `TOL` of the instance (D15). -/
opaque Config.tol : RealNum

/-- FREE VALUE (log 6): the saturation bound `MSG_MAX` of the instance (D15). -/
opaque Config.msgMax : Option RealNum

/-- FREE VALUE (log 17): the comparison `> 0` of messages over named real numbers, and with it what the names stand for.
The argument only shows that there is such a thing. -/
opaque Config.namedRealsOf [Inhabited Machine.NamedReals] : Machine.NamedReals

/-- The comparison of messages over named real numbers. -/
def Config.namedReals : Machine.NamedReals := @Config.namedRealsOf Machine.NamedReals.inhabited

/-- The real number that the name k stands for. -/
noncomputable def Config.namedReal : Nat → ℝ := Classical.choose Config.namedReals.exact

/-- R11: the real number written as data. -/
noncomputable def RealNum.toReal (x : RealNum) : ℝ := x.toRealWith Config.namedReal

/-- The real number a message is. -/
noncomputable def Machine.Msg.toReal (m : Machine.Msg) : ℝ := m.toRealWith Config.namedReal

/-- A format other than exact reals: its numerics record, with the numbers that stand for its values, and the rule that holds
of every format whatever its contract. R81: an LLR item is taken as it stands, with no scaling, no offset and no change of
sign. In an implementation an item is a value of the format (R72), so the rule is about the real numbers that the format has. -/
structure OtherFormat where
  numerics : Numerics Nat
  asItStands : ∃ value : Nat → ℝ, ∀ (x : RealNum) (c : Nat), value c = x.toReal → value (numerics.item x) = x.toReal

/-- What the opaque constant `Config.otherFormatOf` needs: a format with the one value 0. It is used for nothing else. -/
@[reducible] def OtherFormat.inhabited : Inhabited OtherFormat := ⟨⟨default, fun _ => 0, fun _ _ h => h⟩⟩

/-- FREE VALUE (log 6): the formats other than exact reals. The argument only shows that there is such a format. -/
opaque Config.otherFormatOf [Inhabited OtherFormat] : Nat → OtherFormat

/-- The format `other k`. -/
def Config.otherFormat (k : Nat) : OtherFormat := @Config.otherFormatOf OtherFormat.inhabited k

/-- R190: the numerics record of the format `other k`. -/
def Config.numOther (k : Nat) : Numerics Nat := (Config.otherFormat k).numerics

/-- The real number that a value of the format `other k` is. No step reads it. -/
noncomputable def Config.numValue (k : Nat) : Nat → ℝ := Classical.choose (Config.otherFormat k).asItStands

/-- The parameters of this instance. -/
def Config.params : Params :=
  { gen := Config.gen
    nm := Config.nm
    stag := Config.stag
    hasAbort := Config.hasAbort
    num := Config.num
    tol := Config.tol
    msgMax := Config.msgMax }

end Sys2Proof
end

