-- ==== Sys2Proof/Machine/Enclosure.lean ====
section
/-! DEFINITION. Bounds of the exponential of a message over rational items, kept so that its sign is mostly seen at a glance.
No result depends on how tight they are: where they do not show a sign, Machine/Exact.lean decides it. -/

namespace Sys2Proof.Machine

/-- `k n`, with the number n worked out first. -/
@[inline] def forceNat {α : Type} (n : ℕ) (k : ℕ → α) : α :=
  match n with
  | 0 => k 0
  | n + 1 => k (n + 1)

/-- A bound n/d; n/0 stands for "no bound from above". -/
structure Frac where
  n : ℕ
  d : ℕ
  deriving DecidableEq, Repr

/-- `k b`, with both numbers of the bound worked out first. -/
@[inline] def Frac.force {α : Type} (b : Frac) (k : Frac → α) : α :=
  forceNat b.n fun n => forceNat b.d fun d => k ⟨n, d⟩

/-- A lower and an upper bound of one positive real number. -/
structure Enclosure where
  lo : Frac
  hi : Frac
  deriving DecidableEq, Repr

/-- The size, in bits, that a bound's numbers are cut back to. -/
def boundBits : ℕ := 512

/-- How many bits to drop so that x has fewer than two times `boundBits` (in at most `fuel` cuts). -/
def cutFor : ℕ → ℕ → ℕ
  | 0, _ => 0
  | fuel + 1, x =>
    match x >>> (2 * boundBits) with
    | 0 => 0
    | _ + 1 => boundBits + cutFor fuel (x >>> boundBits)

/-- A bound with shorter numbers, not greater. -/
def Frac.down (b : Frac) : Frac :=
  b.force fun b =>
    match cutFor 16 (b.n ||| b.d) with
    | 0 => b
    | s + 1 => Frac.force ⟨b.n >>> (s + 1), (b.d >>> (s + 1)) + 1⟩ id

/-- A bound with shorter numbers, not smaller. -/
def Frac.up (b : Frac) : Frac :=
  b.force fun b =>
    match cutFor 16 (b.n ||| b.d) with
    | 0 => b
    | s + 1 => Frac.force ⟨(b.n >>> (s + 1)) + 1, b.d >>> (s + 1)⟩ id

def Frac.inv (a : Frac) : Frac := ⟨a.d, a.n⟩

/-- The exponential of a sum is the product. -/
def Frac.mul (a b : Frac) : Frac := ⟨a.n * b.n, a.d * b.d⟩

/-- The exponential of the check-node function of two inputs: (a + b)/(1 + a·b). -/
def Frac.box (a b : Frac) : Frac := ⟨a.n * b.d + b.n * a.d, a.d * b.d + a.n * b.n⟩

def Frac.ble (a b : Frac) : Bool := Nat.ble (a.n * b.d) (b.n * a.d)
def Frac.min (a b : Frac) : Frac := bif a.ble b then a else b
def Frac.max (a b : Frac) : Frac := bif a.ble b then b else a

/-- An enclosure with its numbers cut back and worked out. -/
def Enclosure.make (lo hi : Frac) : Enclosure :=
  lo.down.force fun lo => hi.up.force fun hi => ⟨lo, hi⟩

def Enclosure.inv (e : Enclosure) : Enclosure :=
  e.lo.force fun lo => e.hi.force fun hi => ⟨hi.inv, lo.inv⟩

/-- 1 + x(1 + x/2(1 + ... x/k·t)) at x = a/b: the first k terms of the exponential series and t times the next. -/
def Frac.horner (a b : ℕ) : ℕ → Frac → Frac
  | 0, t => t
  | i + 1, t => t.force fun t => Frac.horner a b i ⟨b * (i + 1) * t.d + a * t.n, b * (i + 1) * t.d⟩

/-- Squared k times, each time cut back by `cut`. -/
def Frac.squareTimes (cut : Frac → Frac) : ℕ → Frac → Frac
  | 0, b => b
  | k + 1, b => Frac.squareTimes cut k (cut (b.mul b))

/-- Bounds of e^(n/d): terms of the series at n/(d·2^k) and a bound of the rest, squared k times. -/
def Enclosure.expOf (n d : ℕ) : Enclosure :=
  forceNat (16 + (n / d + 1).log2) fun k =>
    forceNat (d * 2 ^ k) fun b =>
      Enclosure.make (Frac.squareTimes Frac.down k (Frac.horner n b 15 ⟨1, 1⟩).down)
        (Frac.squareTimes Frac.up k (Frac.horner n b 15 ⟨16, 15⟩).up)

/-- Bounds of the exponential of an LLR item; of the item 0, exactly 1. -/
def Enclosure.ofItem (q : Rat) : Enclosure :=
  match q.num with
  | .ofNat 0 => ⟨⟨1, 1⟩, ⟨1, 1⟩⟩
  | .ofNat n => Enclosure.expOf n q.den
  | .negSucc n => (Enclosure.expOf (n + 1) q.den).inv

def Enclosure.add (a b : Enclosure) : Enclosure := Enclosure.make (a.lo.mul b.lo) (a.hi.mul b.hi)

/-- The check-node function of two inputs is monotone in each, so its bounds are among the four corners. -/
def Enclosure.box (a b : Enclosure) : Enclosure :=
  (a.lo.box b.lo).force fun c1 => (a.lo.box b.hi).force fun c2 =>
    (a.hi.box b.lo).force fun c3 => (a.hi.box b.hi).force fun c4 =>
      Enclosure.make ((c1.min c2).min (c3.min c4)) ((c1.max c2).max (c3.max c4))

/-- An operation on two bounds, where both are known. -/
def Enclosure.both (f : Enclosure → Enclosure → Enclosure) : Option Enclosure → Option Enclosure → Option Enclosure
  | some a, some b => some (f a b)
  | some _, none => none
  | none, _ => none

/-- The bounds of the exponential of a message; none where a named item occurs in it. -/
def Msg.bounds : Msg → Option Enclosure
  | .item (.rat q) => some (Enclosure.ofItem q)
  | .item (.named _) => none
  | .add a b => Enclosure.both Enclosure.add a.bounds b.bounds
  | .box a b => Enclosure.both Enclosure.box a.bounds b.bounds

/-- What the bounds show of `> 0` (of the exponential, `> 1`). -/
def Enclosure.sign (e : Enclosure) : Option Bool :=
  if e.lo.d < e.lo.n then some true else if e.hi.n ≤ e.hi.d then some false else none

end Sys2Proof.Machine
end

