-- ==== Sys2Proof/Machine/Numerics.lean ====
section
/-! DEFINITION. The values that messages have in an instance: exact messages, or the values of another format; the numerics
record of each format (R190); and the contract that a format meets. -/

namespace Sys2Proof.Machine

/-! ### The reference instance: exact reals -/

/-- A value of the reference format: an exact message, with the bounds of its exponential kept beside it.
The bounds are those of the message and no state of their own. -/
structure Value where
  msg : Msg
  bounds : Option Enclosure
  bounds_eq : bounds = msg.bounds
  deriving DecidableEq, Repr

/-- The real number that a value is. -/
noncomputable def Value.toReal (v : Value) : ℝ := v.msg.toReal

/-- R81: an LLR item as it stands. -/
def Value.ofItem (x : RealNum) : Value := ⟨.item x, (Msg.item x).bounds, rfl⟩

/-- The sum of R177 and R182. -/
def Value.add (a b : Value) : Value :=
  ⟨.add a.msg b.msg, Enclosure.both Enclosure.add a.bounds b.bounds, by rw [a.bounds_eq, b.bounds_eq]; rfl⟩

/-- R175 on two inputs. -/
def Value.box (a b : Value) : Value :=
  ⟨.box a.msg b.msg, Enclosure.both Enclosure.box a.bounds b.bounds, by rw [a.bounds_eq, b.bounds_eq]; rfl⟩

/-- R175 on a non-empty list: the product of `tanh(-x/2)` over the list is built up one factor at a time.
R189 (f): the decoder never applies it to the empty list. -/
def Value.cn : List Value → Value
  | [] => Value.ofItem (.rat 0)
  | x :: xs => xs.foldl Value.box x

/-- R177: `> 0`. Over rational items the kept bounds decide it where they show a sign, else the exact comparison does; over
named items it is that of the named real numbers. -/
def Value.isPositive (v : Value) : Bool :=
  match v.bounds with
  | some e => e.sign.getD v.msg.isPositive
  | none => Config.namedReals.positive v.msg

/-! ### The value type of every instance -/

/-- An LLR or message as an instance holds it: an exact message, or a value of another format by its number. -/
inductive HeldNum where
  | exact (v : Value)
  | code (c : Nat)
  deriving DecidableEq, Repr

/-- As the exact format reads it. The exact format makes no other values, so the second case never arises. -/
def HeldNum.asValue : HeldNum → Value
  | .exact v => v
  | .code _ => Value.ofItem (.rat 0)

/-- As another format reads it. Such a format makes no exact values, so the first case never arises. -/
def HeldNum.asCode : HeldNum → Nat
  | .exact _ => 0
  | .code c => c

end Sys2Proof.Machine

namespace Sys2Proof

open Machine

/-! ### The numerics record of each format -/

/-- The reference instance of R190: exact reals. -/
def Numerics.exact : Numerics Value where
  item := Value.ofItem
  add := Value.add
  cn := Value.cn
  isPositive := Value.isPositive

/-- A record over V as one over the value type of every instance. -/
def Numerics.onNum {V : Type} (N : Numerics V) (make : V → HeldNum) (view : HeldNum → V) : Numerics HeldNum where
  item x := make (N.item x)
  add a b := make (N.add (view a) (view b))
  cn xs := make (N.cn (xs.map view))
  isPositive v := N.isPositive (view v)

/-- R190: the numerics record of a format. -/
def NumFormat.numerics : NumFormat → Numerics HeldNum
  | .exact => Numerics.exact.onNum .exact HeldNum.asValue
  | .other k => (Config.numOther k).onNum .code HeldNum.asCode

/-- The real number that a value of a format is. -/
noncomputable def NumFormat.value : NumFormat → HeldNum → ℝ
  | .exact, v => v.asValue.toReal
  | .other k, v => Config.numValue k v.asCode

/-! ### The contract -/

/-- The real number x is y, or within `tol` of it, or saturated with the sign of y at a bound that |y| exceeds
(R190 (a), (b)). -/
def closeOrSaturated (tol : ℝ) (bound : ℝ → Prop) (x y : ℝ) : Prop :=
  |x - y| ≤ tol ∨ ∃ m, bound m ∧ m < |y| ∧ x = if 0 < y then m else -m

/-- R190: the contract of a format whose values stand for the real numbers `val`. (a) the check-node function is within
`tol` of the exact one on the format's own inputs, or saturated at `msgMax`; (b) a sum of an LLR and two or three messages (R182, R177)
is within `tol` of the exact sum, or saturated at the format's largest magnitude; (c) the comparison is exact on the value
held. -/
structure Numerics.Meets {V : Type} (N : Numerics V) (val : V → ℝ) (tol : ℝ) (msgMax : ℝ → Prop) : Prop where
  cn_close : ∀ xs : List V, xs ≠ [] → closeOrSaturated tol msgMax (val (N.cn xs)) (cnReal (xs.map val))
  sum_close : ∀ (l : V) (ms : List V), ms.length = 2 ∨ ms.length = 3 →
    closeOrSaturated tol (IsGreatest (Set.range fun v => |val v|)) (val (ms.foldl N.add l)) (val l + (ms.map val).sum)
  positive_exact : ∀ v : V, N.isPositive v = true ↔ 0 < val v

end Sys2Proof
end

