-- ==== Sys2Proof/Machine/State.lean ====
section
/-! DEFINITION. The state of one instance of CORE (R20), its reset value (R38), and the reasons a step can stop.
It is plain data. Beside what R20 lists it holds the command in execution, and the two sides of the interface: what the
host and the environment will do next, and the responses given. -/

namespace Sys2Proof.Machine

/-- The derived tables (R21): written by a successful `INIT` and by nothing else. -/
structure Derived where
  /-- R121: `GRAY_INV` -/
  grayInv : Vector Sym 8
  /-- R151: `DEG` -/
  deg : Vector Nat 83
  /-- R152: `MN` -/
  mn : Vector (Vector (Fin 83) 3) 174
  /-- R153: `SLOT_B` -/
  slotB : Vector (Vector Nat 3) 174
  /-- R153: `SLOT_C` -/
  slotC : Vector (List (Fin 3)) 83
  deriving DecidableEq, Repr

/-- DecoderState (R27): the working set of one decode attempt. Its contents between two decodes are unspecified (R34, U12);
DESIGN CHOICE (log 16): the model keeps what the last decode left. -/
structure Decoder where
  /-- R30: `LLR0` -/
  llr0 : Vector HeldNum 174
  /-- R28: `B2C`, indexed by bit node and slot -/
  b2c : Vector (Vector HeldNum 3) 174
  /-- R29: `C2B`, indexed by check node and slot -/
  c2b : Vector (List HeldNum) 83
  /-- R31: `ITER` -/
  iter : Nat
  /-- R32: `HIST`, oldest first -/
  hist : List Nat
  /-- R33: `HARD` -/
  hard : Vector Bool 174
  /-- R33: `NUNSAT` -/
  nunsat : Nat
  deriving DecidableEq, Repr

/-- The status of a response (R77); no other code is ever produced. -/
inductive Status where
  | ok
  | invalidLength
  | nonConvergent
  | maxIterationsExceeded
  | aborted
  | notInitialised
  | invalidOp
  | graphInvalid
  | invalidIndex
  deriving DecidableEq, Repr

/-- A response (R76); `Response.word` of Machine/Flags.lean is its response word. -/
structure Response where
  status : Status
  aux : Imm
  payload : Payload
  deriving DecidableEq, Repr

/-- What the host and the environment do (R283). -/
inductive HostEvent where
  /-- the host presents a command once `BUSY` = 0 (R70, R282) -/
  | command (word : Word) (payload : Payload)
  /-- the host raises the abort request (R223) -/
  | abort
  /-- the host does nothing while CORE takes one step -/
  | coreTurn
  /-- the environment's reset (R270) -/
  | reset
  deriving DecidableEq, Repr

/-- The state of one instance. -/
structure State where
  /-- `GEN`, `NM`, `STAG`, `HAS_ABORT`, `NUM`, `TOL`, `MSG_MAX` (R8): constant, no step writes them -/
  params : Params
  /-- `GRAY_INV`, `DEG`, `MN`, `SLOT_B`, `SLOT_C` (R21) -/
  derived : Derived
  /-- R23: `INIT_DONE` -/
  initDone : Bool
  /-- R22: `BUSY` -/
  busy : Bool
  /-- R36: `ABORT_PENDING` -/
  abortPending : Bool
  /-- R70: the word of the command in execution -/
  cmdWord : Word
  /-- R26: `OPERAND`. It has no meaning after the response; DESIGN CHOICE (log 16): the model keeps the last payload. -/
  operand : Payload
  /-- R22: whether the `BP.DEC` in execution has begun its iterations; with `ITER`, its position in the algorithm -/
  decoding : Bool
  /-- R27: DecoderState -/
  dec : Decoder
  /-- R282, R283: what the host and the environment will do, next first (the model's own field) -/
  inputs : List HostEvent
  /-- R70: the responses CORE has given, latest first (the model's own field) -/
  responses : List Response
  deriving DecidableEq, Repr

/-- DESIGN CHOICE (log 5): R38 leaves the derived tables unspecified until `INIT` succeeds, and nothing reads them. -/
def Derived.reset : Derived :=
  { grayInv := Vector.replicate 8 0
    deg := Vector.replicate 83 0
    mn := Vector.replicate 174 (Vector.replicate 3 0)
    slotB := Vector.replicate 174 (Vector.replicate 3 0)
    slotC := Vector.replicate 83 [] }

/-- DESIGN CHOICE (log 5): R38 leaves DecoderState unspecified, and `BP.DEC` writes it before it reads it. -/
def Decoder.reset : Decoder :=
  { llr0 := Vector.replicate 174 (.exact (Value.ofItem (.rat 0)))
    b2c := Vector.replicate 174 (Vector.replicate 3 (.exact (Value.ofItem (.rat 0))))
    c2b := Vector.replicate 83 []
    iter := 0
    hist := []
    hard := Vector.replicate 174 false
    nunsat := 0 }

/-- R38, R270: the machine right after reset, idle, with no event to come and no response given. -/
def State.reset : State :=
  { params := Config.params
    derived := Derived.reset
    initDone := false
    busy := false
    abortPending := false
    cmdWord := 0
    operand := []
    decoding := false
    dec := Decoder.reset
    inputs := []
    responses := [] }

/-- What stops the machine. CORE itself never stops: its faults are responses (R240). -/
inductive Fault where
  /-- Raised by an operation that reads its payload when the payload holds an item of another type than its opcode fixes.
  Safe: the interface cannot carry such an item (R72), so no host can make this happen. -/
  | foreignItem
  deriving DecidableEq, Repr

/-- Why the model gives no next state. -/
inductive Refusal where
  /-- Raised by exec for an instruction without a meaning. Safe. -/
  | notModelled (mnemonic : String)
  /-- Raised by `BP.DEC` when an `LLR` item is not a finite number: R192 gives such a command no meaning and has a model
  refuse it. Safe: the model stops where a device may go on. -/
  | nonFiniteLlr
  deriving DecidableEq, Repr

end Sys2Proof.Machine
end

