-- ==== Sys2Proof/Machine/Flags.lean ====
section
/-! DEFINITION. CORE has no condition codes and no flag that one operation writes and a later one reads (R24). The outcome
of an operation is carried by its response; here is the response word (R76, R77). -/

namespace Sys2Proof.Machine

/-- R77: the code of a status. -/
def Status.code : Status → BitVec 8
  | .ok => 0x00
  | .invalidLength => 0x01
  | .nonConvergent => 0x02
  | .maxIterationsExceeded => 0x03
  | .aborted => 0x04
  | .notInitialised => 0x05
  | .invalidOp => 0x06
  | .graphInvalid => 0x07
  | .invalidIndex => 0x08

/-- R76: the response word: `status` in bits 7:0, zeros in 15:8, `aux` in 31:16. -/
def Response.word (r : Response) : Word := r.aux ++ 0#8 ++ r.status.code

end Sys2Proof.Machine
end

