-- ==== Sys2Proof/Machine/Ops.lean ====
section
/-! DEFINITION. The named operations on the state: giving a response, raising a fault, the checks that come before an
operation (R250), the events of the host and the environment (R283), and the table reads (R52). -/

namespace Sys2Proof.Machine

/-- The outcome of a step of this machine. -/
abbrev Outcome := Host.Outcome State Fault Refusal

/-! ### Responses and faults -/

/-- R76 `respond(status, aux, payload)`: ends the command in execution with one response. `BUSY` returns to 0 and
`ABORT_PENDING` is cleared (R36, R70, R223).
DESIGN CHOICE (log 16): after the response DecoderState keeps what the last decode left in it, and `OPERAND` keeps the
payload of the command answered. R34 and U12 leave the one unspecified between two decodes, and R26 gives the other no
meaning after the response; no operation reads either before it is written. -/
def State.respond (s : State) (status : Status) (aux : Imm) (payload : Payload) : State :=
  { s with
    busy := false
    abortPending := false
    decoding := false
    responses := ⟨status, aux, payload⟩ :: s.responses }

/-- R240 `raise F`, and every other response whose status is not `OK`: `aux` = 0 and an empty payload (R76). This is all
the exception entry that CORE has; there is no return from it (R251, R252). -/
def State.raise (s : State) (status : Status) : State := s.respond status 0 []

/-! ### The checks of R250, in their order -/

/-- R222, check 2: a command other than `INIT` needs `INIT_DONE` = 1. -/
def State.whenInitialised (s : State) (k : Outcome) : Outcome :=
  if s.initDone = true then k else .next (s.raise .notInitialised)

/-- R241, check 3: the payload has the number of items that the operation needs. -/
def State.whenLength (s : State) (ok : Bool) (k : Outcome) : Outcome :=
  if ok = true then k else .next (s.raise .invalidLength)

/-- R245, check 4: the immediate of a graph read is in range. -/
def State.whenIndex (s : State) (ok : Bool) (k : Outcome) : Outcome :=
  if ok = true then k else .next (s.raise .invalidIndex)

/-! ### Events from outside -/

/-- R70: CORE accepts a command; `BUSY` becomes 1 and `OPERAND` is written (R22, R26). -/
def State.accept (s : State) (word : Word) (payload : Payload) : State :=
  { s with busy := true, cmdWord := word, operand := payload, decoding := false }

/-- R223: the host raises the abort request; it is recorded only while `BUSY` = 1, and only where the input exists. -/
def State.raiseAbort (s : State) : State :=
  { s with abortPending := s.abortPending || (s.params.hasAbort && s.busy) }

/-- R270: reset. A command in execution is cut and gets no response; the constants stand; the responses already given
stay given, and what the host will do next still comes. -/
def State.resetEvent (s : State) : State :=
  { State.reset with params := s.params, inputs := s.inputs, responses := s.responses }

/-! ### Table reads (R52) -/

/-- `GEN[i][j]`. -/
def genAt (gen : Vector (BitVec 91) 83) (i : Fin 83) (j : Nat) : Bool := gen[i].getMsbD j

/-- `NM[c][t]`; out of range 0, which no rule reads (R52; 93_implementation_defined.md U15). -/
def nmAt (nm : Vector (List Nat) 83) (c : Fin 83) (t : Nat) : Nat := nm[c].getD t 0

/-- A bit node by its index; the indices of a built graph are all below 174 (R155), so the remainder changes none. -/
def bitNode (n : Nat) : Fin 174 := Fin.ofNat 174 n

/-- `SLOT_C[c][t]`. -/
def slotCAt (d : Derived) (c : Fin 83) (t : Nat) : Fin 3 := (d.slotC[c]).getD t 0

/-- `SLOT_B[n][s]`. -/
def slotBAt (d : Derived) (n : Fin 174) (s : Fin 3) : Nat := d.slotB[n][s]

/-- `MN[n][s]`. -/
def mnAt (d : Derived) (n : Fin 174) (s : Fin 3) : Fin 83 := d.mn[n][s]

/-- `GRAY_INV[t]`. -/
def grayInvAt (d : Derived) (t : Sym) : Sym := d.grayInv[t.toFin]

/-- `GRAY_T[s]`. -/
def grayAt (s : Sym) : Sym := Config.grayT[s.toFin]

end Sys2Proof.Machine
end

