-- ==== Sys2Proof/Machine/Operands.lean ====
section
/-! DEFINITION. Operands (R26, R72, R79 to R81): reading the payload of the command in execution as a list of one item
type, writing results as items, and putting bits together. -/

namespace Sys2Proof.Machine

/-- `b[lo,hi)` (R9). -/
def slice {α : Type} (lo hi : Nat) (b : List α) : List α := (b.drop lo).take (hi - lo)

/-- The bits of a payload of `BIT` items; none where an item is of another type. -/
def bitsOf : Payload → Option (List Bool)
  | [] => some []
  | .bit b :: p => (bitsOf p).map (b :: ·)
  | .sym _ :: _ | .idx _ :: _ | .llr _ :: _ => none

/-- The symbols of a payload of `SYM` items. -/
def symsOf : Payload → Option (List Sym)
  | [] => some []
  | .sym v :: p => (symsOf p).map (v :: ·)
  | .bit _ :: _ | .idx _ :: _ | .llr _ :: _ => none

/-- What a payload of `LLR` items reads as. -/
inductive LlrRead where
  | values (xs : List RealNum)
  | nonFinite
  | foreign
  deriving DecidableEq, Repr

/-- Put one finite LLR before the rest. -/
def LlrRead.cons (x : RealNum) : LlrRead → LlrRead
  | .values xs => .values (x :: xs)
  | .nonFinite => .nonFinite
  | .foreign => .foreign

/-- The LLRs of a payload of `LLR` items, each taken as it stands (R81); the first item that is not a finite LLR decides. -/
def llrsOf : Payload → LlrRead
  | [] => .values []
  | .llr (.finite x) :: p => (llrsOf p).cons x
  | .llr (.nonFinite _) :: _ => .nonFinite
  | .bit _ :: _ | .sym _ :: _ | .idx _ :: _ => .foreign

/-- The operation on the bits of `OPERAND`. -/
def State.withBits (s : State) (k : List Bool → State) : Outcome :=
  match bitsOf s.operand with
  | some bs => .next (k bs)
  | none => .fault .foreignItem

/-- The operation on the symbols of `OPERAND`. -/
def State.withSyms (s : State) (k : List Sym → State) : Outcome :=
  match symsOf s.operand with
  | some vs => .next (k vs)
  | none => .fault .foreignItem

/-- The operation on the LLRs of `OPERAND`; R192 gives no meaning to one that is not finite. -/
def State.withLlrs (s : State) (k : List RealNum → State) : Outcome :=
  match llrsOf s.operand with
  | .values xs => .next (k xs)
  | .nonFinite => .refused .nonFiniteLlr
  | .foreign => .fault .foreignItem

/-- Bits as `BIT` items. -/
def bitItems (bs : List Bool) : Payload := bs.map Item.bit
/-- Symbols or tones as `SYM` items. -/
def symItems (vs : List Sym) : Payload := vs.map Item.sym
/-- Node indices as `IDX` items. -/
def idxItems (ns : List Nat) : Payload := ns.map fun n => Item.idx (BitVec.ofNat 8 n)

/-- R79: three bits, most significant first, as a symbol: `4a + 2b + c`. -/
def symOfBits (a b c : Bool) : Sym := BitVec.ofBool a ++ BitVec.ofBool b ++ BitVec.ofBool c

/-- R79: the three bits of a symbol, most significant first. -/
def bitsOfSym (v : Sym) : List Bool := [v.getLsbD 2, v.getLsbD 1, v.getLsbD 0]

/-- R79: the symbols of consecutive triples of bits. -/
def symsOfBits : List Bool → List Sym
  | a :: b :: c :: bs => symOfBits a b c :: symsOfBits bs
  | [] | [_] | [_, _] => []

/-- R80: a 14-bit CRC value as bits, item i its bit `13 - i`. -/
def crcBits (r : BitVec 14) : List Bool := (List.range 14).map fun i => r.getLsbD (13 - i)

end Sys2Proof.Machine
end

