-- ==== Sys2Proof/Machine/Crc14.lean ====
section
/-! DEFINITION. The CRC-14 component (R100 to R103). -/

namespace Sys2Proof.Machine

/-- R101: one step of the division: the next buffer bit is shifted in, and the polynomial is taken away when the x^14
coefficient is 1. -/
def crcStep (reg : BitVec 15) (bit : Bool) : BitVec 15 :=
  let shifted := (reg <<< 1) ||| (BitVec.ofBool bit).setWidth 15
  if shifted.getLsbD 14 = true then shifted ^^^ Config.poly else shifted

/-- R101: the division of the message with 19 trailing zero bits. -/
def crc14 (m : List Bool) : BitVec 14 :=
  ((m ++ List.replicate 19 false).foldl crcStep 0).setWidth 14

/-- R103 `crcVerify(blk)`: bits [77,91) are the CRC of bits [0,77). -/
def crcVerify (blk : List Bool) : Bool := slice 77 91 blk == crcBits (crc14 (slice 0 77 blk))

/-- R102 `CRC14.ENC`. -/
def execCrc14Enc (s : State) : Outcome :=
  s.whenInitialised <| s.whenLength (s.operand.length == 77) <| s.withBits fun m =>
    s.respond .ok 0 (bitItems (crcBits (crc14 m)))

/-- R103 `CRC14.VFY`. -/
def execCrc14Vfy (s : State) : Outcome :=
  s.whenInitialised <| s.whenLength (s.operand.length == 91) <| s.withBits fun blk =>
    s.respond .ok 0 (bitItems [crcVerify blk])

end Sys2Proof.Machine
end

