-- ==== Sys2Proof/Machine/Ldpc.lean ====
section
/-! DEFINITION. The LDPC Encoder and the parity equations (R140 to R143). -/

namespace Sys2Proof.Machine

/-- `XOR over S of f` (R10), 0 when there is nothing. -/
def xorAll (bs : List Bool) : Bool := bs.foldl Bool.xor false

/-- R141: parity bit i, the exclusive or of the information bits whose entry in row i of `GEN` is 1. -/
def parityBit (gen : Vector (BitVec 91) 83) (info : List Bool) (i : Fin 83) : Bool :=
  xorAll ((List.range 91).map fun j => genAt gen i j && info.getD j false)

/-- R141 `ldpcEncode(info)`: the 91 bits unchanged, then the 83 parity bits, row 0 first. -/
def ldpcEncode (gen : Vector (BitVec 91) 83) (info : List Bool) : List Bool :=
  info ++ (List.finRange 83).map (parityBit gen info)

/-- R143: whether check node c is unsatisfied: `XOR over t in 0..DEG[c]-1 of w[NM[c][t]]` is 1. -/
def unsatisfied (nm : Vector (List Nat) 83) (deg : Vector Nat 83) (w : List Bool) (c : Fin 83) : Bool :=
  xorAll ((List.range deg[c]).map fun t => w.getD (nmAt nm c t) false)

/-- R143 `parityCount(w)`: how many of the 83 parity equations are unsatisfied. -/
def parityCount (nm : Vector (List Nat) 83) (deg : Vector Nat 83) (w : List Bool) : Nat :=
  (List.finRange 83).countP (unsatisfied nm deg w)

/-- R142 `LDPC.ENC`. -/
def execLdpcEnc (s : State) : Outcome :=
  s.whenInitialised <| s.whenLength (s.operand.length == 91) <| s.withBits fun info =>
    s.respond .ok 0 (bitItems (ldpcEncode s.params.gen info))

/-- R143 `LDPC.SYN`. -/
def execLdpcSyn (s : State) : Outcome :=
  s.whenInitialised <| s.whenLength (s.operand.length == 174) <| s.withBits fun w =>
    s.respond .ok (BitVec.ofNat 16 (parityCount s.params.nm s.derived.deg w)) []

end Sys2Proof.Machine
end

