-- ==== Sys2Proof/Machine/BpDecoder.lean ====
section
/-! DEFINITION. The belief-propagation decoder (R170 to R187), over any numerics record (R190); the machine runs that of the
instance's format `NUM`. One step of the machine is one iteration, so that an abort request can fall between
two of them (R22, R283). -/

namespace Sys2Proof.Machine

/-! ### The steps of an iteration, over a numerics record -/

/-- R173: every bit-to-check message is the input LLR of its bit node. -/
def initialB2C {V : Type} (llr0 : Vector V 174) : Vector (Vector V 3) 174 :=
  llr0.map fun l => Vector.replicate 3 l

/-- R176: the messages that come in to check node c, in the order of its slots. -/
def checkInputs {V : Type} (nm : Vector (List Nat) 83) (d : Derived) (b2c : Vector (Vector V 3) 174) (c : Fin 83) :
    List V :=
  (List.range d.deg[c]).map fun u => (b2c[bitNode (nmAt nm c u)])[slotCAt d c u]

/-- R176: the messages that check node c sends, each from the inputs of its other slots. -/
def checkOutputs {V : Type} (N : Numerics V) (ins : List V) : List V :=
  (List.range ins.length).map fun t => N.cn (ins.eraseIdx t)

/-- R176, step 1, check-node update. -/
def checkUpdate {V : Type} (N : Numerics V) (nm : Vector (List Nat) 83) (d : Derived) (b2c : Vector (Vector V 3) 174) :
    Vector (List V) 83 :=
  Vector.ofFn fun c => checkOutputs N (checkInputs nm d b2c c)

/-- `C2B[MN[n][s]][SLOT_B[n][s]]`: the message to bit node n on its slot s (R153). -/
def bitInput {V : Type} (N : Numerics V) (d : Derived) (c2b : Vector (List V) 83) (n : Fin 174) (s : Fin 3) : V :=
  (c2b[mnAt d n s]).getD (slotBAt d n s) (N.item (.rat 0))

/-- R177: the corrected LLR of bit node n. -/
def correctedLlr {V : Type} (N : Numerics V) (d : Derived) (llr0 : Vector V 174) (c2b : Vector (List V) 83)
    (n : Fin 174) : V :=
  N.add (N.add (N.add llr0[n] (bitInput N d c2b n 0)) (bitInput N d c2b n 1)) (bitInput N d c2b n 2)

/-- R177, step 2, hard decision: 1 where the corrected LLR is greater than 0. -/
def hardDecision {V : Type} (N : Numerics V) (d : Derived) (llr0 : Vector V 174) (c2b : Vector (List V) 83) :
    Vector Bool 174 :=
  Vector.ofFn fun n => N.isPositive (correctedLlr N d llr0 c2b n)

/-- R182, step 5, bit-node update: to each check, the input LLR and the messages of the two other checks. -/
def bitUpdate {V : Type} (N : Numerics V) (d : Derived) (llr0 : Vector V 174) (c2b : Vector (List V) 83) :
    Vector (Vector V 3) 174 :=
  Vector.ofFn fun n =>
    #v[N.add (N.add llr0[n] (bitInput N d c2b n 1)) (bitInput N d c2b n 2),
      N.add (N.add llr0[n] (bitInput N d c2b n 0)) (bitInput N d c2b n 2),
      N.add (N.add llr0[n] (bitInput N d c2b n 0)) (bitInput N d c2b n 1)]

/-! ### The stagnation policy -/

/-- Whether the last w steps of a history each relate as `rel before after`; it needs w + 1 counts (R184). -/
def lastSteps (rel : Nat → Nat → Bool) (w : Nat) (h : List Nat) : Bool :=
  w + 1 ≤ h.length && (List.range w).all fun k =>
    rel (h.getD (h.length - w + k - 1) 0) (h.getD (h.length - w + k) 0)

/-- R184 `STAG(h)`. -/
def StagPolicy.eval : StagPolicy → List Nat → Bool
  | .never, _ => false
  | .window w, h => lastSteps (fun before after => before ≤ after) w h
  | .windowIncreasing w, h => lastSteps (fun before after => before < after) w h
  | .other k, h => Config.stagOther k h

/-! ### The operation on the state -/

/-- The numerics record that the instance runs (R8, R190). -/
def State.numerics (s : State) : Numerics HeldNum := s.params.num.numerics

/-- R173: initialisation. `C2B`, `HARD` and `NUNSAT` are not written. -/
def State.initialise (s : State) (llr : List RealNum) : State :=
  let llr0 := Vector.ofFn fun n : Fin 174 => s.numerics.item (llr.getD n (.rat 0))
  { s with
    decoding := true
    dec := { s.dec with llr0 := llr0, b2c := initialB2C llr0, iter := 0, hist := [] } }

/-- R174, R176: the iteration counter is increased and step 1 is done. -/
def State.checkStep (s : State) : State :=
  { s with dec := { s.dec with
      iter := s.dec.iter + 1
      c2b := checkUpdate s.numerics s.params.nm s.derived s.dec.b2c } }

/-- R177: step 2. -/
def State.hardStep (s : State) : State :=
  { s with dec := { s.dec with hard := hardDecision s.numerics s.derived s.dec.llr0 s.dec.c2b } }

/-- R178: the count of step 3, and its place in the history. -/
def State.parityStep (s : State) : State :=
  let count := parityCount s.params.nm s.derived.deg s.dec.hard.toList
  { s with dec := { s.dec with nunsat := count, hist := s.dec.hist ++ [count] } }

/-- R182: step 5. -/
def State.bitStep (s : State) : State :=
  { s with dec := { s.dec with b2c := bitUpdate s.numerics s.derived s.dec.llr0 s.dec.c2b } }

/-- R179: the trial codeword satisfies every parity equation and its block verifies. The CRC is looked at only when the
count is 0. -/
def State.accepted (s : State) : Bool :=
  s.dec.nunsat == 0 && crcVerify (slice 0 91 s.dec.hard.toList)

/-- R183, R187: step 6 and the boundary after it. Where none of the two ends the decode, `BUSY` stays 1 and the next step
of the machine is the next iteration. -/
def State.endIteration (s : State) (maxIterations : Imm) : State :=
  if maxIterations.toNat ≤ s.dec.iter then s.raise .maxIterationsExceeded
  else if (s.params.hasAbort && s.abortPending) = true then s.raise .aborted
  else s

/-- R179 to R183, R187: what follows the count of step 3. -/
def State.afterParity (s : State) (maxIterations : Imm) : State :=
  if s.accepted = true then s.respond .ok (BitVec.ofNat 16 s.dec.iter) (bitItems s.dec.hard.toList)
  else if StagPolicy.eval s.params.stag s.dec.hist = true then s.raise .nonConvergent
  else s.bitStep.endIteration maxIterations

/-- R174, R185: one iteration. -/
def State.iteration (s : State) (maxIterations : Imm) : State :=
  s.checkStep.hardStep.parityStep.afterParity maxIterations

/-- R185, R186: the first step of a decode: initialisation and, unless the bound is 0, the first iteration. -/
def State.startDecode (s : State) (maxIterations : Imm) (llr : List RealNum) : State :=
  if maxIterations = 0 then (s.initialise llr).raise .maxIterationsExceeded
  else (s.initialise llr).iteration maxIterations

/-- R170, R185 `BP.DEC`. While a decode is in execution, each step runs one more iteration of it. -/
def execBpDec (maxIterations : Imm) (s : State) : Outcome :=
  if s.decoding = true then .next (s.iteration maxIterations)
  else
    s.whenInitialised <| s.whenLength (s.operand.length == 174) <| s.withLlrs fun llr => s.startDecode maxIterations llr

end Sys2Proof.Machine
end

