-- ==== Sys2Proof/Machine/FactorGraph.lean ====
section
/-! DEFINITION. The reads of the factor graph (R156, R157). -/

namespace Sys2Proof.Machine

/-- `[NM[c][0], ..., NM[c][DEG[c]-1]]`. -/
def checkNeighbours (nm : Vector (List Nat) 83) (d : Derived) (c : Fin 83) : List Nat :=
  (List.range d.deg[c]).map (nmAt nm c)

/-- `[MN[n][0], MN[n][1], MN[n][2]]`. -/
def bitNeighbours (d : Derived) (n : Fin 174) : List Nat := (d.mn[n]).toList.map Fin.val

/-- R156 `FG.NM #c`. -/
def execFgNm (c : Imm) (s : State) : Outcome :=
  s.whenInitialised <| s.whenLength (s.operand.length == 0) <| s.whenIndex (c.toNat ≤ 82) <| .next <|
    s.respond .ok 0 (idxItems (checkNeighbours s.params.nm s.derived (Fin.ofNat 83 c.toNat)))

/-- R157 `FG.MN #n`. -/
def execFgMn (n : Imm) (s : State) : Outcome :=
  s.whenInitialised <| s.whenLength (s.operand.length == 0) <| s.whenIndex (n.toNat ≤ 173) <| .next <|
    s.respond .ok 0 (idxItems (bitNeighbours s.derived (bitNode n.toNat)))

end Sys2Proof.Machine
end

