-- ==== Sys2Proof/Machine/Gray.lean ====
section
/-! DEFINITION. The Gray Mapper component (R120 to R125). -/

namespace Sys2Proof.Machine

/-- R122 `GRAY.ENC`. -/
def execGrayEnc (s : State) : Outcome :=
  s.whenInitialised <| s.whenLength (s.operand.length == 1) <| s.withSyms fun vs =>
    s.respond .ok 0 (symItems (vs.map grayAt))

/-- R123 `GRAY.DEC`. -/
def execGrayDec (s : State) : Outcome :=
  s.whenInitialised <| s.whenLength (s.operand.length == 1) <| s.withSyms fun ts =>
    s.respond .ok 0 (symItems (ts.map (grayInvAt s.derived)))

/-- R124 `GRAY.MAP`: each triple of bits, most significant first, through the Gray table. -/
def execGrayMap (s : State) : Outcome :=
  s.whenInitialised <| s.whenLength (s.operand.length % 3 == 0) <| s.withBits fun p =>
    s.respond .ok 0 (symItems ((symsOfBits p).map grayAt))

/-- R125 `GRAY.UNMAP`: each tone through the inverse table, to three bits. Every length is accepted. -/
def execGrayUnmap (s : State) : Outcome :=
  s.whenInitialised <| s.withSyms fun q =>
    s.respond .ok 0 (bitItems ((q.map (grayInvAt s.derived)).flatMap bitsOfSym))

end Sys2Proof.Machine
end

