-- ==== Sys2Proof/Machine/System.lean ====
section
/-! DEFINITION. Initialisation: the derived tables (R121, R151 to R153), the build check (R155) and `INIT` (R220). -/

namespace Sys2Proof.Machine

/-- R121: `GRAY_INV[GRAY_T[s]] <- s` for s in 0..7. -/
def buildGrayInv : Vector Sym 8 :=
  (List.finRange 8).foldl (fun v s => v.set (Config.grayT[s]).toNat (BitVec.ofFin s) (Config.grayT[s]).isLt)
    (Vector.replicate 8 0)

/-- R151: `DEG[c]`. -/
def buildDeg (nm : Vector (List Nat) 83) : Vector Nat 83 := nm.map List.length

/-- R152: the check nodes of bit node n, in the order in which a scan of the lists meets n. -/
def checksOf (nm : Vector (List Nat) 83) (n : Fin 174) : List (Fin 83) :=
  (List.finRange 83).filter fun c => nm[c].contains n.val

/-- R152: `MN`. -/
def buildMn (nm : Vector (List Nat) 83) : Vector (Vector (Fin 83) 3) 174 :=
  Vector.ofFn fun n => Vector.ofFn fun s : Fin 3 => (checksOf nm n).getD s 0

/-- R153: `SLOT_B[n][s]`, the t with `NM[MN[n][s]][t] = n`. -/
def buildSlotB (nm : Vector (List Nat) 83) : Vector (Vector Nat 3) 174 :=
  Vector.ofFn fun n => Vector.ofFn fun s : Fin 3 => (nm[(checksOf nm n).getD s 0]).idxOf n.val

/-- R153: `SLOT_C[c][t]`, the s with `MN[NM[c][t]][s] = c`. -/
def buildSlotC (nm : Vector (List Nat) 83) : Vector (List (Fin 3)) 83 :=
  Vector.ofFn fun c => nm[c].map fun n => Fin.ofNat 3 ((checksOf nm (bitNode n)).idxOf c)

/-- The derived tables as `INIT` writes them. -/
def buildDerived (nm : Vector (List Nat) 83) : Derived :=
  { grayInv := buildGrayInv
    deg := buildDeg nm
    mn := buildMn nm
    slotB := buildSlotB nm
    slotC := buildSlotC nm }

/-- R155, R158 (a) to (c): one list has 6 or 7 entries, each at most 173, no two equal. -/
def checkListOk (l : List Nat) : Bool :=
  (l.length == 6 || l.length == 7) && l.all (fun n => n ≤ 173) && decide l.Nodup

/-- R154: the edge count. -/
def edgeCount (nm : Vector (List Nat) 83) : Nat := (nm.toList.map List.length).sum

/-- R155 `buildGraph()` = ok: clauses (a) to (d) of `TablesWF` and the source's edge count. -/
def graphOk (nm : Vector (List Nat) 83) : Bool :=
  nm.toList.all checkListOk && (List.finRange 174).all (fun n => (checksOf nm n).length == 3) && edgeCount nm == 522

/-- R220 `INIT`. It is the one operation that does not need `INIT_DONE` = 1. A failed build leaves the tables and
`INIT_DONE` as they were (R240, R244). -/
def execInit (s : State) : Outcome :=
  s.whenLength (s.operand.length == 0) <| .next <|
    if graphOk s.params.nm = true then
      { s with derived := buildDerived s.params.nm, initDone := true }.respond .ok 0 []
    else s.raise .graphInvalid

end Sys2Proof.Machine
end

