-- ==== Sys2Proof/Machine/Dispatch.lean ====
section
/-! DEFINITION. One arm for each operation of the opcode map (R74). -/

namespace Sys2Proof.Machine

def exec (i : Instr) (s : State) : Host.Outcome State Fault Refusal :=
  match i with
  | .init => Sys2Proof.Machine.execInit s
  | .crc14Enc => Sys2Proof.Machine.execCrc14Enc s
  | .crc14Vfy => Sys2Proof.Machine.execCrc14Vfy s
  | .grayEnc => Sys2Proof.Machine.execGrayEnc s
  | .grayDec => Sys2Proof.Machine.execGrayDec s
  | .grayMap => Sys2Proof.Machine.execGrayMap s
  | .grayUnmap => Sys2Proof.Machine.execGrayUnmap s
  | .ldpcEnc => Sys2Proof.Machine.execLdpcEnc s
  | .ldpcSyn => Sys2Proof.Machine.execLdpcSyn s
  | .fgNm c => Sys2Proof.Machine.execFgNm c s
  | .fgMn n => Sys2Proof.Machine.execFgMn n s
  | .bpDec maxIterations => Sys2Proof.Machine.execBpDec maxIterations s

end Sys2Proof.Machine
end

