-- ==== Sys2Proof/Machine/Turn.lean ====
section
/-! DEFINITION. One step of CORE by itself, and one step of the host or the environment (R283). -/

namespace Sys2Proof.Machine

/-- R70, R78: CORE's own step. With a command in execution it decodes the command word and runs the operation, an illegal
word being answered `InvalidOp` with its payload unread; idle, it waits for a command and nothing changes. -/
def coreTurn (s : State) : Outcome :=
  if s.busy = true then
    match decode s.cmdWord with
    | .ok i => exec i s
    | .error _ => .next (s.raise .invalidOp)
  else .next s

/-- R283: one step. The first event to come says who moves; a host that has a command to present waits for `BUSY` = 0
(R282), and with no event to come CORE moves. -/
def turn (s : State) : Outcome :=
  match s.inputs with
  | [] => coreTurn s
  | .coreTurn :: rest => coreTurn { s with inputs := rest }
  | .reset :: rest => .next { s with inputs := rest }.resetEvent
  | .abort :: rest => .next { s with inputs := rest }.raiseAbort
  | .command word payload :: rest =>
    if s.busy = true then coreTurn s else .next ({ s with inputs := rest }.accept word payload)

/-- The events to come, with CORE's own step before them. -/
def coreFirst : List HostEvent → List HostEvent
  | [] => []
  | e :: rest => .coreTurn :: e :: rest

/-- The state in which CORE has just accepted the command word w with an empty payload, and moves next. -/
def State.withCommandWord (s : State) (w : Word) : State :=
  { s.accept w [] with inputs := coreFirst s.inputs }

end Sys2Proof.Machine
end

