-- ==== Sys2Proof/Machine/Step.lean ====
section
/-! DEFINITION. The step of the machine. -/

namespace Sys2Proof.Machine

/-- One step of the machine (R283). -/
def step : State → Host.Outcome State Fault Refusal := turn

/-- The state in which the next step runs the operation of the command word w (R84: one 32-bit word; every bit above
`nbits` is 0). CORE fetches nothing (R22): the host presents a command, and this stands for that and for its acceptance. -/
def State.withFetchWord (s : State) (nbits w : Nat) : State :=
  s.withCommandWord (BitVec.ofNat 32 (w % 2 ^ nbits))

end Sys2Proof.Machine
end

