-- ==== Sys2Proof/Safety.lean ====
section
/-! DEFINITION. The words in which claims are made: well-formed tables (R158), the invariant of every reachable state, the
polynomials of R100 and R101, what an iteration leaves in numbers and the contract of a format (R190), the inputs of R193,
and the host's chains (R224 to R226). -/

namespace Sys2Proof.Machine

open Polynomial

/-! ### Tables -/

/-- R158 (a) to (e): what makes the lists of `NM` the graph of the code. -/
structure GraphWF (nm : Vector (List Nat) 83) : Prop where
  degree : ∀ c : Fin 83, nm[c].length = 6 ∨ nm[c].length = 7
  range : ∀ c : Fin 83, ∀ n ∈ nm[c], n ≤ 173
  distinct : ∀ c : Fin 83, nm[c].Nodup
  threeChecks : ∀ n : Fin 174, ((List.finRange 83).filter fun c => nm[c].contains n.val).length = 3
  edges : (nm.toList.map List.length).sum = 522

/-- R158: `TablesWF(GEN, NM)`. -/
structure TablesWF (gen : Vector (BitVec 91) 83) (nm : Vector (List Nat) 83) : Prop where
  graph : GraphWF nm
  codewords : ∀ info : List Bool, info.length = 91 → parityCount nm (nm.map List.length) (ldpcEncode gen info) = 0

/-- R158 (f), the form that is enough: for every c and j,
`[j occurs in NM[c]] ^ (XOR over t with NM[c][t] ≥ 91 of GEN[NM[c][t] - 91][j]) = 0`. -/
def UnitBlocksOk (gen : Vector (BitVec 91) 83) (nm : Vector (List Nat) 83) : Prop :=
  ∀ (c : Fin 83) (j : Nat), j < 91 →
    xorAll (nm[c].contains j ::
      (nm[c].filter (91 ≤ ·)).map fun n => genAt gen (Fin.ofNat 83 (n - 91)) j) = false

/-- R158 in the form that can be checked: (a) to (e), and (f) for the 91 blocks with a single 1. -/
structure TablesOk (gen : Vector (BitVec 91) 83) (nm : Vector (List Nat) 83) : Prop where
  graph : GraphWF nm
  unitBlocks : UnitBlocksOk gen nm

/-- R121, R151 to R153: what makes the derived tables those of `NM`. -/
structure TablesBuilt (nm : Vector (List Nat) 83) (d : Derived) : Prop where
  /-- `GRAY_INV[GRAY_T[s]] = s` -/
  grayInverse : ∀ v : Sym, d.grayInv[(Config.grayT[v.toFin]).toFin] = v
  /-- `DEG[c] = len(NM[c])` -/
  degree : ∀ c : Fin 83, d.deg[c] = nm[c].length
  /-- c is in `MN[n]` exactly when n is in `NM[c]` -/
  inverse : ∀ (n : Fin 174) (c : Fin 83), (∃ s : Fin 3, d.mn[n][s] = c) ↔ n.val ∈ nm[c]
  /-- `MN[n][0] < MN[n][1] < MN[n][2]` -/
  ascending : ∀ n : Fin 174, d.mn[n][(0 : Fin 3)] < d.mn[n][(1 : Fin 3)] ∧ d.mn[n][(1 : Fin 3)] < d.mn[n][(2 : Fin 3)]
  /-- `NM[MN[n][s]][SLOT_B[n][s]] = n` -/
  slotB : ∀ (n : Fin 174) (s : Fin 3), nm[d.mn[n][s]][d.slotB[n][s]]? = some n.val
  /-- `MN[NM[c][t]][SLOT_C[c][t]] = c`, for t in 0..`DEG[c]-1` -/
  slotC : ∀ (c : Fin 83) (t : Nat) (n : Fin 174), nm[c][t]? = some n.val →
    ∃ s : Fin 3, d.slotC[c][t]? = some s ∧ d.mn[n][s] = c

/-! ### Steps and responses -/

/-- CORE moves next, from the state s': with no event to come, with its own turn to come, or with a command that waits
for `BUSY` = 0 (R282, R283). -/
def CoreMoves (s s' : State) : Prop :=
  s.inputs = [] ∧ s' = s ∨ (∃ w p rest, s.inputs = .command w p :: rest) ∧ s' = s ∨
    ∃ rest, s.inputs = .coreTurn :: rest ∧ s' = { s with inputs := rest }

/-- Between s and t the command in execution was answered (R70, R76, R223). -/
def Responded (s t : State) (status : Status) (aux : Imm) (payload : Payload) : Prop :=
  t.busy = false ∧ t.abortPending = false ∧ t.decoding = false ∧
    t.responses = ⟨status, aux, payload⟩ :: s.responses

/-- The operation i, given to the instance s with this payload, is answered `OK` with this `aux` and this payload. -/
def Answers (i : Instr) (s : State) (payload : Payload) (aux : Imm) (result : Payload) : Prop :=
  exec i { s with operand := payload } = .next ({ s with operand := payload }.respond .ok aux result)

/-! ### The invariant -/

/-- What every reachable state satisfies, and every step keeps. -/
structure Inv (s : State) : Prop where
  /-- R21, R23: after a successful `INIT` the derived tables are those of `NM`, and `NM` passed the build's check. -/
  tables : s.initDone = true → graphOk s.params.nm = true ∧ s.derived = buildDerived s.params.nm
  /-- R36: `ABORT_PENDING` is 0 whenever `BUSY` = 0. -/
  idle : s.busy = false → s.abortPending = false
  /-- R36: `ABORT_PENDING` exists only when `HAS_ABORT` is true. -/
  noAbort : s.params.hasAbort = false → s.abortPending = false
  /-- R22, R195: between two steps of a decode its command is a `BP.DEC`, and 1 ≤ `ITER` < `maxIterations`. -/
  decoding : s.decoding = true → s.busy = true ∧ s.initDone = true ∧
    ∃ m : Imm, decode s.cmdWord = .ok (.bpDec m) ∧ 1 ≤ s.dec.iter ∧ s.dec.iter < m.toNat
  /-- R32, R195: `HIST` has one count for each iteration so far. -/
  history : s.decoding = true → s.dec.hist.length = s.dec.iter
  /-- R33, R195: a count is 0 to 83. -/
  counts : s.decoding = true → (∀ k ∈ s.dec.hist, k ≤ 83) ∧ s.dec.nunsat ≤ 83

/-! ### The CRC as polynomials over GF(2) -/

/-- A bit as an element of GF(2). -/
def bitVal (b : Bool) : ZMod 2 := if b = true then 1 else 0

/-- R9: a bit sequence as a polynomial, its first bit the highest-degree coefficient. -/
noncomputable def bitsPoly (b : List Bool) : (ZMod 2)[X] :=
  ∑ i ∈ Finset.range b.length, C (bitVal (b.getD i false)) * X ^ (b.length - 1 - i)

/-- R101: a number as a polynomial, its bit k the coefficient of x^k. -/
noncomputable def valuePoly {n : Nat} (r : BitVec n) : (ZMod 2)[X] :=
  ∑ k ∈ Finset.range n, C (bitVal (r.getLsbD k)) * X ^ k

/-- R100: P(x). -/
noncomputable def crcPoly : (ZMod 2)[X] :=
  X ^ 14 + X ^ 13 + X ^ 10 + X ^ 9 + X ^ 8 + X ^ 6 + X ^ 4 + X ^ 2 + X + 1

/-- The block with its bit i inverted (R104). -/
def flipBit (b : List Bool) (i : Nat) : List Bool := b.modify i Bool.not

/-- Bit by bit exclusive or of two bit sequences (R105, R145). -/
def xorBits (a b : List Bool) : List Bool := List.zipWith Bool.xor a b

/-! ### Numbers of an instance -/

/-- R190: what is assumed of an instance whose format is not exact reals: `TOL` is not negative, `MSG_MAX` is positive where
there is one, and the format meets its contract. Of the reference instance nothing is assumed. -/
def NumericsWF (p : Params) : Prop :=
  ∀ k, p.num = .other k → 0 ≤ p.tol.toReal ∧ (∀ m, p.msgMax = some m → 0 < m.toReal) ∧
    (Config.numOther k).Meets (Config.numValue k) p.tol.toReal fun x => ∃ m, p.msgMax = some m ∧ x = m.toReal

/-- R175, R190 (a): the number x is what the instance may hold for the check-node value y: y itself in exact reals. -/
def CheckValue (p : Params) (x y : ℝ) : Prop :=
  match p.num with
  | .exact => x = y
  | .other _ => closeOrSaturated p.tol.toReal (fun b => ∃ m, p.msgMax = some m ∧ b = m.toReal) x y

/-- R177, R182, R190 (b): the number x is what the instance may hold for the sum y: y itself in exact reals. -/
def SumValue (p : Params) (x y : ℝ) : Prop :=
  match p.num with
  | .exact => x = y
  | .other k => closeOrSaturated p.tol.toReal (IsGreatest (Set.range fun c => |Config.numValue k c|)) x y

/-! ### One iteration, in numbers -/

/-- `B2C[NM[c][u]][SLOT_C[c][u]]` as a number: the message that check node c has on its slot u (R176). -/
noncomputable def toCheck (p : Params) (d : Derived) (b2c : Vector (Vector HeldNum 3) 174) (c : Fin 83) (u : Nat) : ℝ :=
  p.num.value (b2c[bitNode (p.nm[c].getD u 0)][(d.slotC[c]).getD u 0])

/-- `C2B[MN[n][s]][SLOT_B[n][s]]` as a number: the message that bit node n has on its slot s (R153, R177). -/
noncomputable def toBit (p : Params) (d : Derived) (c2b : Vector (List HeldNum) 83) (n : Fin 174) (s : Fin 3) : ℝ :=
  p.num.value ((c2b[d.mn[n][s]]).getD d.slotB[n][s] (p.num.numerics.item (.rat 0)))

/-- R176: every message from check c to its slot t is the check-node function of the messages on its other slots. -/
def ChecksSent (p : Params) (d : Derived) (b2c : Vector (Vector HeldNum 3) 174) (c2b : Vector (List HeldNum) 83) : Prop :=
  ∀ c : Fin 83, (c2b[c]).length = p.nm[c].length ∧ ∀ (t : Nat) (v : HeldNum), (c2b[c])[t]? = some v →
    CheckValue p (p.num.value v) (cnReal (((List.range p.nm[c].length).eraseIdx t).map (toCheck p d b2c c)))

/-- R177: bit n of the trial codeword is 1 exactly when its input LLR and its three messages sum to more than 0. -/
def BitsDecided (p : Params) (d : Derived) (llr0 : Vector HeldNum 174) (c2b : Vector (List HeldNum) 83)
    (hard : Vector Bool 174) : Prop :=
  ∀ n : Fin 174, ∃ x : ℝ, SumValue p x (p.num.value llr0[n] + ∑ s : Fin 3, toBit p d c2b n s) ∧
    (hard[n] = true ↔ 0 < x)

/-- R182: every message from bit n on its slot s is its input LLR and the messages on its two other slots. -/
def BitsSent (p : Params) (d : Derived) (llr0 : Vector HeldNum 174) (c2b : Vector (List HeldNum) 83)
    (b2c : Vector (Vector HeldNum 3) 174) : Prop :=
  ∀ (n : Fin 174) (s : Fin 3), SumValue p (p.num.value b2c[n][s])
    (p.num.value llr0[n] + ∑ r ∈ Finset.univ.erase s, toBit p d c2b n r)

/-- R178: the number of check nodes whose bits have an odd number of ones. -/
def oddChecks (nm : Vector (List Nat) 83) (hard : Vector Bool 174) : Nat :=
  (Finset.univ.filter fun c : Fin 83 => Odd (nm[c].countP fun n => hard.toList.getD n false)).card

/-- R179, R181: the decode ends in step 3 or step 4: the trial codeword is accepted, or the policy holds of the history. -/
def EndsBeforeStep5 (p : Params) (t : Decoder) : Prop :=
  t.nunsat = 0 ∧ crcVerify (t.hard.toList.take 91) = true ∨ StagPolicy.eval p.stag t.hist = true

/-- R174, R176 to R182: t is DecoderState after an iteration that begins with the messages `b2c` and the history `hist`. The
messages and decisions are those of the rules in every instance that meets the contract of its format (R190). -/
structure Iterated (p : Params) (d : Derived) (b2c : Vector (Vector HeldNum 3) 174) (hist : List Nat) (t : Decoder) :
    Prop where
  checks : NumericsWF p → ChecksSent p d b2c t.c2b
  decided : NumericsWF p → BitsDecided p d t.llr0 t.c2b t.hard
  count : t.nunsat = oddChecks p.nm t.hard
  history : t.hist = hist ++ [t.nunsat]
  kept : EndsBeforeStep5 p t → t.b2c = b2c
  sent : ¬ EndsBeforeStep5 p t → NumericsWF p → BitsSent p d t.llr0 t.c2b t.b2c

/-- R174, R179, R181, R183, R187: which response follows an iteration of a decode that began in s and left t: success, then
stagnation, then the bound, then the abort request; where none applies, the decode goes on without a response. -/
def IterationOutcome (s t : State) (maxIterations : Imm) : Prop :=
  if t.dec.nunsat = 0 ∧ crcVerify (t.dec.hard.toList.take 91) = true then
    Responded s t .ok (BitVec.ofNat 16 t.dec.iter) (bitItems t.dec.hard.toList)
  else if StagPolicy.eval s.params.stag t.dec.hist = true then Responded s t .nonConvergent 0 []
  else if maxIterations.toNat ≤ t.dec.iter then Responded s t .maxIterationsExceeded 0 []
  else if s.params.hasAbort = true ∧ s.abortPending = true then Responded s t .aborted 0 []
  else t.responses = s.responses ∧ t.busy = s.busy ∧ t.decoding = true ∧ t.abortPending = s.abortPending

/-! ### Decoder inputs -/

/-- Finite LLRs as a payload. -/
def llrItems (xs : List RealNum) : Payload := xs.map fun x => Item.llr (.finite x)

/-- Rational LLRs as a payload. -/
def ratItems (qs : List Rat) : Payload := llrItems (qs.map .rat)

/-- Input LLR n of a list, as a number. -/
noncomputable def llrAt (llr : List RealNum) (n : Nat) : ℝ := (llr.getD n (.rat 0)).toReal

/-- R72: the real number x is a number of the format; in exact reals every one is. -/
def InFormat (f : NumFormat) (x : ℝ) : Prop :=
  match f with
  | .exact => True
  | .other k => ∃ c : Nat, Config.numValue k c = x

/-- Every one of 174 LLRs is the number x. -/
def AllLlrs (llr : List RealNum) (x : ℝ) : Prop := llr.length = 174 ∧ ∀ n < 174, llrAt llr n = x

/-- R193 (a): the LLRs are `strongLLR(w, L)`: +L where w has a 1 and -L where it has a 0. -/
def StrongLlrs (w : List Bool) (L : ℝ) (llr : List RealNum) : Prop :=
  llr.length = 174 ∧ ∀ n < 174, llrAt llr n = if w.getD n false = true then L else -L

/-- R193 (c): correct signs and magnitude L, but at the positions p and q the wrong sign and magnitude e. -/
def TwoErrorLlrs (w : List Bool) (L e : ℝ) (p q : Nat) (llr : List RealNum) : Prop :=
  llr.length = 174 ∧ ∀ n < 174, llrAt llr n =
    if n = p ∨ n = q then (if w.getD n false = true then -e else e) else (if w.getD n false = true then L else -L)

/-! ### The host's chains -/

/-- R226 `CRC14.APPEND m`: the block of a message. -/
def crcAppend (m : List Bool) : List Bool := m ++ crcBits (crc14 m)

/-- R224 `TX m`, as far as the codeword. -/
def txCodeword (gen : Vector (BitVec 91) 83) (m : List Bool) : List Bool := ldpcEncode gen (crcAppend m)

/-- The responses of a run of the machine from a state, when it ends in a state. -/
def responsesAfter (k : Nat) (s : State) : Option (List Response) :=
  match Host.Core.run Sys2Proof.core k s with
  | .next t => some t.responses
  | .fault _ => none
  | .refused _ => none

end Sys2Proof.Machine
end

