-- ==== Sys2Proof/Certificates/Slice0/Obligations.lean ====
section
/-! DEFINITION. What is stated of the machine, for the provers. Each docstring names the rules of spec/ that the statement
formalises. -/

open Sys2Proof Sys2Proof.Machine

/-! ### Command words -/

/-- R71, R74, R75, R78: a word decodes to an operation exactly when it is the word that encodes the operation. So decoding
an encoded operation gives it back with every immediate, and no operation has a second word. -/
def Obligations.DecodeExactlyWhatEncodes : Prop :=
  ∀ (w : Word) (i : Instr), decode w = .ok i ↔ w = encode i

/-- R74, with words of 95_test_vectors.md: what some command words select. -/
def Obligations.CommandWordsOfTheVectors : Prop :=
  decode 0x00000000 = .ok .init ∧ decode 0x00000001 = .ok .crc14Enc ∧ decode 0x00000002 = .ok .crc14Vfy ∧
    decode 0x00000003 = .ok .grayEnc ∧ decode 0x00000004 = .ok .grayDec ∧ decode 0x00000005 = .ok .grayMap ∧
    decode 0x00000006 = .ok .grayUnmap ∧ decode 0x00000007 = .ok .ldpcEnc ∧ decode 0x00000008 = .ok .ldpcSyn ∧
    decode 0x00530009 = .ok (.fgNm 83) ∧ decode 0x00AE000A = .ok (.fgMn 174) ∧ decode 0x001E000B = .ok (.bpDec 30) ∧
    decode 0xFFFF000B = .ok (.bpDec 65535) ∧ (∃ e, decode 0x0000000C = .error e) ∧
    (∃ e, decode 0x00000101 = .error e) ∧ (∃ e, decode 0x00010001 = .error e)

/-- R78: which words are illegal, and that an illegal word is answered `InvalidOp` whatever the payload and the state. -/
def Obligations.IllegalWordsAreInvalidOp : Prop :=
  ∀ w : Word,
    ((∃ e, decode w = .error e) ↔
      0x0C ≤ (w.field 0 8).toNat ∨ w.field 8 8 ≠ 0 ∨ (w.field 0 8).toNat < 0x09 ∧ w.field 16 16 ≠ 0) ∧
    ∀ s s' : State, s.busy = true → CoreMoves s s' → s.cmdWord = w → (∃ e, decode w = .error e) →
      step s = .next { s' with
        busy := false, abortPending := false, decoding := false, responses := ⟨.invalidOp, 0, []⟩ :: s'.responses }

/-! ### Steps, events and responses -/

/-- R70, R283: with a legal command in execution, CORE's step is the operation that its word decodes to; where the host has
given CORE the turn, that turn is used up, and a command that waits goes on waiting. -/
def Obligations.StepRunsTheDecodedOperation : Prop :=
  ∀ (s s' : State) (i : Instr), s.busy = true → CoreMoves s s' → decode s.cmdWord = .ok i → step s = exec i s'

/-- R70, R22, R26: an idle CORE accepts the command that the host presents, and nothing but `BUSY`, the command and the
events to come changes.
That DecoderState stands while no decode runs is the model's choice (log 16). -/
def Obligations.IdleCoreAcceptsACommand : Prop :=
  ∀ (s : State) (w : Word) (p : Payload) (rest : List HostEvent), s.busy = false → s.inputs = .command w p :: rest →
    ∃ t, step s = .next t ∧ t.busy = true ∧ t.cmdWord = w ∧ t.operand = p ∧ t.decoding = false ∧ t.inputs = rest ∧
      t.params = s.params ∧ t.derived = s.derived ∧ t.initDone = s.initDone ∧ t.abortPending = s.abortPending ∧
      t.dec = s.dec ∧ t.responses = s.responses

/-- R70: a command is accepted only at `BUSY` = 0, is ended by exactly one response, after which `BUSY` = 0 (or is cut by
reset, R270); CORE does not respond without a command, starts no work by itself, and queues no second command. -/
def Obligations.OneResponseForEachCommand : Prop :=
  (∀ s t : State, step s = .next t →
    (t.responses = s.responses ∨ s.busy = true ∧ t.busy = false ∧ ∃ r, t.responses = r :: s.responses) ∧
    (s.busy = false → t.busy = true → ∃ w p rest, s.inputs = .command w p :: rest ∧ t.inputs = rest ∧
      t.cmdWord = w ∧ t.operand = p) ∧
    (s.busy = true → t.busy = false → (∃ r, t.responses = r :: s.responses) ∨ ∃ rest, s.inputs = .reset :: rest) ∧
    (s.busy = true → t.busy = true → t.cmdWord = s.cmdWord ∧ t.operand = s.operand ∧ t.responses = s.responses) ∧
    (∀ w p rest, s.busy = true → s.inputs = .command w p :: rest → t.inputs = s.inputs)) ∧
  ∀ s : State, s.busy = false → s.inputs = [] → step s = .next s

/-- R223, R249: the abort request sets `ABORT_PENDING` exactly when the input exists and `BUSY` = 1, and does nothing else. -/
def Obligations.AbortRequestIsRecordedWhileBusy : Prop :=
  ∀ (s : State) (rest : List HostEvent), s.inputs = .abort :: rest →
    step s = .next { s with
      inputs := rest, abortPending := if s.params.hasAbort = true ∧ s.busy = true then true else s.abortPending }

/-- R223: no operation other than `BP.DEC` can be aborted: its outcome does not depend on `ABORT_PENDING`. -/
def Obligations.AbortNeverEndsAnotherOperation : Prop :=
  ∀ (i : Instr) (s : State) (b : Bool), (∀ m, i ≠ .bpDec m) → exec i { s with abortPending := b } = exec i s

/-- R270, R38, R271: reset at any time leaves the state that R38 gives, keeps the constants, and gives no response. -/
def Obligations.ResetLeavesTheResetState : Prop :=
  ∀ (s : State) (rest : List HostEvent), s.inputs = .reset :: rest →
    ∃ t, step s = .next t ∧ t.initDone = false ∧ t.busy = false ∧ t.abortPending = false ∧ t.operand = [] ∧
      t.params = s.params ∧ t.responses = s.responses ∧ t.inputs = rest

/-- R38: the values that the spec gives for the state after reset. The other values are the model's (log 5). -/
def Obligations.StateAfterReset : Prop :=
  State.reset.initDone = false ∧ State.reset.busy = false ∧ State.reset.abortPending = false ∧
    State.reset.operand = [] ∧ State.reset.params.gen = Config.gen ∧ State.reset.params.nm = Config.nm

/-- R76, R77: the form of every response that an operation gives. The response `InvalidOp` is given
by no operation; `IllegalWordsAreInvalidOp` has it. `aux` of a success is compared with ITER as it stands after the response;
that it still stands there is the model's choice (log 16): R27 and R34 give DecoderState no meaning after the response. -/
def Obligations.ResponsesHaveTheFormOfTheInterface : Prop :=
  (∀ (i : Instr) (s t : State) (r : Response), Inv s → decode s.cmdWord = .ok i → exec i s = .next t →
    t.responses = r :: s.responses →
    r.word.field 0 8 = r.status.code ∧ r.word.field 8 8 = 0 ∧ r.word.field 16 16 = r.aux ∧
    (r.status ≠ .ok → r.aux = 0 ∧ r.payload = []) ∧
    (i = .ldpcSyn → r.status = .ok → ∃ w, s.operand = bitItems w ∧
      r.aux.toNat = parityCount s.params.nm s.derived.deg w) ∧
    ((∃ m, i = .bpDec m) → r.status = .ok → r.aux.toNat = t.dec.iter) ∧
    (i ≠ .ldpcSyn → (∀ m, i ≠ .bpDec m) → r.aux = 0)) ∧
  [Status.ok, .invalidLength, .nonConvergent, .maxIterationsExceeded, .aborted, .notInitialised, .invalidOp,
    .graphInvalid, .invalidIndex].map (fun st => st.code.toNat) = [0, 1, 2, 3, 4, 5, 6, 7, 8]

/-! ### The checks of R250 -/

/-- R222, R243: while `INIT_DONE` = 0 every legal command other than `INIT` is answered `NotInitialised`, whatever its
payload and immediate, and no state changes. -/
def Obligations.NotInitialisedBeforeInit : Prop :=
  ∀ (s s' : State) (i : Instr), Inv s → s.busy = true → CoreMoves s s' → decode s.cmdWord = .ok i → i ≠ .init →
    s.initDone = false →
    step s = .next { s' with
      busy := false, abortPending := false, responses := ⟨.notInitialised, 0, []⟩ :: s'.responses }

/-- R241: the table of lengths, and that a wrong length is answered `InvalidLength` and a right one never is. -/
def Obligations.WrongLengthsAreInvalidLength : Prop :=
  (∀ (i : Instr) (s : State), i = .init ∨ s.initDone = true → s.decoding = false →
    (i.lengthOk s.operand.length = false →
      exec i s = .next { s with
        busy := false, abortPending := false, decoding := false, responses := ⟨.invalidLength, 0, []⟩ :: s.responses }) ∧
    (i.lengthOk s.operand.length = true → ∀ t a p, exec i s = .next t →
      t.responses ≠ ⟨.invalidLength, a, p⟩ :: s.responses)) ∧
  ∀ (k : Nat) (x : Imm),
    (Instr.init.lengthOk k = true ↔ k = 0) ∧ (Instr.crc14Enc.lengthOk k = true ↔ k = 77) ∧
    (Instr.crc14Vfy.lengthOk k = true ↔ k = 91) ∧ (Instr.grayEnc.lengthOk k = true ↔ k = 1) ∧
    (Instr.grayDec.lengthOk k = true ↔ k = 1) ∧ (Instr.grayMap.lengthOk k = true ↔ 3 ∣ k) ∧
    Instr.grayUnmap.lengthOk k = true ∧ (Instr.ldpcEnc.lengthOk k = true ↔ k = 91) ∧
    (Instr.ldpcSyn.lengthOk k = true ↔ k = 174) ∧ ((Instr.fgNm x).lengthOk k = true ↔ k = 0) ∧
    ((Instr.fgMn x).lengthOk k = true ↔ k = 0) ∧ ((Instr.bpDec x).lengthOk k = true ↔ k = 174)

/-- R245: an immediate of `FG.NM` above 82 and of `FG.MN` above 173 is answered `InvalidIndex`. -/
def Obligations.IndicesOutOfRangeAreInvalidIndex : Prop :=
  ∀ (s : State) (x : Imm), s.initDone = true → s.operand = [] →
    (82 < x.toNat → exec (.fgNm x) s = .next { s with
      busy := false, abortPending := false, decoding := false, responses := ⟨.invalidIndex, 0, []⟩ :: s.responses }) ∧
    (173 < x.toNat → exec (.fgMn x) s = .next { s with
      busy := false, abortPending := false, decoding := false, responses := ⟨.invalidIndex, 0, []⟩ :: s.responses })

/-- R240: a fault changes nothing but `BUSY`, `ABORT_PENDING` and the response, returns no data, and does not depend on any
payload item. -/
def Obligations.FaultsChangeNothing : Prop :=
  ∀ (i : Instr) (s t : State) (st : Status) (a : Imm) (p : Payload), exec i s = .next t →
    t.responses = ⟨st, a, p⟩ :: s.responses → st ∈ [Status.notInitialised, .invalidLength, .invalidIndex] →
    t = { s with
      busy := false, abortPending := false, decoding := false, responses := ⟨st, 0, []⟩ :: s.responses } ∧
    ∀ q : Payload, q.length = s.operand.length → exec i { s with operand := q } = .next { t with operand := q }

/-- R20, R21, R51, R102 to R157, R170: what an operation leaves unchanged. No operation writes the constants or the
interface's input side; only `INIT` writes the derived tables and `INIT_DONE`; only `BP.DEC` writes DecoderState.
That `OPERAND` and DecoderState stand after a response too is the model's choice (log 16). -/
def Obligations.OperationsChangeOnlyTheirState : Prop :=
  ∀ (i : Instr) (s t : State), exec i s = .next t →
    t.params = s.params ∧ t.cmdWord = s.cmdWord ∧ t.operand = s.operand ∧ t.inputs = s.inputs ∧
    (i ≠ .init → t.derived = s.derived ∧ t.initDone = s.initDone) ∧ ((∀ m, i ≠ .bpDec m) → t.dec = s.dec) ∧
    (t.responses = s.responses ∧ t.busy = s.busy ∧ t.abortPending = s.abortPending ∧ t.decoding = true ∧
        (∃ m, i = .bpDec m) ∨
      t.busy = false ∧ t.abortPending = false ∧ t.decoding = false ∧ ∃ r, t.responses = r :: s.responses)

/-- R21, R51, R63, R271: along every step the constants stand; the derived tables and `INIT_DONE` change only at reset and
at an `INIT`. -/
def Obligations.TablesChangeOnlyAtInitAndReset : Prop :=
  ∀ s t : State, step s = .next t →
    t.params = s.params ∧
    (t.derived ≠ s.derived ∨ t.initDone ≠ s.initDone →
      (∃ rest, s.inputs = .reset :: rest) ∨ s.busy = true ∧ decode s.cmdWord = .ok .init)

/-! ### The invariant -/

/-- R38, R36: the invariant holds after reset. -/
def Obligations.InvariantAfterReset : Prop := Inv State.reset

/-- R21, R23, R32, R36, R195: every step keeps the invariant, from every state that has it. -/
def Obligations.EveryStepKeepsTheInvariant : Prop := ∀ s t : State, Inv s → step s = .next t → Inv t

/-! ### Initialisation -/

/-- R155, R158, R244: the build accepts exactly the lists that satisfy clauses (a) to (e). -/
def Obligations.BuildAcceptsExactlyWellFormedGraphs : Prop :=
  ∀ nm : Vector (List Nat) 83, graphOk nm = true ↔ GraphWF nm

/-- R220, R121, R151 to R153: `INIT` on a well-formed graph builds the derived tables, sets `INIT_DONE` and answers `OK`.
That `OPERAND` and DecoderState stand after the response is the model's choice (log 16). -/
def Obligations.InitBuildsTheTables : Prop :=
  ∀ s : State, s.operand = [] → GraphWF s.params.nm →
    ∃ t, exec .init s = .next t ∧ t.initDone = true ∧ TablesBuilt s.params.nm t.derived ∧ Responded s t .ok 0 [] ∧
      t.params = s.params ∧ t.operand = s.operand ∧ t.cmdWord = s.cmdWord ∧ t.dec = s.dec ∧ t.inputs = s.inputs

/-- R220, R244: `INIT` on tables that fail the build answers `GraphInvalid` and leaves `INIT_DONE` as it was. That the
derived tables stay too is the model's reading (log 10).
That DecoderState stands is the model's choice too (log 16). -/
def Obligations.InitOnABadGraphIsGraphInvalid : Prop :=
  ∀ s : State, s.operand = [] → ¬ GraphWF s.params.nm →
    ∃ t, exec .init s = .next t ∧ t.initDone = s.initDone ∧ t.derived = s.derived ∧ t.params = s.params ∧
      t.dec = s.dec ∧ Responded s t .graphInvalid 0 []

/-- R221: a repeated `INIT` answers `OK` and writes the same values. -/
def Obligations.RepeatedInitChangesNothing : Prop :=
  ∀ s : State, Inv s → s.initDone = true → s.operand = [] →
    exec .init s = .next { s with
      busy := false, abortPending := false, decoding := false, responses := ⟨.ok, 0, []⟩ :: s.responses }

/-! ### The factor graph -/

/-- R156: `FG.NM #c` returns the list of check node c, in its order. -/
def Obligations.FgNmReturnsTheCheckList : Prop :=
  ∀ (s : State) (c : Fin 83), Inv s → s.initDone = true → s.operand = [] →
    ∃ items : List Idx, exec (.fgNm (BitVec.ofNat 16 c.val)) s = .next (s.respond .ok 0 (items.map Item.idx)) ∧
      items.map BitVec.toNat = s.params.nm[c]

/-- R157, R152: `FG.MN #n` returns the three check nodes of bit node n, ascending. -/
def Obligations.FgMnReturnsTheBitList : Prop :=
  ∀ (s : State) (n : Fin 174), Inv s → s.initDone = true → s.operand = [] →
    ∃ c0 c1 c2 : Idx,
      exec (.fgMn (BitVec.ofNat 16 n.val)) s = .next (s.respond .ok 0 [.idx c0, .idx c1, .idx c2]) ∧
      c0.toNat < c1.toNat ∧ c1.toNat < c2.toNat ∧ c2.toNat ≤ 82 ∧
      ∀ c : Fin 83, n.val ∈ s.params.nm[c] ↔ c.val = c0.toNat ∨ c.val = c1.toNat ∨ c.val = c2.toNat

/-- R159: 59 check nodes have degree 6 and 24 have degree 7, and clause (d) gives the edge count. -/
def Obligations.DegreeCensus : Prop :=
  ∀ nm : Vector (List Nat) 83, (∀ c : Fin 83, nm[c].length = 6 ∨ nm[c].length = 7) →
    (∀ c : Fin 83, ∀ n ∈ nm[c], n ≤ 173) → (∀ c : Fin 83, nm[c].Nodup) →
    (∀ n : Fin 174, ((List.finRange 83).filter fun c => nm[c].contains n.val).length = 3) →
    (nm.toList.map List.length).sum = 522 ∧ (List.finRange 83).countP (fun c => nm[c].length == 6) = 59 ∧
      (List.finRange 83).countP (fun c => nm[c].length == 7) = 24

/-- R158 (f): it is enough that the blocks with a single 1 satisfy every parity equation. -/
def Obligations.UnitBlocksAreEnough : Prop :=
  ∀ (gen : Vector (BitVec 91) 83) (nm : Vector (List Nat) 83), TablesOk gen nm ↔ TablesWF gen nm

/-! ### CRC-14 -/

/-- R101, R102, R80: `CRC14.ENC` returns the remainder of the message with 19 zeros appended, divided by P, most
significant bit first. -/
def Obligations.CrcEncodeIsTheRemainder : Prop :=
  ∀ (s : State) (m : List Bool), s.initDone = true → s.operand = bitItems m → m.length = 77 →
    ∃ r : BitVec 14,
      exec .crc14Enc s = .next (s.respond .ok 0 (List.ofFn fun i : Fin 14 => Item.bit (r.getLsbD (13 - i.val)))) ∧
      valuePoly r = bitsPoly (m ++ List.replicate 19 false) %ₘ crcPoly

/-- R103: `CRC14.VFY` returns 1 exactly when the last 14 bits are the remainder of the first 77 with 19 zeros. -/
def Obligations.CrcVerifyComparesTheRemainder : Prop :=
  ∀ (s : State) (blk : List Bool), s.initDone = true → s.operand = bitItems blk → blk.length = 91 →
    ∃ ok : Bool, exec .crc14Vfy s = .next (s.respond .ok 0 [.bit ok]) ∧
      (ok = true ↔ bitsPoly (blk.drop 77) = bitsPoly (blk.take 77 ++ List.replicate 19 false) %ₘ crcPoly)

/-- R104: the block of every message verifies, and with any one of its 91 bits inverted it does not. -/
def Obligations.CrcDetectsSingleBitErrors : Prop :=
  ∀ (s : State) (m : List Bool), s.initDone = true → m.length = 77 →
    Answers .crc14Vfy s (bitItems (crcAppend m)) 0 [.bit true] ∧
    ∀ i < 91, Answers .crc14Vfy s (bitItems (flipBit (crcAppend m) i)) 0 [.bit false]

/-- R105: linearity, the values of single-bit messages, and the CRC of any message from them. -/
def Obligations.CrcIsLinear : Prop :=
  let single := fun i : Nat => List.replicate i false ++ true :: List.replicate (76 - i) false
  (∀ a b : List Bool, a.length = 77 → b.length = 77 → crc14 (xorBits a b) = crc14 a ^^^ crc14 b) ∧
    crc14 (List.replicate 77 false) = 0 ∧
    (∀ i < 77, valuePoly (crc14 (single i)) = Polynomial.X ^ (95 - i) %ₘ crcPoly) ∧
    crc14 (single 76) = 0x3874 ∧
    [(14, 0x2757#14), (15, 0x29F9#14), (16, 0x34A5#14), (17, 0x0E1D#14), (18, 0x1C3A#14), (19, 0x3874#14)].Forall
      (fun kv => Polynomial.X ^ kv.1 %ₘ crcPoly = valuePoly kv.2) ∧
    ∀ m : List Bool, m.length = 77 →
      crc14 m = (List.range 77).foldl (fun r i => if m.getD i false = true then r ^^^ crc14 (single i) else r) 0

/-- R106: message, five zeros and CRC are divisible by P; the 91-bit block in general is not. -/
def Obligations.CrcBlockIsNotTheDivisibleOne : Prop :=
  (∀ m : List Bool, m.length = 77 →
    bitsPoly (m ++ List.replicate 5 false ++ crcBits (crc14 m)) %ₘ crcPoly = 0) ∧
  ∃ m : List Bool, m.length = 77 ∧ bitsPoly (crcAppend m) %ₘ crcPoly ≠ 0

/-! ### Gray mapper -/

/-- R122, R123, R120, R121: `GRAY.ENC` and `GRAY.DEC` read the Gray table and its inverse. -/
def Obligations.GrayOperationsReadTheTables : Prop :=
  ∀ (s : State) (v : Sym), s.initDone = true → s.operand = [.sym v] →
    (∃ t : Sym, exec .grayEnc s = .next (s.respond .ok 0 [.sym t]) ∧
      ([0, 1, 3, 2, 5, 6, 4, 7] : List Sym)[v.toNat]? = some t) ∧
    (Inv s → ∃ t : Sym, exec .grayDec s = .next (s.respond .ok 0 [.sym t]) ∧
      ([0, 1, 3, 2, 6, 4, 5, 7] : List Sym)[v.toNat]? = some t)

/-- R124, R79: `GRAY.MAP` maps consecutive triples of bits, most significant first, through the table. -/
def Obligations.GrayMapMapsTriples : Prop :=
  ∀ (s : State) (p : List Bool), s.initDone = true → s.operand = bitItems p → p.length % 3 = 0 →
    ∃ tones : List Sym, exec .grayMap s = .next (s.respond .ok 0 (symItems tones)) ∧ tones.length = p.length / 3 ∧
      ∀ i < p.length / 3, tones[i]? = ([0, 1, 3, 2, 5, 6, 4, 7] : List Sym)[4 * (p.getD (3 * i) false).toNat +
        2 * (p.getD (3 * i + 1) false).toNat + (p.getD (3 * i + 2) false).toNat]?

/-- R125, R79: `GRAY.UNMAP` takes every number of tones and gives the three bits of each tone's symbol. -/
def Obligations.GrayUnmapGivesTheBits : Prop :=
  ∀ (s : State) (q : List Sym), Inv s → s.initDone = true → s.operand = symItems q →
    ∃ p : List Bool, exec .grayUnmap s = .next (s.respond .ok 0 (bitItems p)) ∧ p.length = 3 * q.length ∧
      ∀ i < q.length, ∃ v : Sym, ([0, 1, 3, 2, 6, 4, 5, 7] : List Sym)[(q.getD i 0).toNat]? = some v ∧
        p[3 * i]? = some (v.getLsbD 2) ∧ p[3 * i + 1]? = some (v.getLsbD 1) ∧ p[3 * i + 2]? = some (v.getLsbD 0)

/-- R126: adjacent tones come from symbols that differ in exactly one bit; tones 7 and 0 from symbols that differ in three. -/
def Obligations.AdjacentTonesDifferInOneBit : Prop :=
  ∀ s : State, Inv s → s.initDone = true →
    (∀ t : Nat, t < 7 → ∃ a b : Sym, Answers .grayDec s [.sym (BitVec.ofNat 3 t)] 0 [.sym a] ∧
      Answers .grayDec s [.sym (BitVec.ofNat 3 (t + 1))] 0 [.sym b] ∧
      (List.range 3).countP (fun k => a.getLsbD k != b.getLsbD k) = 1) ∧
    ∃ a b : Sym, Answers .grayDec s [.sym 7] 0 [.sym a] ∧ Answers .grayDec s [.sym 0] 0 [.sym b] ∧
      (List.range 3).countP (fun k => a.getLsbD k != b.getLsbD k) = 3

/-- R127: the Gray operations are inverse to each other. -/
def Obligations.GrayRoundTrips : Prop :=
  ∀ s : State, Inv s → s.initDone = true →
    (∀ v : Sym, ∃ t : Sym, Answers .grayEnc s [.sym v] 0 [.sym t] ∧ Answers .grayDec s [.sym t] 0 [.sym v]) ∧
    (∀ p : List Bool, p.length % 3 = 0 → ∃ q : List Sym,
      Answers .grayMap s (bitItems p) 0 (symItems q) ∧ Answers .grayUnmap s (symItems q) 0 (bitItems p)) ∧
    ∀ q : List Sym, ∃ p : List Bool,
      Answers .grayUnmap s (symItems q) 0 (bitItems p) ∧ Answers .grayMap s (bitItems p) 0 (symItems q)

/-! ### LDPC encoder and parity count -/

/-- R141, R142: the codeword is the block, then for each row of `GEN` the exclusive or of the bits it selects. -/
def Obligations.LdpcEncodeIsSystematic : Prop :=
  ∀ (s : State) (info : List Bool), s.initDone = true → s.operand = bitItems info → info.length = 91 →
    ∃ cw : List Bool, exec .ldpcEnc s = .next (s.respond .ok 0 (bitItems cw)) ∧ cw.length = 174 ∧
      (∀ j < 91, cw[j]? = info[j]?) ∧
      ∀ i : Fin 83, cw.getD (91 + i.val) false = true ↔
        Odd (Finset.univ.filter fun j : Fin 91 =>
          s.params.gen[i].getMsbD j.val = true ∧ info.getD j.val false = true).card

/-- R145: the encoder is linear, a single-bit block gives a column of `GEN`, and exclusive or keeps the words that satisfy
every parity equation. -/
def Obligations.LdpcIsLinear : Prop :=
  ∀ (gen : Vector (BitVec 91) 83) (nm : Vector (List Nat) 83),
    (∀ a b : List Bool, a.length = 91 → b.length = 91 →
      ldpcEncode gen (xorBits a b) = xorBits (ldpcEncode gen a) (ldpcEncode gen b)) ∧
    ldpcEncode gen (List.replicate 91 false) = List.replicate 174 false ∧
    (∀ (j : Fin 91) (i : Fin 83),
      (ldpcEncode gen (List.replicate j.val false ++ true :: List.replicate (90 - j.val) false)).getD (91 + i.val) false =
        gen[i].getMsbD j.val) ∧
    ∀ v w : List Bool, v.length = 174 → w.length = 174 → parityCount nm (nm.map List.length) v = 0 →
      parityCount nm (nm.map List.length) w = 0 → parityCount nm (nm.map List.length) (xorBits v w) = 0

/-- R143: `LDPC.SYN` returns the number of check nodes with an odd number of ones, 0 for no ones and 24 for all ones. -/
def Obligations.LdpcSynCountsOddChecks : Prop :=
  ∀ (s : State) (w : List Bool), Inv s → s.initDone = true → s.operand = bitItems w → w.length = 174 →
    ∃ aux : Imm, exec .ldpcSyn s = .next (s.respond .ok aux []) ∧ aux.toNat ≤ 83 ∧
      aux.toNat = (Finset.univ.filter fun c : Fin 83 =>
        Odd (s.params.nm[c].countP fun n => w.getD n false)).card ∧
      (w = List.replicate 174 false → aux = 0) ∧ (w = List.replicate 174 true → aux = 24)

/-- R144: for tables with clause (f), `LDPC.SYN` of every output of `LDPC.ENC` is 0. -/
def Obligations.CodewordsSatisfyEveryEquation : Prop :=
  ∀ (s : State) (info : List Bool), Inv s → s.initDone = true → TablesOk s.params.gen s.params.nm →
    info.length = 91 → ∃ cw : List Bool,
      Answers .ldpcEnc s (bitItems info) 0 (bitItems cw) ∧ Answers .ldpcSyn s (bitItems cw) 0 []

/-! ### The decoder -/

/-- R189 (a) to (e): facts of the check-node function on exact reals. -/
def Obligations.CheckNodeFacts : Prop :=
  (∀ a : ℝ, cnReal [a] = a) ∧ (∀ xs : List ℝ, (0 : ℝ) ∈ xs → cnReal xs = 0) ∧
    (∀ xs ys : List ℝ, xs.Perm ys → cnReal xs = cnReal ys) ∧
    (∀ (a : ℝ) (xs : List ℝ), cnReal (-a :: xs) = -cnReal (a :: xs)) ∧
    (∀ xs : List ℝ, xs ≠ [] →
      cnReal xs = (-1) ^ (xs.length + 1) * 2 * Real.artanh (xs.map fun x => Real.tanh (x / 2)).prod) ∧
    ∀ xs : List ℝ, xs ≠ [] → |cnReal xs| = 2 * Real.artanh (xs.map fun x => Real.tanh (|x| / 2)).prod ∧
      ∀ x ∈ xs, |cnReal xs| ≤ |x|

/-- R190, R11, R81: the reference instance is exact reals: it takes an LLR item as it stands, its sums, its check-node function
and its comparison are those of the reals, and it meets the contract with tolerance 0 and without saturation. -/
def Obligations.ReferenceNumericsAreExact : Prop :=
  let N := NumFormat.exact.numerics
  let val := NumFormat.exact.value
  (∀ x : RealNum, val (N.item x) = x.toReal) ∧ (∀ a b : HeldNum, val (N.add a b) = val a + val b) ∧
    (∀ xs : List HeldNum, xs ≠ [] → val (N.cn xs) = cnReal (xs.map val)) ∧
    (∀ v : HeldNum, N.isPositive v = true ↔ 0 < val v) ∧
    Numerics.exact.Meets Value.toReal 0 fun _ => False

/-- R176, R177, R178, R182, R190: the steps of an iteration, in numbers, for every instance that meets the contract of its
format; for the reference instance nothing is assumed and the equations are exact. -/
def Obligations.IterationEquations : Prop :=
  ∀ s : State, Inv s → s.initDone = true → NumericsWF s.params →
    ChecksSent s.params s.derived s.dec.b2c s.checkStep.dec.c2b ∧
    BitsDecided s.params s.derived s.dec.llr0 s.dec.c2b s.hardStep.dec.hard ∧
    (s.parityStep.dec.nunsat = oddChecks s.params.nm s.dec.hard ∧
      s.parityStep.dec.hist = s.dec.hist ++ [s.parityStep.dec.nunsat]) ∧
    BitsSent s.params s.derived s.dec.llr0 s.dec.c2b s.bitStep.dec.b2c

/-- R173, R174, R176 to R183, R187: the first iteration of `BP.DEC` and its outcome, for every format. For exact reals HARD and
the new B2C are given from the payload and `NM`.
Where this iteration ends the decode, DecoderState is read after the response; that it then still holds what the iteration
left is the model's choice (log 16), since R34, R170 and U12 give it no meaning there. -/
def Obligations.FirstIterationOfADecode : Prop :=
  ∀ (s : State) (m : Imm) (llr : List RealNum), Inv s → s.initDone = true → s.decoding = false →
    s.operand = llrItems llr → llr.length = 174 → m ≠ 0 →
    ∃ t, exec (.bpDec m) s = .next t ∧ t.dec.iter = 1 ∧
      (∀ n : Fin 174, t.dec.llr0[n] = s.params.num.numerics.item (llr.getD n (.rat 0))) ∧
      Iterated s.params s.derived (t.dec.llr0.map fun l => Vector.replicate 3 l) [] t.dec ∧ IterationOutcome s t m ∧
      (s.params.num = .exact →
        let sent := fun (c : Fin 83) (n : Fin 174) => cnReal ((s.params.nm[c].erase n.val).map (llrAt llr))
        (∀ n : Fin 174, t.dec.hard[n] = true ↔
          0 < llrAt llr n + ∑ c : Fin 83, if n.val ∈ s.params.nm[c] then sent c n else 0) ∧
        (¬ EndsBeforeStep5 s.params t.dec → ∀ (n : Fin 174) (r : Fin 3), s.params.num.value t.dec.b2c[n][r] =
          llrAt llr n + ∑ c : Fin 83, if n.val ∈ s.params.nm[c] ∧ c ≠ s.derived.mn[n][r] then sent c n else 0))

/-- R174, R176 to R183, R187: one more iteration of a decode in execution, for every format: the messages, the trial codeword,
the count and the history it leaves, and which of its outcomes applies.
Where this iteration ends the decode, DecoderState is read after the response; that it then still holds what the iteration
left is the model's choice (log 16), since R34, R170 and U12 give it no meaning there. -/
def Obligations.OutcomesOfAnIteration : Prop :=
  ∀ (s : State) (m : Imm), Inv s → s.decoding = true →
    ∃ t, exec (.bpDec m) s = .next t ∧ t.dec.iter = s.dec.iter + 1 ∧ t.dec.llr0 = s.dec.llr0 ∧
      Iterated s.params s.derived s.dec.b2c s.dec.hist t.dec ∧ IterationOutcome s t m

/-- R186, R173: with `maxIterations` = 0 the decoder does the initialisation and no iteration.
DecoderState is read after the response; that it then still holds what the initialisation left is the model's choice (log 16),
since R34, R170 and U12 give it no meaning there. -/
def Obligations.ZeroIterations : Prop :=
  ∀ (s : State) (llr : List RealNum), s.initDone = true → s.decoding = false → s.operand = llrItems llr →
    llr.length = 174 →
    ∃ t, exec (.bpDec 0) s = .next t ∧ Responded s t .maxIterationsExceeded 0 [] ∧ t.dec.iter = 0 ∧ t.dec.hist = [] ∧
      (∀ n : Fin 174, t.dec.llr0[n] = s.params.num.numerics.item (llr.getD n (.rat 0))) ∧
      ∀ (n : Fin 174) (k : Fin 3), t.dec.b2c[n][k] = t.dec.llr0[n]

/-- R184: the three named policies, and that with `StagNever` no decode ends `NonConvergent`. -/
def Obligations.StagnationPolicies : Prop :=
  (∀ h : List Nat, StagPolicy.eval .never h = false) ∧
    (∀ (w : Nat) (h : List Nat), 1 ≤ w →
      (StagPolicy.eval (.window w) h = true ↔ w + 1 ≤ h.length ∧
        ∀ i, h.length - w ≤ i → i < h.length → h.getD (i - 1) 0 ≤ h.getD i 0)) ∧
    (∀ (w : Nat) (h : List Nat), 1 ≤ w →
      (StagPolicy.eval (.windowIncreasing w) h = true ↔ w + 1 ≤ h.length ∧
        ∀ i, h.length - w ≤ i → i < h.length → h.getD (i - 1) 0 < h.getD i 0)) ∧
    ∀ (s t : State) (m a : Imm) (p : Payload), s.params.stag = .never → exec (.bpDec m) s = .next t →
      t.responses ≠ ⟨.nonConvergent, a, p⟩ :: s.responses

/-- R195, R171, R179: the ranges of the decoder's counters, and that a codeword returned satisfies every parity equation and
verifies.
Where the step ends the decode, DecoderState is read after the response; that it then still holds what the decode left is the
model's choice (log 16), since R27 and R34 give it no meaning there. -/
def Obligations.DecoderRanges : Prop :=
  ∀ (s t : State) (m : Imm), Inv s → decode s.cmdWord = .ok (.bpDec m) →
    (s.decoding = true ∨ s.initDone = true ∧ ∃ llr, s.operand = llrItems llr ∧ llr.length = 174) →
    exec (.bpDec m) s = .next t →
    t.dec.iter ≤ m.toNat ∧ t.dec.hist.length = t.dec.iter ∧ (∀ k ∈ t.dec.hist, k ≤ 83) ∧ (m ≠ 0 → t.dec.nunsat ≤ 83) ∧
    ∀ (a : Imm) (p : Payload), t.responses = ⟨.ok, a, p⟩ :: s.responses →
      1 ≤ a.toNat ∧ a.toNat = t.dec.iter ∧ a.toNat ≤ m.toNat ∧
      ∃ w : List Bool, p = bitItems w ∧ w.length = 174 ∧
        parityCount s.params.nm (s.params.nm.map List.length) w = 0 ∧ crcVerify (w.take 91) = true

/-- R188: a decode of finite LLRs gives its response within `maxIterations` steps of CORE (one step where that is 0), and is
busy without a response before, whatever the events to come are, as long as none is a reset. A step that an abort request
takes is no step of CORE, so each such event adds one to the bound. -/
def Obligations.EveryDecodeTerminates : Prop :=
  ∀ (s : State) (m : Imm) (llr : List RealNum), s.busy = true → .reset ∉ s.inputs → s.decoding = false →
    decode s.cmdWord = .ok (.bpDec m) → s.operand = llrItems llr →
    ∃ k, 1 ≤ k ∧ k ≤ max 1 m.toNat + s.inputs.count .abort ∧
      (∃ (t : State) (r : Response), Host.Core.run Sys2Proof.core k s = .next t ∧ t.busy = false ∧
        t.responses = r :: s.responses) ∧
      ∀ j < k, ∃ u : State, Host.Core.run Sys2Proof.core j s = .next u ∧ u.busy = true ∧ u.responses = s.responses

/-- R189 (b): in exact reals all LLRs 0 give the all-zero codeword in the first iteration, for every policy. -/
def Obligations.AllZeroLlrsGiveTheZeroCodeword : Prop :=
  ∀ (s : State) (m : Imm) (llr : List RealNum), Inv s → s.initDone = true → s.decoding = false → s.params.num = .exact →
    s.operand = llrItems llr → AllLlrs llr 0 → m ≠ 0 →
    ∃ t, exec (.bpDec m) s = .next t ∧ Responded s t .ok 1 (bitItems (List.replicate 174 false))

/-- R193 (b), 90_conflicts.md C1: in exact reals all LLRs -10 give the all-zero codeword in the first iteration. With all LLRs
+10 the first iteration does not answer with the all-zero codeword: a bit of its trial codeword is 0 exactly when the bit's
three checks have degree 7, so that word is not the all-zero one.
Where the first iteration ends the decode (a bound of 1, or the policy), HARD is read after the response; that it then still
holds the trial codeword is the model's choice (log 16), since R33 and R34 give it no meaning there. -/
def Obligations.AllZeroScenario : Prop :=
  ∀ (s : State) (m : Imm) (llr : List RealNum), Inv s → s.initDone = true → s.decoding = false → s.params.num = .exact →
    s.operand = llrItems llr → m ≠ 0 →
    (AllLlrs llr (-10) →
      ∃ t, exec (.bpDec m) s = .next t ∧ Responded s t .ok 1 (bitItems (List.replicate 174 false))) ∧
    (AllLlrs llr 10 →
      ∃ t, exec (.bpDec m) s = .next t ∧
        (∀ n : Fin 174, t.dec.hard[n] = false ↔
          ∀ c : Fin 83, n.val ∈ s.params.nm[c] → s.params.nm[c].length = 7) ∧
        t.dec.hard ≠ Vector.replicate 174 false ∧
        ∀ a : Imm, t.responses ≠ ⟨.ok, a, bitItems (List.replicate 174 false)⟩ :: s.responses)

/-- R193 (a), 90_conflicts.md C4: in exact reals strong LLRs of the codeword of a block that verifies decode to it in one
iteration. -/
def Obligations.StrongCodewordsDecodeAtOnce : Prop :=
  ∀ (s : State) (m : Imm) (info : List Bool) (L : ℝ) (llr : List RealNum), Inv s → s.initDone = true →
    s.decoding = false → s.params.num = .exact → TablesOk s.params.gen s.params.nm → info.length = 91 →
    crcVerify info = true → 0 < L → m ≠ 0 → s.operand = llrItems llr →
    StrongLlrs (ldpcEncode s.params.gen info) L llr →
    ∃ t, exec (.bpDec m) s = .next t ∧ Responded s t .ok 1 (bitItems (ldpcEncode s.params.gen info)) ∧
      (ldpcEncode s.params.gen info).take 91 = info

/-- R193 (c): in exact reals two weak errors in an otherwise strong codeword are corrected in one iteration. -/
def Obligations.TwoWeakErrorsAreCorrected : Prop :=
  ∀ (s : State) (m : Imm) (w : List Bool) (L e : ℝ) (p q : Nat) (llr : List RealNum), Inv s → s.initDone = true →
    s.decoding = false → s.params.num = .exact → w.length = 174 →
    parityCount s.params.nm (s.params.nm.map List.length) w = 0 → crcVerify (w.take 91) = true →
    m ≠ 0 → p < 174 → q < 174 → p ≠ q → 0 ≤ e → 3 * e < L →
    (let g := (List.finRange 83).countP fun c => s.params.nm[c].contains p && s.params.nm[c].contains q
     let u := 2 * Real.artanh (Real.tanh (L / 2) ^ 6)
     (1 + (g : ℝ)) * e < (3 - (g : ℝ)) * u) →
    s.operand = llrItems llr → TwoErrorLlrs w L e p q llr →
    ∃ t, exec (.bpDec m) s = .next t ∧ Responded s t .ok 1 (bitItems w)

/-! ### What stops the machine, and what an instance cannot show -/

/-- R72, R192: the two stops of the model, and the only payloads that reach them: an item that the interface cannot carry
(log 9), and an LLR that is not a finite number (log 8). -/
def Obligations.StopsAreForForeignAndNonFiniteItems : Prop :=
  (∀ (i : Instr) (s : State), s.initDone = true → s.decoding = false → i.lengthOk s.operand.length = true →
    i.itemType ≠ none → i.payloadTyped s.operand = false → Payload.finite s.operand = true →
    exec i s = .fault .foreignItem) ∧
  (∀ (m : Imm) (s : State), s.initDone = true → s.decoding = false → s.operand.length = 174 →
    (Instr.bpDec m).payloadTyped s.operand = true → Payload.finite s.operand = false →
    exec (.bpDec m) s = .refused .nonFiniteLlr) ∧
  ∀ (i : Instr) (s : State), (i.itemType = none ∨ i.payloadTyped s.operand = true) →
    Payload.finite s.operand = true → ∃ t, exec i s = .next t

/-- R34, R61 (a), R194, R38: the responses from any point on do not depend on what reset leaves unspecified, on what an
earlier decode left behind, or on earlier responses. -/
def Obligations.UnspecifiedStateIsNeverObserved : Prop :=
  ∀ (k : Nat) (a b : State), Inv a → Inv b → a.params = b.params → a.initDone = b.initDone → a.busy = b.busy →
    a.abortPending = b.abortPending → a.cmdWord = b.cmdWord → a.operand = b.operand → a.inputs = b.inputs →
    a.decoding = false → b.decoding = false →
    responsesAfter k a = none ∧ responsesAfter k b = none ∨
      ∃ new, responsesAfter k a = some (new ++ a.responses) ∧ responsesAfter k b = some (new ++ b.responses)

/-! ### The host's chains -/

/-- R224, R226: the transmit chain gives 58 tones, which unmap to a codeword that begins with the message and its CRC; the
all-zero message gives 58 tones 0. -/
def Obligations.TransmitChain : Prop :=
  ∀ (s : State) (m : List Bool), Inv s → s.initDone = true → m.length = 77 →
    ∃ (r cw : List Bool) (tones : List Sym), Answers .crc14Enc s (bitItems m) 0 (bitItems r) ∧
      Answers .ldpcEnc s (bitItems (m ++ r)) 0 (bitItems cw) ∧ Answers .grayMap s (bitItems cw) 0 (symItems tones) ∧
      tones.length = 58 ∧ cw.take 91 = m ++ r ∧ cw = txCodeword s.params.gen m ∧
      Answers .grayUnmap s (symItems tones) 0 (bitItems cw) ∧
      (m = List.replicate 77 false → tones = List.replicate 58 0)

/-- R225: in exact reals, what the transmit chain sends of a message, received without an error at any strength, comes back
from the receive chain in one iteration, for every policy. -/
def Obligations.ReceiveChainReturnsTheMessage : Prop :=
  ∀ (s : State) (k : Imm) (m : List Bool) (L : ℝ) (llr : List RealNum), Inv s → s.initDone = true → s.decoding = false →
    s.params.num = .exact → TablesOk s.params.gen s.params.nm → m.length = 77 → 0 < L → k ≠ 0 →
    s.operand = llrItems llr → StrongLlrs (txCodeword s.params.gen m) L llr →
    ∃ (t : State) (cw : List Bool), exec (.bpDec k) s = .next t ∧ Responded s t .ok 1 (bitItems cw) ∧ cw.take 77 = m

/-! ### LLR items in every format -/

/-- R81, R30: `BP.DEC` takes each LLR item as it stands, at its own position: item n is `LLR0[n]`, with no scaling, no offset
and no change of sign, in every format that has the number (in an implementation an item is a value of the format, R72).
Where this step ends the decode (always with a bound of 0), `LLR0` is read after the response; that it then still holds the
items is the model's choice (log 16), since R30, R34 and U12 give it no meaning there. -/
def Obligations.LlrItemsAreTakenAsTheyStand : Prop :=
  ∀ (s : State) (m : Imm) (llr : List RealNum), s.initDone = true → s.decoding = false → s.operand = llrItems llr →
    llr.length = 174 → (∀ n < 174, InFormat s.params.num (llrAt llr n)) →
    ∃ t, exec (.bpDec m) s = .next t ∧ ∀ n : Fin 174, s.params.num.value t.dec.llr0[n] = llrAt llr n
end

