-- ==== Sys2Proof/Laws/Numerics.lean ====
section
/-! SUPPORT. The reference numerics is exact: the bounds of Machine/Enclosure.lean hold, the comparison decides `0 < x`, and
the check-node function of a list is that of R175. -/

namespace Sys2Proof.Machine

/-! ### Values as real numbers -/

theorem foldl_box_toReal (xs : List Value) : ∀ (pre : List ℝ) (v : Value), pre ≠ [] → v.toReal = cnReal pre →
    (xs.foldl Value.box v).toReal = cnReal (pre ++ xs.map Value.toReal) := by
  induction xs with
  | nil => intro pre v _ hv; simpa using hv
  | cons x xs ih =>
    intro pre v hpre hv
    have h1 : (v.box x).toReal = cnReal (pre ++ [x.toReal]) := by
      rw [cnReal_append_singleton hpre, ← hv]; rfl
    simpa using ih (pre ++ [x.toReal]) (v.box x) (by simp) h1

/-- R175: the list function of the reference format is the check-node function of exact reals. -/
theorem Value.cn_toReal : ∀ {xs : List Value}, xs ≠ [] → (Value.cn xs).toReal = cnReal (xs.map Value.toReal)
  | x :: xs, _ => by
    exact foldl_box_toReal xs [x.toReal] x (by simp) (cnReal_singleton x.toReal).symm

@[simp] theorem Value.ofItem_toReal (x : RealNum) : (Value.ofItem x).toReal = x.toReal := rfl
@[simp] theorem Value.add_toReal (a b : Value) : (a.add b).toReal = a.toReal + b.toReal := rfl

@[simp] theorem toReal_rat (q : Rat) : (RealNum.rat q).toReal = q := rfl

/-- R11, R177: the comparison of messages over named real numbers is that of the numbers they stand for. -/
theorem namedReals_positive_iff (m : Msg) : Config.namedReals.positive m = true ↔ 0 < m.toReal :=
  Classical.choose_spec Config.namedReals.exact m

/-! ### The kept bounds hold -/

@[simp] theorem forceNat_eq {α : Type} (n : ℕ) (k : ℕ → α) : forceNat n k = k n := by
  cases n <;> rfl

@[simp] theorem Frac.force_eq {α : Type} (b : Frac) (k : Frac → α) : b.force k = k b := by
  simp [Frac.force]

/-- `b` is a lower bound of x. -/
def Frac.Below (b : Frac) (x : ℝ) : Prop := (b.n : ℝ) ≤ x * b.d
/-- `b` is an upper bound of x. -/
def Frac.Above (b : Frac) (x : ℝ) : Prop := x * b.d ≤ (b.n : ℝ)
/-- An enclosure holds x. -/
def Enclosure.Holds (e : Enclosure) (x : ℝ) : Prop := e.lo.Below x ∧ e.hi.Above x ∧ 0 < e.lo.d ∧ 0 < e.hi.n

theorem shiftRight_mul_le (n s : ℕ) : (n >>> s) * 2 ^ s ≤ n := by
  rw [Nat.shiftRight_eq_div_pow]; exact Nat.div_mul_le_self n _

theorem lt_shiftRight_succ_mul (n s : ℕ) : n ≤ ((n >>> s) + 1) * 2 ^ s := by
  rw [Nat.shiftRight_eq_div_pow, Nat.add_mul, Nat.one_mul]
  have := Nat.div_add_mod n (2 ^ s)
  have h2 := Nat.mod_lt n (Nat.two_pow_pos s)
  have h3 : 2 ^ s * (n / 2 ^ s) = n / 2 ^ s * 2 ^ s := Nat.mul_comm _ _
  omega

theorem Frac.down_below {b : Frac} {x : ℝ} (hx : 0 < x) (h : b.Below x) : b.down.Below x := by
  simp only [Frac.down, Frac.force_eq, id]
  split
  · exact h
  · rename_i s _
    have h1 : (((b.n >>> (s + 1)) * 2 ^ (s + 1) : ℕ) : ℝ) ≤ b.n := by exact_mod_cast shiftRight_mul_le b.n (s + 1)
    have h2 : ((b.d : ℕ) : ℝ) ≤ (((b.d >>> (s + 1)) + 1) * 2 ^ (s + 1) : ℕ) := by
      exact_mod_cast lt_shiftRight_succ_mul b.d (s + 1)
    simp only [Frac.Below] at h ⊢
    have h3 : x * b.d ≤ x * (((b.d >>> (s + 1)) + 1) * 2 ^ (s + 1) : ℕ) := by gcongr
    push_cast at h1 h3 ⊢
    have h4 : (0 : ℝ) < 2 ^ (s + 1) := by positivity
    refine le_of_mul_le_mul_right ?_ h4
    linarith

theorem Frac.up_above {b : Frac} {x : ℝ} (hx : 0 < x) (h : b.Above x) : b.up.Above x := by
  simp only [Frac.up, Frac.force_eq, id]
  split
  · exact h
  · rename_i s _
    have h1 : (((b.d >>> (s + 1)) * 2 ^ (s + 1) : ℕ) : ℝ) ≤ b.d := by exact_mod_cast shiftRight_mul_le b.d (s + 1)
    have h2 : ((b.n : ℕ) : ℝ) ≤ (((b.n >>> (s + 1)) + 1) * 2 ^ (s + 1) : ℕ) := by
      exact_mod_cast lt_shiftRight_succ_mul b.n (s + 1)
    simp only [Frac.Above] at h ⊢
    have h3 : x * (((b.d >>> (s + 1)) * 2 ^ (s + 1) : ℕ) : ℝ) ≤ x * b.d := by gcongr
    push_cast at h2 h3 ⊢
    have h4 : (0 : ℝ) < 2 ^ (s + 1) := by positivity
    refine le_of_mul_le_mul_right ?_ h4
    linarith

theorem Frac.down_d_pos {b : Frac} (h : 0 < b.d) : 0 < b.down.d := by
  simp only [Frac.down, Frac.force_eq, id]
  split
  · exact h
  · exact Nat.succ_pos _

theorem Frac.up_n_pos {b : Frac} (h : 0 < b.n) : 0 < b.up.n := by
  simp only [Frac.up, Frac.force_eq, id]
  split
  · exact h
  · exact Nat.succ_pos _

theorem Enclosure.make_holds {lo hi : Frac} {x : ℝ} (hx : 0 < x) (h1 : lo.Below x) (h2 : hi.Above x) (h3 : 0 < lo.d)
    (h4 : 0 < hi.n) : (Enclosure.make lo hi).Holds x := by
  simp only [Enclosure.make, Frac.force_eq]
  exact ⟨Frac.down_below hx h1, Frac.up_above hx h2, Frac.down_d_pos h3, Frac.up_n_pos h4⟩

theorem Frac.mul_below {a b : Frac} {x y : ℝ} (hx : 0 < x) (ha : a.Below x) (hb : b.Below y) : (a.mul b).Below (x * y) := by
  simp only [Frac.Below, Frac.mul, Nat.cast_mul] at *
  calc (a.n : ℝ) * b.n ≤ (x * a.d) * (y * b.d) := by gcongr
    _ = x * y * (a.d * b.d) := by ring

theorem Frac.mul_above {a b : Frac} {x y : ℝ} (hy : 0 < y) (ha : a.Above x) (hb : b.Above y) :
    (a.mul b).Above (x * y) := by
  simp only [Frac.Above, Frac.mul, Nat.cast_mul] at *
  calc x * y * (a.d * b.d) = (x * a.d) * (y * b.d) := by ring
    _ ≤ a.n * b.n := by gcongr

theorem Enclosure.add_holds {a b : Enclosure} {x y : ℝ} (hx : 0 < x) (hy : 0 < y) (ha : a.Holds x) (hb : b.Holds y) :
    (a.add b).Holds (x * y) :=
  Enclosure.make_holds (mul_pos hx hy) (Frac.mul_below hx ha.1 hb.1) (Frac.mul_above hy ha.2.1 hb.2.1)
    (Nat.mul_pos ha.2.2.1 hb.2.2.1) (Nat.mul_pos ha.2.2.2 hb.2.2.2)

theorem Enclosure.inv_holds {e : Enclosure} {x : ℝ} (hx : 0 < x) (h : e.Holds x) : e.inv.Holds x⁻¹ := by
  obtain ⟨h1, h2, h3, h4⟩ := h
  simp only [Enclosure.inv, Frac.force_eq]
  refine ⟨?_, ?_, h4, h3⟩
  · simp only [Frac.Below, Frac.Above, Frac.inv] at *
    rw [inv_mul_eq_div, le_div_iff₀ hx]; linarith
  · simp only [Frac.Below, Frac.Above, Frac.inv] at *
    rw [inv_mul_eq_div, div_le_iff₀ hx]; linarith

/-! The four corners of the check-node function of two inputs. -/

/-- The corner of one input's bound (n, d) and the other input y, compared with the value at x and y. -/
theorem corner_first {n d x y : ℝ} (h : n * (1 - y ^ 2) ≤ x * d * (1 - y ^ 2)) :
    (n + y * d) * (1 + x * y) ≤ (x + y) * (d + n * y) := by nlinarith

theorem corner_second {n d bn bd y : ℝ} (h : (d ^ 2 - n ^ 2) * bn ≤ (d ^ 2 - n ^ 2) * (y * bd)) :
    (n * bd + bn * d) * (d + n * y) ≤ (n + y * d) * (d * bd + n * bn) := by nlinarith

/-- Some corner is not above the value, and some corner is not below it. -/
theorem corner_bounds {al ah bl bh : Frac} {x y : ℝ} (hx : 0 < x) (hy : 0 < y)
    (hal : al.Below x) (hah : ah.Above x) (hbl : bl.Below y) (hbh : bh.Above y) (hal0 : 0 < al.d) (hah0 : 0 < ah.n) :
    (∃ a ∈ [al, ah], ∃ b ∈ [bl, bh], (a.box b).Below ((x + y) / (1 + x * y))) ∧
      (∃ a ∈ [al, ah], ∃ b ∈ [bl, bh], (a.box b).Above ((x + y) / (1 + x * y))) := by
  have hden : 0 < 1 + x * y := by positivity
  simp only [Frac.Below, Frac.Above] at hal hah hbl hbh
  -- the corner (a, b) from the comparison of the two steps
  have below : ∀ a ∈ [al, ah], ∀ b ∈ [bl, bh], (a.n : ℝ) * (1 - y ^ 2) ≤ x * a.d * (1 - y ^ 2) →
      ((a.d : ℝ) ^ 2 - a.n ^ 2) * b.n ≤ ((a.d : ℝ) ^ 2 - a.n ^ 2) * (y * b.d) → 0 < (a.d : ℝ) + a.n * y →
      (a.box b).Below ((x + y) / (1 + x * y)) := by
    intro a _ b _ h1 h2 h3
    have s1 := corner_first h1
    have s2 := corner_second h2
    simp only [Frac.Below, Frac.box]
    push_cast
    rw [div_mul_eq_mul_div, le_div_iff₀ hden]
    have hN : (0 : ℝ) ≤ a.d * b.d + a.n * b.n := by positivity
    refine le_of_mul_le_mul_right ?_ h3
    calc ((a.n : ℝ) * b.d + b.n * a.d) * (1 + x * y) * (a.d + a.n * y)
        = ((a.n * b.d + b.n * a.d) * (a.d + a.n * y)) * (1 + x * y) := by ring
      _ ≤ ((a.n + y * a.d) * (a.d * b.d + a.n * b.n)) * (1 + x * y) := by gcongr
      _ = ((a.n + y * a.d) * (1 + x * y)) * (a.d * b.d + a.n * b.n) := by ring
      _ ≤ ((x + y) * (a.d + a.n * y)) * (a.d * b.d + a.n * b.n) := by gcongr
      _ = (x + y) * (a.d * b.d + a.n * b.n) * (a.d + a.n * y) := by ring
  have above : ∀ a ∈ [al, ah], ∀ b ∈ [bl, bh], x * a.d * (1 - y ^ 2) ≤ (a.n : ℝ) * (1 - y ^ 2) →
      ((a.d : ℝ) ^ 2 - a.n ^ 2) * (y * b.d) ≤ ((a.d : ℝ) ^ 2 - a.n ^ 2) * b.n → 0 < (a.d : ℝ) + a.n * y →
      (a.box b).Above ((x + y) / (1 + x * y)) := by
    intro a _ b _ h1 h2 h3
    have s1 : (x + y) * (a.d + a.n * y) ≤ (a.n + y * a.d) * (1 + x * y) := by nlinarith
    have s2 : ((a.n : ℝ) + y * a.d) * (a.d * b.d + a.n * b.n) ≤ (a.n * b.d + b.n * a.d) * (a.d + a.n * y) := by nlinarith
    simp only [Frac.Above, Frac.box]
    push_cast
    rw [div_mul_eq_mul_div, div_le_iff₀ hden]
    refine le_of_mul_le_mul_right ?_ h3
    calc (x + y) * ((a.d : ℝ) * b.d + a.n * b.n) * (a.d + a.n * y)
        = ((x + y) * (a.d + a.n * y)) * (a.d * b.d + a.n * b.n) := by ring
      _ ≤ ((a.n + y * a.d) * (1 + x * y)) * (a.d * b.d + a.n * b.n) := by gcongr
      _ = ((a.n + y * a.d) * (a.d * b.d + a.n * b.n)) * (1 + x * y) := by ring
      _ ≤ ((a.n * b.d + b.n * a.d) * (a.d + a.n * y)) * (1 + x * y) := by gcongr
      _ = (a.n * b.d + b.n * a.d) * (1 + x * y) * (a.d + a.n * y) := by ring
  have dl : 0 < (al.d : ℝ) + al.n * y := by
    have : (0 : ℝ) < al.d := by exact_mod_cast hal0
    positivity
  have dh : 0 < (ah.d : ℝ) + ah.n * y := by
    have : (0 : ℝ) < ah.n := by exact_mod_cast hah0
    positivity
  constructor
  · rcases le_total (y ^ 2) 1 with h1 | h1
    · have e : (al.n : ℝ) * (1 - y ^ 2) ≤ x * al.d * (1 - y ^ 2) := by
        have : 0 ≤ 1 - y ^ 2 := by linarith
        gcongr
      rcases le_total ((al.n : ℝ) ^ 2) ((al.d : ℝ) ^ 2) with h2 | h2
      · exact ⟨al, by simp, bl, by simp, below al (by simp) bl (by simp) e
          (mul_le_mul_of_nonneg_left hbl (by linarith)) dl⟩
      · exact ⟨al, by simp, bh, by simp, below al (by simp) bh (by simp) e
          (mul_le_mul_of_nonpos_left hbh (by linarith)) dl⟩
    · have e : (ah.n : ℝ) * (1 - y ^ 2) ≤ x * ah.d * (1 - y ^ 2) := mul_le_mul_of_nonpos_right hah (by linarith)
      rcases le_total ((ah.n : ℝ) ^ 2) ((ah.d : ℝ) ^ 2) with h2 | h2
      · exact ⟨ah, by simp, bl, by simp, below ah (by simp) bl (by simp) e
          (mul_le_mul_of_nonneg_left hbl (by linarith)) dh⟩
      · exact ⟨ah, by simp, bh, by simp, below ah (by simp) bh (by simp) e
          (mul_le_mul_of_nonpos_left hbh (by linarith)) dh⟩
  · rcases le_total (y ^ 2) 1 with h1 | h1
    · have e : x * ah.d * (1 - y ^ 2) ≤ (ah.n : ℝ) * (1 - y ^ 2) := by
        have : 0 ≤ 1 - y ^ 2 := by linarith
        gcongr
      rcases le_total ((ah.n : ℝ) ^ 2) ((ah.d : ℝ) ^ 2) with h2 | h2
      · exact ⟨ah, by simp, bh, by simp, above ah (by simp) bh (by simp) e
          (mul_le_mul_of_nonneg_left hbh (by linarith)) dh⟩
      · exact ⟨ah, by simp, bl, by simp, above ah (by simp) bl (by simp) e
          (mul_le_mul_of_nonpos_left hbl (by linarith)) dh⟩
    · have e : x * al.d * (1 - y ^ 2) ≤ (al.n : ℝ) * (1 - y ^ 2) := mul_le_mul_of_nonpos_right hal (by linarith)
      rcases le_total ((al.n : ℝ) ^ 2) ((al.d : ℝ) ^ 2) with h2 | h2
      · exact ⟨al, by simp, bh, by simp, above al (by simp) bh (by simp) e
          (mul_le_mul_of_nonneg_left hbh (by linarith)) dl⟩
      · exact ⟨al, by simp, bl, by simp, above al (by simp) bl (by simp) e
          (mul_le_mul_of_nonpos_left hbl (by linarith)) dl⟩

/-- A bound that is not 0/0. -/
def Frac.Proper (b : Frac) : Prop := 0 < b.n ∨ 0 < b.d

theorem Frac.d_pos_of_below {b : Frac} {x : ℝ} (hp : b.Proper) (h : b.Below x) : 0 < b.d := by
  rcases Nat.eq_zero_or_pos b.d with h0 | h0
  · simp only [Frac.Below, h0, Nat.cast_zero, mul_zero] at h
    have : b.n = 0 := by exact_mod_cast le_antisymm h (Nat.cast_nonneg _)
    rcases hp with hp | hp <;> omega
  · exact h0

theorem Frac.n_pos_of_above {b : Frac} {x : ℝ} (hx : 0 < x) (hp : b.Proper) (h : b.Above x) : 0 < b.n := by
  rcases Nat.eq_zero_or_pos b.n with h0 | h0
  · simp only [Frac.Above, h0, Nat.cast_zero] at h
    have : (b.d : ℝ) ≤ 0 := by
      by_contra hc
      have := mul_pos hx (not_le.mp hc)
      linarith
    have : b.d = 0 := by exact_mod_cast le_antisymm this (Nat.cast_nonneg _)
    rcases hp with hp | hp <;> omega
  · exact h0

theorem Frac.min_proper {a b : Frac} (ha : a.Proper) (hb : b.Proper) : (a.min b).Proper := by
  unfold Frac.min; cases a.ble b <;> simpa

theorem Frac.max_proper {a b : Frac} (ha : a.Proper) (hb : b.Proper) : (a.max b).Proper := by
  unfold Frac.max; cases a.ble b <;> simpa

theorem Frac.min_below {a b : Frac} {x : ℝ} (ha : a.Proper) (hb : b.Proper) (h : a.Below x ∨ b.Below x) :
    (a.min b).Below x := by
  unfold Frac.min
  rcases hab : a.ble b with _ | _
  · have hlt : b.n * a.d ≤ a.n * b.d := by
      have : ¬ a.n * b.d ≤ b.n * a.d := fun hc => by
        rw [Frac.ble, Nat.ble_eq_true_of_le hc] at hab; exact Bool.noConfusion hab
      omega
    have hlt' : (b.n : ℝ) * a.d ≤ a.n * b.d := by exact_mod_cast hlt
    rcases h with h | h
    · have hd : (0 : ℝ) < a.d := by exact_mod_cast Frac.d_pos_of_below ha h
      simp only [Frac.Below, cond_false] at *
      refine le_of_mul_le_mul_right ?_ hd
      calc (b.n : ℝ) * a.d ≤ a.n * b.d := hlt'
        _ ≤ x * a.d * b.d := by gcongr
        _ = x * b.d * a.d := by ring
    · simpa using h
  · have hle' : (a.n : ℝ) * b.d ≤ b.n * a.d := by exact_mod_cast Nat.le_of_ble_eq_true hab
    rcases h with h | h
    · simpa using h
    · have hd : (0 : ℝ) < b.d := by exact_mod_cast Frac.d_pos_of_below hb h
      simp only [Frac.Below, cond_true] at *
      refine le_of_mul_le_mul_right ?_ hd
      calc (a.n : ℝ) * b.d ≤ b.n * a.d := hle'
        _ ≤ x * b.d * a.d := by gcongr
        _ = x * a.d * b.d := by ring

theorem Frac.max_above {a b : Frac} {x : ℝ} (hx : 0 < x) (ha : a.Proper) (hb : b.Proper) (h : a.Above x ∨ b.Above x) :
    (a.max b).Above x := by
  unfold Frac.max
  rcases hab : a.ble b with _ | _
  · have hlt : b.n * a.d ≤ a.n * b.d := by
      have : ¬ a.n * b.d ≤ b.n * a.d := fun hc => by
        rw [Frac.ble, Nat.ble_eq_true_of_le hc] at hab; exact Bool.noConfusion hab
      omega
    have hlt' : (b.n : ℝ) * a.d ≤ a.n * b.d := by exact_mod_cast hlt
    rcases h with h | h
    · simpa using h
    · have hn : (0 : ℝ) < b.n := by exact_mod_cast Frac.n_pos_of_above hx hb h
      simp only [Frac.Above, cond_false] at *
      refine le_of_mul_le_mul_right ?_ hn
      calc x * a.d * b.n = x * (b.n * a.d) := by ring
        _ ≤ x * (a.n * b.d) := by gcongr
        _ = x * b.d * a.n := by ring
        _ ≤ b.n * a.n := by gcongr
        _ = a.n * b.n := by ring
  · have hle' : (a.n : ℝ) * b.d ≤ b.n * a.d := by exact_mod_cast Nat.le_of_ble_eq_true hab
    rcases h with h | h
    · have hn : (0 : ℝ) < a.n := by exact_mod_cast Frac.n_pos_of_above hx ha h
      simp only [Frac.Above, cond_true] at *
      refine le_of_mul_le_mul_right ?_ hn
      calc x * b.d * a.n = x * (a.n * b.d) := by ring
        _ ≤ x * (b.n * a.d) := by gcongr
        _ = x * a.d * b.n := by ring
        _ ≤ a.n * b.n := by gcongr
        _ = b.n * a.n := by ring
    · simpa using h

theorem Frac.box_proper {a b : Frac} (ha : a.Proper) (hb : b.Proper) : (a.box b).Proper := by
  simp only [Frac.Proper, Frac.box]
  rcases ha with ha | ha <;> rcases hb with hb | hb
  · exact .inr (Nat.lt_of_lt_of_le (Nat.mul_pos ha hb) (Nat.le_add_left _ _))
  · exact .inl (Nat.lt_of_lt_of_le (Nat.mul_pos ha hb) (Nat.le_add_right _ _))
  · exact .inl (Nat.lt_of_lt_of_le (Nat.mul_pos hb ha) (Nat.le_add_left _ _))
  · exact .inr (Nat.lt_of_lt_of_le (Nat.mul_pos ha hb) (Nat.le_add_right _ _))

theorem Enclosure.box_holds {a b : Enclosure} {x y : ℝ} (hx : 0 < x) (hy : 0 < y) (ha : a.Holds x) (hb : b.Holds y) :
    (a.box b).Holds ((x + y) / (1 + x * y)) := by
  obtain ⟨hal, hah, hal0, hah0⟩ := ha
  obtain ⟨hbl, hbh, hbl0, hbh0⟩ := hb
  have hpos : 0 < (x + y) / (1 + x * y) := by positivity
  obtain ⟨⟨p, hp, q, hq, hpq⟩, ⟨r, hr, s, hs, hrs⟩⟩ := corner_bounds hx hy hal hah hbl hbh hal0 hah0
  have p1 := Frac.box_proper (a := a.lo) (b := b.lo) (.inr hal0) (.inr hbl0)
  have p2 := Frac.box_proper (a := a.lo) (b := b.hi) (.inr hal0) (.inl hbh0)
  have p3 := Frac.box_proper (a := a.hi) (b := b.lo) (.inl hah0) (.inr hbl0)
  have p4 := Frac.box_proper (a := a.hi) (b := b.hi) (.inl hah0) (.inl hbh0)
  have hlo : (((a.lo.box b.lo).min (a.lo.box b.hi)).min ((a.hi.box b.lo).min (a.hi.box b.hi))).Below
      ((x + y) / (1 + x * y)) := by
    refine Frac.min_below (Frac.min_proper p1 p2) (Frac.min_proper p3 p4) ?_
    simp only [List.mem_cons, List.not_mem_nil, or_false] at hp hq
    rcases hp with rfl | rfl <;> rcases hq with rfl | rfl
    · exact .inl (Frac.min_below p1 p2 (.inl hpq))
    · exact .inl (Frac.min_below p1 p2 (.inr hpq))
    · exact .inr (Frac.min_below p3 p4 (.inl hpq))
    · exact .inr (Frac.min_below p3 p4 (.inr hpq))
  have hhi : (((a.lo.box b.lo).max (a.lo.box b.hi)).max ((a.hi.box b.lo).max (a.hi.box b.hi))).Above
      ((x + y) / (1 + x * y)) := by
    refine Frac.max_above hpos (Frac.max_proper p1 p2) (Frac.max_proper p3 p4) ?_
    simp only [List.mem_cons, List.not_mem_nil, or_false] at hr hs
    rcases hr with rfl | rfl <;> rcases hs with rfl | rfl
    · exact .inl (Frac.max_above hpos p1 p2 (.inl hrs))
    · exact .inl (Frac.max_above hpos p1 p2 (.inr hrs))
    · exact .inr (Frac.max_above hpos p3 p4 (.inl hrs))
    · exact .inr (Frac.max_above hpos p3 p4 (.inr hrs))
  simp only [Enclosure.box, Frac.force_eq]
  exact Enclosure.make_holds hpos hlo hhi
    (Frac.d_pos_of_below (Frac.min_proper (Frac.min_proper p1 p2) (Frac.min_proper p3 p4)) hlo)
    (Frac.n_pos_of_above hpos (Frac.max_proper (Frac.max_proper p1 p2) (Frac.max_proper p3 p4)) hhi)

/-! The bounds of the exponential of an item. -/

/-- The first k terms of the exponential series and u times the next. -/
noncomputable def seriesWith (k : ℕ) (x u : ℝ) : ℝ :=
  ∑ i ∈ Finset.range k, x ^ i / (i.factorial : ℝ) + x ^ k / (k.factorial : ℝ) * u

theorem seriesWith_succ (k : ℕ) (x u : ℝ) : seriesWith (k + 1) x u = seriesWith k x (1 + x / (k + 1) * u) := by
  have h : ((k.factorial : ℕ) : ℝ) ≠ 0 := by exact_mod_cast k.factorial_ne_zero
  have h' : ((k : ℝ) + 1) ≠ 0 := by positivity
  simp only [seriesWith, Finset.sum_range_succ, Nat.factorial_succ]
  push_cast
  field_simp
  ring

theorem horner_bounds {a b : ℕ} (hb : 0 < b) : ∀ (k : ℕ) (t : Frac) (u : ℝ), 0 < t.d →
    (t.Below u → (Frac.horner a b k t).Below (seriesWith k ((a : ℝ) / b) u)) ∧
      (t.Above u → (Frac.horner a b k t).Above (seriesWith k ((a : ℝ) / b) u)) ∧ 0 < (Frac.horner a b k t).d
  | 0, t, u, h => by simp [Frac.horner, seriesWith, h]
  | k + 1, t, u, h => by
    have hb' : (b : ℝ) ≠ 0 := by exact_mod_cast hb.ne'
    have hk : ((k : ℝ) + 1) ≠ 0 := by positivity
    have ih := horner_bounds (a := a) hb k ⟨b * (k + 1) * t.d + a * t.n, b * (k + 1) * t.d⟩
      (1 + (a : ℝ) / b / (k + 1) * u) (by positivity)
    have e : (1 + (a : ℝ) / b / (k + 1) * u) * ((b * (k + 1) * t.d : ℕ) : ℝ) = b * (k + 1) * t.d + a * (u * t.d) := by
      push_cast; field_simp
    simp only [Frac.horner, Frac.force_eq, seriesWith_succ]
    refine ⟨fun hl => ih.1 ?_, fun hl => ih.2.1 ?_, ih.2.2⟩
    · simp only [Frac.Below] at hl ⊢
      rw [e]; push_cast
      have : (a : ℝ) * t.n ≤ a * (u * t.d) := by gcongr
      linarith
    · simp only [Frac.Above] at hl ⊢
      rw [e]; push_cast
      have : (a : ℝ) * (u * t.d) ≤ a * t.n := by gcongr
      linarith

theorem horner_n_pos {a b : ℕ} (hb : 0 < b) : ∀ (k : ℕ) (t : Frac), 0 < t.d → 0 < t.n → 0 < (Frac.horner a b k t).n
  | 0, _, _, h => h
  | k + 1, t, hd, hn => by
    simp only [Frac.horner, Frac.force_eq]
    exact horner_n_pos hb k _ (by positivity) (by positivity)

theorem squareTimes_down {x : ℝ} (hx : 0 < x) : ∀ (k : ℕ) (b : Frac), b.Below x → 0 < b.d →
    (Frac.squareTimes Frac.down k b).Below (x ^ 2 ^ k) ∧ 0 < (Frac.squareTimes Frac.down k b).d
  | 0, b, h, hd => by simpa [Frac.squareTimes] using ⟨h, hd⟩
  | k + 1, b, h, hd => by
    have h2 := Frac.down_below (mul_pos hx hx) (Frac.mul_below hx h h)
    have := squareTimes_down (mul_pos hx hx) k _ h2 (Frac.down_d_pos (Nat.mul_pos hd hd))
    rw [← sq, ← pow_mul, ← pow_succ'] at this
    exact this

theorem squareTimes_up {x : ℝ} (hx : 0 < x) : ∀ (k : ℕ) (b : Frac), b.Above x → 0 < b.n →
    (Frac.squareTimes Frac.up k b).Above (x ^ 2 ^ k) ∧ 0 < (Frac.squareTimes Frac.up k b).n
  | 0, b, h, hn => by simpa [Frac.squareTimes] using ⟨h, hn⟩
  | k + 1, b, h, hn => by
    have h2 := Frac.up_above (mul_pos hx hx) (Frac.mul_above hx h h)
    have := squareTimes_up (mul_pos hx hx) k _ h2 (Frac.up_n_pos (Nat.mul_pos hn hn))
    rw [← sq, ← pow_mul, ← pow_succ'] at this
    exact this

theorem Enclosure.expOf_holds (n : ℕ) {d : ℕ} (hd : 0 < d) : (Enclosure.expOf n d).Holds (Real.exp ((n : ℝ) / d)) := by
  simp only [Enclosure.expOf, forceNat_eq]
  set k := 16 + (n / d + 1).log2 with hk
  set b := d * 2 ^ k with hb
  have hb0 : 0 < b := Nat.mul_pos hd (Nat.two_pow_pos k)
  have hb0' : (0 : ℝ) < b := by exact_mod_cast hb0
  have hd' : (d : ℝ) ≠ 0 := by exact_mod_cast hd.ne'
  -- the argument of the series is at most 1
  have hnb : n ≤ b := by
    have h1 : n / d + 1 < 2 ^ ((n / d + 1).log2 + 1) := Nat.lt_log2_self
    have h2 : (2 : ℕ) ^ ((n / d + 1).log2 + 1) ≤ 2 ^ k := Nat.pow_le_pow_right (by norm_num) (by omega)
    have h3 : n < d * (n / d + 1) := Nat.lt_mul_div_succ n hd
    calc n ≤ d * (n / d + 1) := h3.le
      _ ≤ d * 2 ^ k := Nat.mul_le_mul_left d (by omega)
  have hx0 : (0 : ℝ) ≤ (n : ℝ) / b := by positivity
  have hx1 : (n : ℝ) / b ≤ 1 := by rw [div_le_one hb0']; exact_mod_cast hnb
  have hexp : Real.exp ((n : ℝ) / b) ^ 2 ^ k = Real.exp ((n : ℝ) / d) := by
    rw [← Real.exp_nat_mul]
    congr 1
    rw [hb]; push_cast; field_simp
  have hpos := Real.exp_pos ((n : ℝ) / b)
  have hlo : (Frac.horner n b 15 ⟨1, 1⟩).Below (Real.exp ((n : ℝ) / b)) := by
    have h1 := (horner_bounds (a := n) hb0 15 ⟨1, 1⟩ 1 (by norm_num)).1 (by norm_num [Frac.Below])
    have h2 : seriesWith 15 ((n : ℝ) / b) 1 ≤ Real.exp ((n : ℝ) / b) := by
      have := Real.sum_le_exp_of_nonneg hx0 16
      rw [Finset.sum_range_succ] at this
      simpa [seriesWith] using this
    exact h1.trans (mul_le_mul_of_nonneg_right h2 (Nat.cast_nonneg _))
  have hhi : (Frac.horner n b 15 ⟨16, 15⟩).Above (Real.exp ((n : ℝ) / b)) := by
    have h1 := (horner_bounds (a := n) hb0 15 ⟨16, 15⟩ (16 / 15) (by norm_num)).2.1 (by norm_num [Frac.Above])
    have h2 : Real.exp ((n : ℝ) / b) ≤ seriesWith 15 ((n : ℝ) / b) (16 / 15) := by
      have := Real.exp_bound' hx0 hx1 (n := 15) (by norm_num)
      refine this.trans (le_of_eq ?_)
      simp only [seriesWith]
      congr 1
      push_cast
      have : ((Nat.factorial 15 : ℕ) : ℝ) ≠ 0 := by exact_mod_cast (Nat.factorial_ne_zero 15)
      field_simp
      norm_num
    exact le_trans (mul_le_mul_of_nonneg_right h2 (Nat.cast_nonneg _)) h1
  have hld := (horner_bounds (a := n) hb0 15 ⟨1, 1⟩ 1 (by norm_num)).2.2
  have hhn := horner_n_pos (a := n) hb0 15 ⟨16, 15⟩ (by norm_num) (by norm_num)
  obtain ⟨r1, r2⟩ := squareTimes_down hpos k _ (Frac.down_below hpos hlo) (Frac.down_d_pos hld)
  obtain ⟨r3, r4⟩ := squareTimes_up hpos k _ (Frac.up_above hpos hhi) (Frac.up_n_pos hhn)
  rw [hexp] at r1 r3
  exact Enclosure.make_holds (Real.exp_pos _) r1 r3 r2 r4

theorem Enclosure.ofItem_holds (q : Rat) : (Enclosure.ofItem q).Holds (Real.exp q) := by
  have hq : (q : ℝ) = q.num / q.den := by exact_mod_cast (Rat.num_div_den q).symm
  rw [hq]
  unfold Enclosure.ofItem
  split
  · rename_i h
    rw [h]
    simp [Enclosure.Holds, Frac.Below, Frac.Above]
  · rename_i n _ h
    rw [h]
    simpa using Enclosure.expOf_holds n q.den_pos
  · rename_i n h
    rw [h]
    have := Enclosure.inv_holds (Real.exp_pos _) (Enclosure.expOf_holds (n + 1) q.den_pos)
    rw [← Real.exp_neg] at this
    have e : -(((n + 1 : ℕ) : ℝ) / q.den) = ((Int.negSucc n : ℤ) : ℝ) / q.den := by
      rw [Int.cast_negSucc]; push_cast; ring
    rwa [e] at this

theorem Enclosure.both_eq_some {f : Enclosure → Enclosure → Enclosure} {a b : Option Enclosure} {e : Enclosure} :
    Enclosure.both f a b = some e ↔ ∃ x y, a = some x ∧ b = some y ∧ f x y = e := by
  cases a <;> cases b <;> simp [Enclosure.both]

/-- The bounds of a message hold its exponential, whatever the names stand for. -/
theorem Msg.bounds_hold (value : ℕ → ℝ) :
    ∀ (m : Msg) (e : Enclosure), m.bounds = some e → e.Holds (Real.exp (m.toRealWith value))
  | .item (.rat q), _, h => by
    cases h
    exact Enclosure.ofItem_holds q
  | .item (.named _), _, h => by cases h
  | .add a b, _, h => by
    obtain ⟨x, y, hx, hy, rfl⟩ := Enclosure.both_eq_some.mp h
    rw [Msg.toRealWith, Real.exp_add]
    exact Enclosure.add_holds (Real.exp_pos _) (Real.exp_pos _) (a.bounds_hold value x hx) (b.bounds_hold value y hy)
  | .box a b, _, h => by
    obtain ⟨x, y, hx, hy, rfl⟩ := Enclosure.both_eq_some.mp h
    rw [Msg.toRealWith, exp_cnReal_pair]
    exact Enclosure.box_holds (Real.exp_pos _) (Real.exp_pos _) (a.bounds_hold value x hx) (b.bounds_hold value y hy)

/-- A message with bounds has no named item, so it is the same number whatever the names stand for. -/
theorem Msg.toRealWith_of_bounds (value : ℕ → ℝ) :
    ∀ (m : Msg) (e : Enclosure), m.bounds = some e → m.toRealWith value = m.toRealWith fun _ => 0
  | .item (.rat _), _, _ => rfl
  | .item (.named _), _, h => by cases h
  | .add a b, _, h => by
    obtain ⟨x, y, hx, hy, rfl⟩ := Enclosure.both_eq_some.mp h
    simp only [Msg.toRealWith, a.toRealWith_of_bounds value x hx, b.toRealWith_of_bounds value y hy]
  | .box a b, _, h => by
    obtain ⟨x, y, hx, hy, rfl⟩ := Enclosure.both_eq_some.mp h
    simp only [Msg.toRealWith, a.toRealWith_of_bounds value x hx, b.toRealWith_of_bounds value y hy]

theorem Enclosure.sign_sound {e : Enclosure} {x : ℝ} (h : e.Holds (Real.exp x)) {b : Bool} (hb : e.sign = some b) :
    b = true ↔ 0 < x := by
  obtain ⟨h1, h2, h3, h4⟩ := h
  simp only [Frac.Below, Frac.Above] at h1 h2
  rw [← Real.one_lt_exp_iff]
  simp only [Enclosure.sign] at hb
  split at hb
  · rename_i hc
    cases hb
    have hc' : (e.lo.d : ℝ) < e.lo.n := by exact_mod_cast hc
    have hd : (0 : ℝ) < e.lo.d := by exact_mod_cast h3
    refine ⟨fun _ => ?_, fun _ => rfl⟩
    by_contra hx
    have : Real.exp x * e.lo.d ≤ 1 * e.lo.d := by
      have := not_lt.mp hx
      gcongr
    linarith
  · split at hb
    · rename_i hc
      cases hb
      have hc' : (e.hi.n : ℝ) ≤ e.hi.d := by exact_mod_cast hc
      have hn : (0 : ℝ) < e.hi.n := by exact_mod_cast h4
      refine ⟨fun h => Bool.noConfusion h, fun hx => ?_⟩
      have : 1 * (e.hi.d : ℝ) < Real.exp x * e.hi.d := by
        have : (0 : ℝ) < e.hi.d := by linarith
        gcongr
      linarith
    · cases hb

/-- R177, R190 (c): the comparison of the reference format is exact. -/
theorem Value.isPositive_iff (v : Value) : v.isPositive = true ↔ 0 < v.toReal := by
  unfold Value.isPositive
  split
  · rename_i e he
    rw [v.bounds_eq] at he
    cases hs : e.sign with
    | some b => exact Enclosure.sign_sound (v.msg.bounds_hold _ e he) hs
    | none =>
      rw [Option.getD_none, v.msg.isPositive_iff, ← v.msg.toRealWith_of_bounds Config.namedReal e he]
      rfl
  · exact namedReals_positive_iff v.msg

end Sys2Proof.Machine
end

