-- ==== Sys2Proof/Laws/Contract.lean ====
section
/-! SUPPORT. What the numerics record of an instance gives, said once for each of its operations and for every format that
meets its contract (R190). -/

namespace Sys2Proof.Machine

@[simp] theorem HeldNum.asValue_exact (v : Value) : (HeldNum.exact v).asValue = v := rfl
@[simp] theorem HeldNum.asCode_code (c : Nat) : (HeldNum.code c).asCode = c := rfl

/-- R81: every format takes an LLR item that is a number of the format as it stands. -/
theorem value_item (f : NumFormat) {x : RealNum} (h : InFormat f x.toReal) : f.value (f.numerics.item x) = x.toReal := by
  cases f with
  | exact => rfl
  | other k =>
    obtain ⟨c, hc⟩ := h
    exact Classical.choose_spec (Config.otherFormat k).asItStands x c hc

theorem asCode_foldl_add (k : Nat) : ∀ (ms : List HeldNum) (l : HeldNum),
    (ms.foldl (NumFormat.other k).numerics.add l).asCode = (ms.map HeldNum.asCode).foldl (Config.numOther k).add l.asCode
  | [], _ => rfl
  | m :: ms, l => asCode_foldl_add k ms ((NumFormat.other k).numerics.add l m)

theorem exact_foldl_add : ∀ (ms : List HeldNum) (l : HeldNum), NumFormat.exact.value (ms.foldl NumFormat.exact.numerics.add l) =
    NumFormat.exact.value l + (ms.map NumFormat.exact.value).sum
  | [], l => by simp
  | m :: ms, l => by
    have h : NumFormat.exact.value (NumFormat.exact.numerics.add l m) =
        NumFormat.exact.value l + NumFormat.exact.value m := rfl
    rw [List.foldl_cons, exact_foldl_add ms, h, List.map_cons, List.sum_cons, add_assoc]

/-- R175, R190 (a). -/
theorem NumericsWF.cn {p : Params} (h : NumericsWF p) {xs : List HeldNum} (hx : xs ≠ []) :
    CheckValue p (p.num.value (p.num.numerics.cn xs)) (cnReal (xs.map p.num.value)) := by
  unfold CheckValue
  cases hp : p.num with
  | exact =>
    exact (Value.cn_toReal (xs := xs.map HeldNum.asValue) (by simpa)).trans (by rw [List.map_map]; rfl)
  | other k =>
    have := (h k hp).2.2.cn_close (xs.map HeldNum.asCode) (by simpa)
    rwa [List.map_map] at this

/-- R177, R182, R190 (b). -/
theorem NumericsWF.sum {p : Params} (h : NumericsWF p) (l : HeldNum) {ms : List HeldNum}
    (hm : ms.length = 2 ∨ ms.length = 3) :
    SumValue p (p.num.value (ms.foldl p.num.numerics.add l)) (p.num.value l + (ms.map p.num.value).sum) := by
  unfold SumValue
  cases hp : p.num with
  | exact => exact exact_foldl_add ms l
  | other k =>
    have := (h k hp).2.2.sum_close l.asCode (ms.map HeldNum.asCode) (by simpa)
    rwa [List.map_map, ← asCode_foldl_add] at this

/-- R177, R190 (c). -/
theorem NumericsWF.positive {p : Params} (h : NumericsWF p) (v : HeldNum) :
    p.num.numerics.isPositive v = true ↔ 0 < p.num.value v := by
  cases hp : p.num with
  | exact => exact v.asValue.isPositive_iff
  | other k => exact (h k hp).2.2.positive_exact v.asCode

end Sys2Proof.Machine
end

