-- ==== Sys2Proof/Laws/State.lean ====
section
/-! SUPPORT. One lemma for each field of State under each named update of it. -/

namespace Sys2Proof.Machine

/-! ### `State.respond` -/

@[simp] theorem State.respond_params (s : State) (st : Status) (aux : Imm) (p : Payload) :
    (s.respond st aux p).params = s.params := rfl
@[simp] theorem State.respond_derived (s : State) (st : Status) (aux : Imm) (p : Payload) :
    (s.respond st aux p).derived = s.derived := rfl
@[simp] theorem State.respond_initDone (s : State) (st : Status) (aux : Imm) (p : Payload) :
    (s.respond st aux p).initDone = s.initDone := rfl
@[simp] theorem State.respond_busy (s : State) (st : Status) (aux : Imm) (p : Payload) :
    (s.respond st aux p).busy = false := rfl
@[simp] theorem State.respond_abortPending (s : State) (st : Status) (aux : Imm) (p : Payload) :
    (s.respond st aux p).abortPending = false := rfl
@[simp] theorem State.respond_cmdWord (s : State) (st : Status) (aux : Imm) (p : Payload) :
    (s.respond st aux p).cmdWord = s.cmdWord := rfl
@[simp] theorem State.respond_operand (s : State) (st : Status) (aux : Imm) (p : Payload) :
    (s.respond st aux p).operand = s.operand := rfl
@[simp] theorem State.respond_decoding (s : State) (st : Status) (aux : Imm) (p : Payload) :
    (s.respond st aux p).decoding = false := rfl
@[simp] theorem State.respond_dec (s : State) (st : Status) (aux : Imm) (p : Payload) :
    (s.respond st aux p).dec = s.dec := rfl
@[simp] theorem State.respond_inputs (s : State) (st : Status) (aux : Imm) (p : Payload) :
    (s.respond st aux p).inputs = s.inputs := rfl
@[simp] theorem State.respond_responses (s : State) (st : Status) (aux : Imm) (p : Payload) :
    (s.respond st aux p).responses = ⟨st, aux, p⟩ :: s.responses := rfl

/-! ### `State.raise` -/

@[simp] theorem State.raise_params (s : State) (st : Status) : (s.raise st).params = s.params := rfl
@[simp] theorem State.raise_derived (s : State) (st : Status) : (s.raise st).derived = s.derived := rfl
@[simp] theorem State.raise_initDone (s : State) (st : Status) : (s.raise st).initDone = s.initDone := rfl
@[simp] theorem State.raise_busy (s : State) (st : Status) : (s.raise st).busy = false := rfl
@[simp] theorem State.raise_abortPending (s : State) (st : Status) : (s.raise st).abortPending = false := rfl
@[simp] theorem State.raise_cmdWord (s : State) (st : Status) : (s.raise st).cmdWord = s.cmdWord := rfl
@[simp] theorem State.raise_operand (s : State) (st : Status) : (s.raise st).operand = s.operand := rfl
@[simp] theorem State.raise_decoding (s : State) (st : Status) : (s.raise st).decoding = false := rfl
@[simp] theorem State.raise_dec (s : State) (st : Status) : (s.raise st).dec = s.dec := rfl
@[simp] theorem State.raise_inputs (s : State) (st : Status) : (s.raise st).inputs = s.inputs := rfl
@[simp] theorem State.raise_responses (s : State) (st : Status) :
    (s.raise st).responses = ⟨st, 0, []⟩ :: s.responses := rfl

/-! ### `State.accept` -/

@[simp] theorem State.accept_params (s : State) (w : Word) (p : Payload) : (s.accept w p).params = s.params := rfl
@[simp] theorem State.accept_derived (s : State) (w : Word) (p : Payload) : (s.accept w p).derived = s.derived := rfl
@[simp] theorem State.accept_initDone (s : State) (w : Word) (p : Payload) :
    (s.accept w p).initDone = s.initDone := rfl
@[simp] theorem State.accept_busy (s : State) (w : Word) (p : Payload) : (s.accept w p).busy = true := rfl
@[simp] theorem State.accept_abortPending (s : State) (w : Word) (p : Payload) :
    (s.accept w p).abortPending = s.abortPending := rfl
@[simp] theorem State.accept_cmdWord (s : State) (w : Word) (p : Payload) : (s.accept w p).cmdWord = w := rfl
@[simp] theorem State.accept_operand (s : State) (w : Word) (p : Payload) : (s.accept w p).operand = p := rfl
@[simp] theorem State.accept_decoding (s : State) (w : Word) (p : Payload) : (s.accept w p).decoding = false := rfl
@[simp] theorem State.accept_dec (s : State) (w : Word) (p : Payload) : (s.accept w p).dec = s.dec := rfl
@[simp] theorem State.accept_inputs (s : State) (w : Word) (p : Payload) : (s.accept w p).inputs = s.inputs := rfl
@[simp] theorem State.accept_responses (s : State) (w : Word) (p : Payload) :
    (s.accept w p).responses = s.responses := rfl

/-! ### `State.raiseAbort` -/

@[simp] theorem State.raiseAbort_params (s : State) : s.raiseAbort.params = s.params := rfl
@[simp] theorem State.raiseAbort_derived (s : State) : s.raiseAbort.derived = s.derived := rfl
@[simp] theorem State.raiseAbort_initDone (s : State) : s.raiseAbort.initDone = s.initDone := rfl
@[simp] theorem State.raiseAbort_busy (s : State) : s.raiseAbort.busy = s.busy := rfl
@[simp] theorem State.raiseAbort_abortPending (s : State) :
    s.raiseAbort.abortPending = (s.abortPending || (s.params.hasAbort && s.busy)) := rfl
@[simp] theorem State.raiseAbort_cmdWord (s : State) : s.raiseAbort.cmdWord = s.cmdWord := rfl
@[simp] theorem State.raiseAbort_operand (s : State) : s.raiseAbort.operand = s.operand := rfl
@[simp] theorem State.raiseAbort_decoding (s : State) : s.raiseAbort.decoding = s.decoding := rfl
@[simp] theorem State.raiseAbort_dec (s : State) : s.raiseAbort.dec = s.dec := rfl
@[simp] theorem State.raiseAbort_inputs (s : State) : s.raiseAbort.inputs = s.inputs := rfl
@[simp] theorem State.raiseAbort_responses (s : State) : s.raiseAbort.responses = s.responses := rfl

/-! ### `State.resetEvent` -/

@[simp] theorem State.resetEvent_params (s : State) : s.resetEvent.params = s.params := rfl
@[simp] theorem State.resetEvent_derived (s : State) : s.resetEvent.derived = Derived.reset := rfl
@[simp] theorem State.resetEvent_initDone (s : State) : s.resetEvent.initDone = false := rfl
@[simp] theorem State.resetEvent_busy (s : State) : s.resetEvent.busy = false := rfl
@[simp] theorem State.resetEvent_abortPending (s : State) : s.resetEvent.abortPending = false := rfl
@[simp] theorem State.resetEvent_cmdWord (s : State) : s.resetEvent.cmdWord = 0 := rfl
@[simp] theorem State.resetEvent_operand (s : State) : s.resetEvent.operand = [] := rfl
@[simp] theorem State.resetEvent_decoding (s : State) : s.resetEvent.decoding = false := rfl
@[simp] theorem State.resetEvent_dec (s : State) : s.resetEvent.dec = Decoder.reset := rfl
@[simp] theorem State.resetEvent_inputs (s : State) : s.resetEvent.inputs = s.inputs := rfl
@[simp] theorem State.resetEvent_responses (s : State) : s.resetEvent.responses = s.responses := rfl

/-! ### `State.withCommandWord` -/

@[simp] theorem State.withCommandWord_params (s : State) (w : Word) : (s.withCommandWord w).params = s.params := rfl
@[simp] theorem State.withCommandWord_derived (s : State) (w : Word) : (s.withCommandWord w).derived = s.derived := rfl
@[simp] theorem State.withCommandWord_initDone (s : State) (w : Word) :
    (s.withCommandWord w).initDone = s.initDone := rfl
@[simp] theorem State.withCommandWord_busy (s : State) (w : Word) : (s.withCommandWord w).busy = true := rfl
@[simp] theorem State.withCommandWord_abortPending (s : State) (w : Word) :
    (s.withCommandWord w).abortPending = s.abortPending := rfl
@[simp] theorem State.withCommandWord_cmdWord (s : State) (w : Word) : (s.withCommandWord w).cmdWord = w := rfl
@[simp] theorem State.withCommandWord_operand (s : State) (w : Word) : (s.withCommandWord w).operand = [] := rfl
@[simp] theorem State.withCommandWord_decoding (s : State) (w : Word) : (s.withCommandWord w).decoding = false := rfl
@[simp] theorem State.withCommandWord_dec (s : State) (w : Word) : (s.withCommandWord w).dec = s.dec := rfl
@[simp] theorem State.withCommandWord_inputs (s : State) (w : Word) :
    (s.withCommandWord w).inputs = coreFirst s.inputs := rfl
@[simp] theorem State.withCommandWord_responses (s : State) (w : Word) :
    (s.withCommandWord w).responses = s.responses := rfl

/-! ### the steps of a decode: fields outside DecoderState -/

@[simp] theorem State.initialise_params (s : State) (llr : List RealNum) :
    (s.initialise llr).params = s.params := by simp only [State.initialise]
@[simp] theorem State.initialise_derived (s : State) (llr : List RealNum) :
    (s.initialise llr).derived = s.derived := by simp only [State.initialise]
@[simp] theorem State.initialise_initDone (s : State) (llr : List RealNum) :
    (s.initialise llr).initDone = s.initDone := by simp only [State.initialise]
@[simp] theorem State.initialise_busy (s : State) (llr : List RealNum) :
    (s.initialise llr).busy = s.busy := by simp only [State.initialise]
@[simp] theorem State.initialise_abortPending (s : State) (llr : List RealNum) :
    (s.initialise llr).abortPending = s.abortPending := by simp only [State.initialise]
@[simp] theorem State.initialise_cmdWord (s : State) (llr : List RealNum) :
    (s.initialise llr).cmdWord = s.cmdWord := by simp only [State.initialise]
@[simp] theorem State.initialise_operand (s : State) (llr : List RealNum) :
    (s.initialise llr).operand = s.operand := by simp only [State.initialise]
@[simp] theorem State.initialise_decoding (s : State) (llr : List RealNum) :
    (s.initialise llr).decoding = true := by simp only [State.initialise]
@[simp] theorem State.initialise_inputs (s : State) (llr : List RealNum) :
    (s.initialise llr).inputs = s.inputs := by simp only [State.initialise]
@[simp] theorem State.initialise_responses (s : State) (llr : List RealNum) :
    (s.initialise llr).responses = s.responses := by simp only [State.initialise]
@[simp] theorem State.checkStep_params (s : State) : s.checkStep.params = s.params := by simp only [State.checkStep]
@[simp] theorem State.checkStep_derived (s : State) : s.checkStep.derived = s.derived := by simp only [State.checkStep]
@[simp] theorem State.checkStep_initDone (s : State) :
    s.checkStep.initDone = s.initDone := by simp only [State.checkStep]
@[simp] theorem State.checkStep_busy (s : State) : s.checkStep.busy = s.busy := by simp only [State.checkStep]
@[simp] theorem State.checkStep_abortPending (s : State) :
    s.checkStep.abortPending = s.abortPending := by simp only [State.checkStep]
@[simp] theorem State.checkStep_cmdWord (s : State) : s.checkStep.cmdWord = s.cmdWord := by simp only [State.checkStep]
@[simp] theorem State.checkStep_operand (s : State) : s.checkStep.operand = s.operand := by simp only [State.checkStep]
@[simp] theorem State.checkStep_decoding (s : State) :
    s.checkStep.decoding = s.decoding := by simp only [State.checkStep]
@[simp] theorem State.checkStep_inputs (s : State) : s.checkStep.inputs = s.inputs := by simp only [State.checkStep]
@[simp] theorem State.checkStep_responses (s : State) :
    s.checkStep.responses = s.responses := by simp only [State.checkStep]
@[simp] theorem State.hardStep_params (s : State) : s.hardStep.params = s.params := by simp only [State.hardStep]
@[simp] theorem State.hardStep_derived (s : State) : s.hardStep.derived = s.derived := by simp only [State.hardStep]
@[simp] theorem State.hardStep_initDone (s : State) : s.hardStep.initDone = s.initDone := by simp only [State.hardStep]
@[simp] theorem State.hardStep_busy (s : State) : s.hardStep.busy = s.busy := by simp only [State.hardStep]
@[simp] theorem State.hardStep_abortPending (s : State) :
    s.hardStep.abortPending = s.abortPending := by simp only [State.hardStep]
@[simp] theorem State.hardStep_cmdWord (s : State) : s.hardStep.cmdWord = s.cmdWord := by simp only [State.hardStep]
@[simp] theorem State.hardStep_operand (s : State) : s.hardStep.operand = s.operand := by simp only [State.hardStep]
@[simp] theorem State.hardStep_decoding (s : State) : s.hardStep.decoding = s.decoding := by simp only [State.hardStep]
@[simp] theorem State.hardStep_inputs (s : State) : s.hardStep.inputs = s.inputs := by simp only [State.hardStep]
@[simp] theorem State.hardStep_responses (s : State) :
    s.hardStep.responses = s.responses := by simp only [State.hardStep]
@[simp] theorem State.parityStep_params (s : State) : s.parityStep.params = s.params := by simp only [State.parityStep]
@[simp] theorem State.parityStep_derived (s : State) :
    s.parityStep.derived = s.derived := by simp only [State.parityStep]
@[simp] theorem State.parityStep_initDone (s : State) :
    s.parityStep.initDone = s.initDone := by simp only [State.parityStep]
@[simp] theorem State.parityStep_busy (s : State) : s.parityStep.busy = s.busy := by simp only [State.parityStep]
@[simp] theorem State.parityStep_abortPending (s : State) :
    s.parityStep.abortPending = s.abortPending := by simp only [State.parityStep]
@[simp] theorem State.parityStep_cmdWord (s : State) :
    s.parityStep.cmdWord = s.cmdWord := by simp only [State.parityStep]
@[simp] theorem State.parityStep_operand (s : State) :
    s.parityStep.operand = s.operand := by simp only [State.parityStep]
@[simp] theorem State.parityStep_decoding (s : State) :
    s.parityStep.decoding = s.decoding := by simp only [State.parityStep]
@[simp] theorem State.parityStep_inputs (s : State) : s.parityStep.inputs = s.inputs := by simp only [State.parityStep]
@[simp] theorem State.parityStep_responses (s : State) :
    s.parityStep.responses = s.responses := by simp only [State.parityStep]
@[simp] theorem State.bitStep_params (s : State) : s.bitStep.params = s.params := by simp only [State.bitStep]
@[simp] theorem State.bitStep_derived (s : State) : s.bitStep.derived = s.derived := by simp only [State.bitStep]
@[simp] theorem State.bitStep_initDone (s : State) : s.bitStep.initDone = s.initDone := by simp only [State.bitStep]
@[simp] theorem State.bitStep_busy (s : State) : s.bitStep.busy = s.busy := by simp only [State.bitStep]
@[simp] theorem State.bitStep_abortPending (s : State) :
    s.bitStep.abortPending = s.abortPending := by simp only [State.bitStep]
@[simp] theorem State.bitStep_cmdWord (s : State) : s.bitStep.cmdWord = s.cmdWord := by simp only [State.bitStep]
@[simp] theorem State.bitStep_operand (s : State) : s.bitStep.operand = s.operand := by simp only [State.bitStep]
@[simp] theorem State.bitStep_decoding (s : State) : s.bitStep.decoding = s.decoding := by simp only [State.bitStep]
@[simp] theorem State.bitStep_inputs (s : State) : s.bitStep.inputs = s.inputs := by simp only [State.bitStep]
@[simp] theorem State.bitStep_responses (s : State) : s.bitStep.responses = s.responses := by simp only [State.bitStep]

/-! ### the steps of a decode: DecoderState -/

@[simp] theorem State.initialise_dec_llr0 (s : State) (llr : List RealNum) :
    (s.initialise llr).dec.llr0 = Vector.ofFn fun n : Fin 174 => s.numerics.item (llr.getD n (.rat 0)) := by
  simp only [State.initialise]
@[simp] theorem State.initialise_dec_b2c (s : State) (llr : List RealNum) :
    (s.initialise llr).dec.b2c = initialB2C (Vector.ofFn fun n : Fin 174 => s.numerics.item (llr.getD n (.rat 0))) := by
  simp only [State.initialise]
@[simp] theorem State.initialise_dec_c2b (s : State) (llr : List RealNum) :
    (s.initialise llr).dec.c2b = s.dec.c2b := by simp only [State.initialise]
@[simp] theorem State.initialise_dec_iter (s : State) (llr : List RealNum) :
    (s.initialise llr).dec.iter = 0 := by simp only [State.initialise]
@[simp] theorem State.initialise_dec_hist (s : State) (llr : List RealNum) :
    (s.initialise llr).dec.hist = [] := by simp only [State.initialise]
@[simp] theorem State.initialise_dec_hard (s : State) (llr : List RealNum) :
    (s.initialise llr).dec.hard = s.dec.hard := by simp only [State.initialise]
@[simp] theorem State.initialise_dec_nunsat (s : State) (llr : List RealNum) :
    (s.initialise llr).dec.nunsat = s.dec.nunsat := by simp only [State.initialise]
@[simp] theorem State.checkStep_dec_llr0 (s : State) :
    s.checkStep.dec.llr0 = s.dec.llr0 := by simp only [State.checkStep]
@[simp] theorem State.checkStep_dec_b2c (s : State) : s.checkStep.dec.b2c = s.dec.b2c := by simp only [State.checkStep]
@[simp] theorem State.checkStep_dec_c2b (s : State) :
    s.checkStep.dec.c2b = checkUpdate s.numerics s.params.nm s.derived s.dec.b2c := by simp only [State.checkStep]
@[simp] theorem State.checkStep_dec_iter (s : State) :
    s.checkStep.dec.iter = s.dec.iter + 1 := by simp only [State.checkStep]
@[simp] theorem State.checkStep_dec_hist (s : State) :
    s.checkStep.dec.hist = s.dec.hist := by simp only [State.checkStep]
@[simp] theorem State.checkStep_dec_hard (s : State) :
    s.checkStep.dec.hard = s.dec.hard := by simp only [State.checkStep]
@[simp] theorem State.checkStep_dec_nunsat (s : State) :
    s.checkStep.dec.nunsat = s.dec.nunsat := by simp only [State.checkStep]
@[simp] theorem State.hardStep_dec_llr0 (s : State) : s.hardStep.dec.llr0 = s.dec.llr0 := by simp only [State.hardStep]
@[simp] theorem State.hardStep_dec_b2c (s : State) : s.hardStep.dec.b2c = s.dec.b2c := by simp only [State.hardStep]
@[simp] theorem State.hardStep_dec_c2b (s : State) : s.hardStep.dec.c2b = s.dec.c2b := by simp only [State.hardStep]
@[simp] theorem State.hardStep_dec_iter (s : State) : s.hardStep.dec.iter = s.dec.iter := by simp only [State.hardStep]
@[simp] theorem State.hardStep_dec_hist (s : State) : s.hardStep.dec.hist = s.dec.hist := by simp only [State.hardStep]
@[simp] theorem State.hardStep_dec_hard (s : State) :
    s.hardStep.dec.hard = hardDecision s.numerics s.derived s.dec.llr0 s.dec.c2b := by simp only [State.hardStep]
@[simp] theorem State.hardStep_dec_nunsat (s : State) :
    s.hardStep.dec.nunsat = s.dec.nunsat := by simp only [State.hardStep]
@[simp] theorem State.parityStep_dec_llr0 (s : State) :
    s.parityStep.dec.llr0 = s.dec.llr0 := by simp only [State.parityStep]
@[simp] theorem State.parityStep_dec_b2c (s : State) :
    s.parityStep.dec.b2c = s.dec.b2c := by simp only [State.parityStep]
@[simp] theorem State.parityStep_dec_c2b (s : State) :
    s.parityStep.dec.c2b = s.dec.c2b := by simp only [State.parityStep]
@[simp] theorem State.parityStep_dec_iter (s : State) :
    s.parityStep.dec.iter = s.dec.iter := by simp only [State.parityStep]
@[simp] theorem State.parityStep_dec_hist (s : State) :
    s.parityStep.dec.hist = s.dec.hist ++ [parityCount s.params.nm s.derived.deg s.dec.hard.toList] := by
  simp only [State.parityStep]
@[simp] theorem State.parityStep_dec_hard (s : State) :
    s.parityStep.dec.hard = s.dec.hard := by simp only [State.parityStep]
@[simp] theorem State.parityStep_dec_nunsat (s : State) :
    s.parityStep.dec.nunsat = parityCount s.params.nm s.derived.deg s.dec.hard.toList := by
  simp only [State.parityStep]
@[simp] theorem State.bitStep_dec_llr0 (s : State) : s.bitStep.dec.llr0 = s.dec.llr0 := by simp only [State.bitStep]
@[simp] theorem State.bitStep_dec_b2c (s : State) :
    s.bitStep.dec.b2c = bitUpdate s.numerics s.derived s.dec.llr0 s.dec.c2b := by simp only [State.bitStep]
@[simp] theorem State.bitStep_dec_c2b (s : State) : s.bitStep.dec.c2b = s.dec.c2b := by simp only [State.bitStep]
@[simp] theorem State.bitStep_dec_iter (s : State) : s.bitStep.dec.iter = s.dec.iter := by simp only [State.bitStep]
@[simp] theorem State.bitStep_dec_hist (s : State) : s.bitStep.dec.hist = s.dec.hist := by simp only [State.bitStep]
@[simp] theorem State.bitStep_dec_hard (s : State) : s.bitStep.dec.hard = s.dec.hard := by simp only [State.bitStep]
@[simp] theorem State.bitStep_dec_nunsat (s : State) :
    s.bitStep.dec.nunsat = s.dec.nunsat := by simp only [State.bitStep]

/-! ### The numerics record, which no step changes -/

@[simp] theorem State.initialise_numerics (s : State) (llr : List RealNum) : (s.initialise llr).numerics = s.numerics := by
  simp only [State.numerics, State.initialise_params]
@[simp] theorem State.checkStep_numerics (s : State) : s.checkStep.numerics = s.numerics := by
  simp only [State.numerics, State.checkStep_params]
@[simp] theorem State.hardStep_numerics (s : State) : s.hardStep.numerics = s.numerics := by
  simp only [State.numerics, State.hardStep_params]
@[simp] theorem State.parityStep_numerics (s : State) : s.parityStep.numerics = s.numerics := by
  simp only [State.numerics, State.parityStep_params]
@[simp] theorem State.bitStep_numerics (s : State) : s.bitStep.numerics = s.numerics := by
  simp only [State.numerics, State.bitStep_params]

end Sys2Proof.Machine
end

