-- ==== Sys2Proof/Laws/Ops.lean ====
section
/-! SUPPORT. One lemma for each shared operation that says all it can answer, and the lemmas of the operand forms. -/

namespace Sys2Proof.Machine

/-! ### The checks of R250 -/

theorem State.whenInitialised_of_done {s : State} (h : s.initDone = true) (k : Outcome) : s.whenInitialised k = k :=
  if_pos h

theorem State.whenInitialised_of_not {s : State} (h : s.initDone = false) (k : Outcome) :
    s.whenInitialised k = .next (s.raise .notInitialised) := if_neg (by simp [h])

theorem State.whenInitialised_eq_next {s t : State} {k : Outcome} :
    s.whenInitialised k = .next t ↔
      s.initDone = true ∧ k = .next t ∨ s.initDone = false ∧ t = s.raise .notInitialised := by
  cases h : s.initDone
  · simp [s.whenInitialised_of_not h, eq_comm]
  · simp [s.whenInitialised_of_done h]

@[simp] theorem State.whenLength_true (s : State) (k : Outcome) : s.whenLength true k = k := rfl

@[simp] theorem State.whenLength_false (s : State) (k : Outcome) :
    s.whenLength false k = .next (s.raise .invalidLength) := rfl

theorem State.whenLength_eq_next {s t : State} {ok : Bool} {k : Outcome} :
    s.whenLength ok k = .next t ↔ ok = true ∧ k = .next t ∨ ok = false ∧ t = s.raise .invalidLength := by
  cases ok <;> simp [eq_comm]

@[simp] theorem State.whenIndex_true (s : State) (k : Outcome) : s.whenIndex true k = k := rfl

@[simp] theorem State.whenIndex_false (s : State) (k : Outcome) :
    s.whenIndex false k = .next (s.raise .invalidIndex) := rfl

theorem State.whenIndex_eq_next {s t : State} {ok : Bool} {k : Outcome} :
    s.whenIndex ok k = .next t ↔ ok = true ∧ k = .next t ∨ ok = false ∧ t = s.raise .invalidIndex := by
  cases ok <;> simp [eq_comm]

/-! ### Reading operands -/

@[simp] theorem bitItems_length (bs : List Bool) : (bitItems bs).length = bs.length := List.length_map ..
@[simp] theorem symItems_length (vs : List Sym) : (symItems vs).length = vs.length := List.length_map ..
@[simp] theorem idxItems_length (ns : List Nat) : (idxItems ns).length = ns.length := List.length_map ..

@[simp] theorem bitsOf_bitItems : ∀ bs : List Bool, bitsOf (bitItems bs) = some bs
  | [] => rfl
  | b :: bs => by
    have ih := bitsOf_bitItems bs
    simp only [bitItems] at ih
    simp [bitItems, bitsOf, ih]

theorem bitsOf_eq_some : ∀ {p : Payload} {bs : List Bool}, bitsOf p = some bs ↔ p = bitItems bs
  | [], bs => by cases bs <;> simp [bitsOf, bitItems]
  | .bit b :: p, bs => by
    cases bs with
    | nil => simp [bitsOf, bitItems]
    | cons c bs => simp [bitsOf, bitsOf_eq_some (p := p), bitItems, and_comm]
  | .sym _ :: _, bs => by cases bs <;> simp [bitsOf, bitItems]
  | .idx _ :: _, bs => by cases bs <;> simp [bitsOf, bitItems]
  | .llr _ :: _, bs => by cases bs <;> simp [bitsOf, bitItems]

@[simp] theorem symsOf_symItems : ∀ vs : List Sym, symsOf (symItems vs) = some vs
  | [] => rfl
  | v :: vs => by
    have ih := symsOf_symItems vs
    simp only [symItems] at ih
    simp [symItems, symsOf, ih]

theorem symsOf_eq_some : ∀ {p : Payload} {vs : List Sym}, symsOf p = some vs ↔ p = symItems vs
  | [], vs => by cases vs <;> simp [symsOf, symItems]
  | .sym v :: p, vs => by
    cases vs with
    | nil => simp [symsOf, symItems]
    | cons c vs => simp [symsOf, symsOf_eq_some (p := p), symItems, and_comm]
  | .bit _ :: _, vs => by cases vs <;> simp [symsOf, symItems]
  | .idx _ :: _, vs => by cases vs <;> simp [symsOf, symItems]
  | .llr _ :: _, vs => by cases vs <;> simp [symsOf, symItems]

theorem LlrRead.cons_eq_values {q : RealNum} {r : LlrRead} {qs : List RealNum} :
    r.cons q = .values qs ↔ ∃ rs, r = .values rs ∧ qs = q :: rs := by
  cases r <;> simp [LlrRead.cons, eq_comm]

theorem llrsOf_eq_values : ∀ {p : Payload} {qs : List RealNum},
    llrsOf p = .values qs ↔ p = qs.map fun q => Item.llr (.finite q)
  | [], qs => by cases qs <;> simp [llrsOf]
  | .llr (.finite q) :: p, qs => by
    simp only [llrsOf, LlrRead.cons_eq_values, llrsOf_eq_values (p := p)]
    cases qs with
    | nil => simp
    | cons c cs =>
      constructor
      · rintro ⟨rs, rfl, h⟩; cases h; rfl
      · intro h; simp at h; exact ⟨cs, h.2, by rw [h.1]⟩
  | .llr (.nonFinite _) :: _, qs => by cases qs <;> simp [llrsOf]
  | .bit _ :: _, qs => by cases qs <;> simp [llrsOf]
  | .sym _ :: _, qs => by cases qs <;> simp [llrsOf]
  | .idx _ :: _, qs => by cases qs <;> simp [llrsOf]

theorem State.withBits_of {s : State} {bs : List Bool} (h : s.operand = bitItems bs) (k : List Bool → State) :
    s.withBits k = .next (k bs) := by simp [State.withBits, h]

theorem State.withBits_eq_next {s t : State} {k : List Bool → State} :
    s.withBits k = .next t ↔ ∃ bs, s.operand = bitItems bs ∧ t = k bs := by
  unfold State.withBits
  split
  · rename_i bs h
    rw [bitsOf_eq_some] at h
    constructor
    · intro e; cases e; exact ⟨bs, h, rfl⟩
    · rintro ⟨cs, e, rfl⟩
      have : bs = cs := by simpa using congrArg bitsOf (h.symm.trans e)
      rw [this]
  · rename_i h
    constructor
    · intro e; cases e
    · rintro ⟨cs, e, _⟩; rw [e, bitsOf_bitItems] at h; cases h

theorem State.withSyms_of {s : State} {vs : List Sym} (h : s.operand = symItems vs) (k : List Sym → State) :
    s.withSyms k = .next (k vs) := by simp [State.withSyms, h]

theorem State.withSyms_eq_next {s t : State} {k : List Sym → State} :
    s.withSyms k = .next t ↔ ∃ vs, s.operand = symItems vs ∧ t = k vs := by
  unfold State.withSyms
  split
  · rename_i vs h
    rw [symsOf_eq_some] at h
    constructor
    · intro e; cases e; exact ⟨vs, h, rfl⟩
    · rintro ⟨ws, e, rfl⟩
      have : vs = ws := by simpa using congrArg symsOf (h.symm.trans e)
      rw [this]
  · rename_i h
    constructor
    · intro e; cases e
    · rintro ⟨ws, e, _⟩; rw [e, symsOf_symItems] at h; cases h

theorem State.withLlrs_of {s : State} {qs : List RealNum} (h : s.operand = qs.map fun q => Item.llr (.finite q))
    (k : List RealNum → State) : s.withLlrs k = .next (k qs) := by
  simp [State.withLlrs, llrsOf_eq_values.mpr h]

theorem State.withLlrs_eq_next {s t : State} {k : List RealNum → State} :
    s.withLlrs k = .next t ↔ ∃ qs : List RealNum, (s.operand = qs.map fun q => Item.llr (.finite q)) ∧ t = k qs := by
  simp only [← llrsOf_eq_values]
  cases h : llrsOf s.operand <;> simp [State.withLlrs, h, eq_comm]

/-! ### Putting bits together -/

theorem slice_length {α : Type} (lo hi : Nat) (b : List α) (h : hi ≤ b.length) :
    (slice lo hi b).length = hi - lo := by
  simp only [slice, List.length_take, List.length_drop]; omega

/-- R79: the value of three bits, most significant first. -/
theorem symOfBits_toNat (a b c : Bool) : (symOfBits a b c).toNat = 4 * a.toNat + 2 * b.toNat + c.toNat := by
  revert a b c; decide

theorem bitsOfSym_symOfBits (a b c : Bool) : bitsOfSym (symOfBits a b c) = [a, b, c] := by
  revert a b c; decide

theorem symsOfBits_bitsOfSym (v : Sym) : symsOfBits (bitsOfSym v) = [v] := by
  revert v; decide

theorem symsOfBits_length : ∀ (k : Nat) (bs : List Bool), bs.length = 3 * k → (symsOfBits bs).length = k
  | 0, [], _ => rfl
  | 0, _ :: _, h => by simp at h
  | k + 1, [], h => by simp at h
  | k + 1, [_], h => by simp at h; omega
  | k + 1, [_, _], h => by simp at h; omega
  | k + 1, _ :: _ :: _ :: bs, h => by
    simp only [symsOfBits, List.length_cons]
    rw [symsOfBits_length k bs (by simp at h; omega)]

@[simp] theorem crcBits_length (r : BitVec 14) : (crcBits r).length = 14 := by simp [crcBits]

/-- R80: item i is bit `13 - i`. -/
theorem crcBits_getElem (r : BitVec 14) (i : Nat) (h : i < (crcBits r).length) :
    (crcBits r)[i] = r.getLsbD (13 - i) := by
  simp [crcBits]

/-! ### The response word -/

theorem Status.code_injective : ∀ {a b : Status}, a.code = b.code → a = b := by
  intro a b h; revert h; cases a <;> cases b <;> decide

end Sys2Proof.Machine
end

