-- ==== Sys2Proof/Laws/PerInstr.lean ====
section
/-! SUPPORT. The families of statements that are made for each operation. -/

namespace Sys2Proof.Laws

/-- R71, R74, R75: the three fields of an operation's command word, and which words of the map have no immediate. -/
def EncodingFields.Statement (i : Instr) : Prop :=
  (encode i).field 0 8 = i.op ∧ (encode i).field 8 8 = 0 ∧ (encode i).field 16 16 = i.imm ∧
    i.op.toNat ≤ 0x0B ∧ (i.op.toNat < 0x09 → i.imm = 0)

/-- R71: the fields of a command word built from its fields. -/
theorem commandWord_fields (imm : Imm) (op : BitVec 8) :
    (commandWord imm op).field 0 8 = op ∧ (commandWord imm op).field 8 8 = 0 ∧
      (commandWord imm op).field 16 16 = imm := by
  refine ⟨?_, ?_, ?_⟩ <;> ext k hk <;>
    simp only [commandWord, Word.field, BitVec.getElem_extractLsb', BitVec.getLsbD_append]
  · simp [hk]
  · simp [show ¬ 8 ≤ k by omega]
  · simp [show ¬ 16 + k < 8 by omega, show ¬ 16 + k - 8 < 8 by omega, show 16 + k - 8 - 8 = k by omega,
      BitVec.getLsbD_eq_getElem hk]

theorem EncodingFields.init : EncodingFields.Statement .init :=
  have h := commandWord_fields 0 0x00
  ⟨h.1, h.2.1, h.2.2, (by decide : (0x00#8).toNat ≤ 0x0B), fun _ => rfl⟩

theorem EncodingFields.crc14Enc : EncodingFields.Statement .crc14Enc :=
  have h := commandWord_fields 0 0x01
  ⟨h.1, h.2.1, h.2.2, (by decide : (0x01#8).toNat ≤ 0x0B), fun _ => rfl⟩

theorem EncodingFields.crc14Vfy : EncodingFields.Statement .crc14Vfy :=
  have h := commandWord_fields 0 0x02
  ⟨h.1, h.2.1, h.2.2, (by decide : (0x02#8).toNat ≤ 0x0B), fun _ => rfl⟩

theorem EncodingFields.grayEnc : EncodingFields.Statement .grayEnc :=
  have h := commandWord_fields 0 0x03
  ⟨h.1, h.2.1, h.2.2, (by decide : (0x03#8).toNat ≤ 0x0B), fun _ => rfl⟩

theorem EncodingFields.grayDec : EncodingFields.Statement .grayDec :=
  have h := commandWord_fields 0 0x04
  ⟨h.1, h.2.1, h.2.2, (by decide : (0x04#8).toNat ≤ 0x0B), fun _ => rfl⟩

theorem EncodingFields.grayMap : EncodingFields.Statement .grayMap :=
  have h := commandWord_fields 0 0x05
  ⟨h.1, h.2.1, h.2.2, (by decide : (0x05#8).toNat ≤ 0x0B), fun _ => rfl⟩

theorem EncodingFields.grayUnmap : EncodingFields.Statement .grayUnmap :=
  have h := commandWord_fields 0 0x06
  ⟨h.1, h.2.1, h.2.2, (by decide : (0x06#8).toNat ≤ 0x0B), fun _ => rfl⟩

theorem EncodingFields.ldpcEnc : EncodingFields.Statement .ldpcEnc :=
  have h := commandWord_fields 0 0x07
  ⟨h.1, h.2.1, h.2.2, (by decide : (0x07#8).toNat ≤ 0x0B), fun _ => rfl⟩

theorem EncodingFields.ldpcSyn : EncodingFields.Statement .ldpcSyn :=
  have h := commandWord_fields 0 0x08
  ⟨h.1, h.2.1, h.2.2, (by decide : (0x08#8).toNat ≤ 0x0B), fun _ => rfl⟩

theorem EncodingFields.fgNm (c : Imm) : EncodingFields.Statement (.fgNm c) :=
  have h := commandWord_fields c 0x09
  ⟨h.1, h.2.1, h.2.2, (by decide : (0x09#8).toNat ≤ 0x0B), fun h => absurd h (by decide : ¬ (0x09#8).toNat < 0x09)⟩

theorem EncodingFields.fgMn (n : Imm) : EncodingFields.Statement (.fgMn n) :=
  have h := commandWord_fields n 0x0A
  ⟨h.1, h.2.1, h.2.2, (by decide : (0x0A#8).toNat ≤ 0x0B), fun h => absurd h (by decide : ¬ (0x0A#8).toNat < 0x09)⟩

theorem EncodingFields.bpDec (m : Imm) : EncodingFields.Statement (.bpDec m) :=
  have h := commandWord_fields m 0x0B
  ⟨h.1, h.2.1, h.2.2, (by decide : (0x0B#8).toNat ≤ 0x0B), fun h => absurd h (by decide : ¬ (0x0B#8).toNat < 0x09)⟩

end Sys2Proof.Laws
end

