-- ==== Sys2Proof/Laws/Step.lean ====
section
/-! SUPPORT. What an operation, an iteration and a step of the machine can answer, each said once. -/

namespace Sys2Proof.Machine

/-- What an operation that ends in one step answers: a fault of the checks of R250, or its result. -/
def State.Answered (s t : State) : Prop :=
  s.initDone = false ∧ t = s.raise .notInitialised ∨ t = s.raise .invalidLength ∨ t = s.raise .invalidIndex ∨
    ∃ aux p, t = s.respond .ok aux p

theorem execInit_next {s t : State} (h : execInit s = .next t) :
    t = s.raise .invalidLength ∨ t = s.raise .graphInvalid ∧ graphOk s.params.nm = false ∨
      graphOk s.params.nm = true ∧
        t = { s with derived := buildDerived s.params.nm, initDone := true }.respond .ok 0 [] := by
  rcases State.whenLength_eq_next.mp h with ⟨_, h⟩ | ⟨_, h⟩
  · cases hg : graphOk s.params.nm <;> simp [hg] at h <;> simp [← h]
  · exact .inl h

theorem execBits_next {s t : State} {ok : Bool} {k : List Bool → State}
    (h : (s.whenInitialised <| s.whenLength ok <| s.withBits k) = .next t)
    (hk : ∀ bs, ∃ aux p, k bs = s.respond .ok aux p) : s.Answered t := by
  rcases State.whenInitialised_eq_next.mp h with ⟨_, h⟩ | h
  · rcases State.whenLength_eq_next.mp h with ⟨_, h⟩ | ⟨_, h⟩
    · obtain ⟨bs, _, rfl⟩ := State.withBits_eq_next.mp h
      exact .inr (.inr (.inr (hk bs)))
    · exact .inr (.inl h)
  · exact .inl h

theorem execSyms_next {s t : State} {k : List Sym → State} (h : s.withSyms k = .next t)
    (hk : ∀ vs, ∃ aux p, k vs = s.respond .ok aux p) : s.Answered t := by
  obtain ⟨vs, _, rfl⟩ := State.withSyms_eq_next.mp h
  exact .inr (.inr (.inr (hk vs)))

theorem execRead_next {s t u : State} {ok idx : Bool}
    (h : (s.whenInitialised <| s.whenLength ok <| s.whenIndex idx <| .next u) = .next t)
    (hu : ∃ aux p, u = s.respond .ok aux p) : s.Answered t := by
  rcases State.whenInitialised_eq_next.mp h with ⟨_, h⟩ | h
  · rcases State.whenLength_eq_next.mp h with ⟨_, h⟩ | ⟨_, h⟩
    · rcases State.whenIndex_eq_next.mp h with ⟨_, h⟩ | ⟨_, h⟩
      · cases h; exact .inr (.inr (.inr hu))
      · exact .inr (.inr (.inl h))
    · exact .inr (.inl h)
  · exact .inl h

/-- Every operation but `INIT` and `BP.DEC` changes nothing but the response and what a response clears. -/
theorem exec_answered {i : Instr} {s t : State} (h : exec i s = .next t) (hi : i ≠ .init)
    (hb : ∀ m, i ≠ .bpDec m) : s.Answered t := by
  cases i with
  | init => exact absurd rfl hi
  | bpDec m => exact absurd rfl (hb m)
  | crc14Enc => exact execBits_next h fun _ => ⟨_, _, rfl⟩
  | crc14Vfy => exact execBits_next h fun _ => ⟨_, _, rfl⟩
  | grayMap => exact execBits_next h fun _ => ⟨_, _, rfl⟩
  | ldpcEnc => exact execBits_next h fun _ => ⟨_, _, rfl⟩
  | ldpcSyn => exact execBits_next h fun _ => ⟨_, _, rfl⟩
  | grayEnc =>
    rcases State.whenInitialised_eq_next.mp h with ⟨_, h⟩ | h
    · rcases State.whenLength_eq_next.mp h with ⟨_, h⟩ | ⟨_, h⟩
      · exact execSyms_next h fun _ => ⟨_, _, rfl⟩
      · exact .inr (.inl h)
    · exact .inl h
  | grayDec =>
    rcases State.whenInitialised_eq_next.mp h with ⟨_, h⟩ | h
    · rcases State.whenLength_eq_next.mp h with ⟨_, h⟩ | ⟨_, h⟩
      · exact execSyms_next h fun _ => ⟨_, _, rfl⟩
      · exact .inr (.inl h)
    · exact .inl h
  | grayUnmap =>
    rcases State.whenInitialised_eq_next.mp h with ⟨_, h⟩ | h
    · exact execSyms_next h fun _ => ⟨_, _, rfl⟩
    · exact .inl h
  | fgNm c => exact execRead_next h ⟨_, _, rfl⟩
  | fgMn n => exact execRead_next h ⟨_, _, rfl⟩

/-- What can follow the count of step 3 (R179 to R183, R187), in the order of R174. -/
theorem State.afterParity_cases (s : State) (m : Imm) :
    s.accepted = true ∧ s.afterParity m = s.respond .ok (BitVec.ofNat 16 s.dec.iter) (bitItems s.dec.hard.toList) ∨
      s.accepted = false ∧
        (StagPolicy.eval s.params.stag s.dec.hist = true ∧ s.afterParity m = s.raise .nonConvergent ∨
          StagPolicy.eval s.params.stag s.dec.hist = false ∧
            (m.toNat ≤ s.dec.iter ∧ s.afterParity m = s.bitStep.raise .maxIterationsExceeded ∨
              s.dec.iter < m.toNat ∧
                (s.params.hasAbort = true ∧ s.abortPending = true ∧ s.afterParity m = s.bitStep.raise .aborted ∨
                  (s.params.hasAbort && s.abortPending) = false ∧ s.afterParity m = s.bitStep))) := by
  unfold State.afterParity State.endIteration
  cases s.accepted
  · cases StagPolicy.eval s.params.stag s.dec.hist
    · by_cases hm : m.toNat ≤ s.dec.iter
      · simp [hm]
      · cases h1 : s.params.hasAbort <;> cases h2 : s.abortPending <;> simp [h1, h2, hm, not_le.mp hm]
    · simp
  · simp

/-- What `BP.DEC` answers. -/
theorem execBpDec_next {m : Imm} {s t : State} (h : execBpDec m s = .next t) :
    s.decoding = true ∧ t = s.iteration m ∨
      s.decoding = false ∧
        (s.initDone = false ∧ t = s.raise .notInitialised ∨
          s.initDone = true ∧
            (s.operand.length ≠ 174 ∧ t = s.raise .invalidLength ∨
              ∃ llr : List RealNum, (s.operand = llr.map fun q => Item.llr (.finite q)) ∧ llr.length = 174 ∧
                t = s.startDecode m llr)) := by
  unfold execBpDec at h
  cases hd : s.decoding
  · rw [hd, if_neg (by simp)] at h
    refine .inr ⟨rfl, ?_⟩
    rcases State.whenInitialised_eq_next.mp h with ⟨hi, h⟩ | h
    · refine .inr ⟨hi, ?_⟩
      rcases State.whenLength_eq_next.mp h with ⟨hl, h⟩ | ⟨hl, h⟩
      · obtain ⟨llr, he, rfl⟩ := State.withLlrs_eq_next.mp h
        refine .inr ⟨llr, he, ?_, rfl⟩
        simpa [he] using hl
      · exact .inl ⟨by simpa using hl, h⟩
    · exact .inl h
  · rw [hd, if_pos rfl] at h
    cases h
    exact .inl ⟨rfl, rfl⟩

/-- What CORE's own step answers. -/
theorem coreTurn_next {s t : State} (h : coreTurn s = .next t) :
    s.busy = false ∧ t = s ∨
      s.busy = true ∧ ((∃ i, decode s.cmdWord = .ok i ∧ exec i s = .next t) ∨
        (∃ e, decode s.cmdWord = .error e) ∧ t = s.raise .invalidOp) := by
  unfold coreTurn at h
  cases hb : s.busy
  · rw [hb, if_neg (by simp)] at h
    cases h
    exact .inl ⟨rfl, rfl⟩
  · rw [hb, if_pos rfl] at h
    refine .inr ⟨rfl, ?_⟩
    split at h
    · rename_i i hi; exact .inl ⟨i, hi, h⟩
    · rename_i e he; cases h; exact .inr ⟨⟨e, he⟩, rfl⟩

/-- What a step of the machine answers: CORE's own step, or one event of the host or the environment. -/
theorem step_next {s t : State} (h : step s = .next t) :
    (s.inputs = [] ∨ ∃ w p rest, s.inputs = .command w p :: rest ∧ s.busy = true) ∧ coreTurn s = .next t ∨
      ∃ rest,
        s.inputs = .coreTurn :: rest ∧ coreTurn { s with inputs := rest } = .next t ∨
          s.inputs = .reset :: rest ∧ t = { s with inputs := rest }.resetEvent ∨
          s.inputs = .abort :: rest ∧ t = { s with inputs := rest }.raiseAbort ∨
          ∃ w p, s.inputs = .command w p :: rest ∧ s.busy = false ∧ t = { s with inputs := rest }.accept w p := by
  unfold step turn at h
  split at h
  · rename_i hi; exact .inl ⟨.inl hi, h⟩
  · rename_i rest hi; exact .inr ⟨rest, .inl ⟨hi, h⟩⟩
  · rename_i rest hi; cases h; exact .inr ⟨rest, .inr (.inl ⟨hi, rfl⟩)⟩
  · rename_i rest hi; cases h; exact .inr ⟨rest, .inr (.inr (.inl ⟨hi, rfl⟩))⟩
  · rename_i w p rest hi
    cases hb : s.busy
    · rw [hb, if_neg (by simp)] at h
      cases h
      exact .inr ⟨rest, .inr (.inr (.inr ⟨w, p, hi, rfl, rfl⟩))⟩
    · rw [hb, if_pos rfl] at h
      exact .inl ⟨.inr ⟨w, p, rest, hi, rfl⟩, h⟩

end Sys2Proof.Machine
end

