-- ==== Sys2Proof/Tests/Tables.lean ====
section
/-! SUPPORT. The synthetic tables S1 of 96_synthetic_tables.md, a pair that satisfies `TablesOk`. The rows of `GEN` are read
as that file writes them, the first column first. -/

namespace Sys2Proof.Tests

open Sys2Proof Sys2Proof.Machine

def genRows0 : List (BitVec 91) := [
  0x527f83063c7b365fbc8538d#91, 0x52853a474d69e339bf7d76#91, 0x2947e3a1b49d9bafd44211f#91,
  0x733597ef214e91d35a78c90#91, 0x61b5efb9457142d12656f29#91, 0x3fe289babd4121169533003#91,
  0x61f6efb9457142d12656fa9#91, 0x3fc309babd4121169533043#91, 0x61e62fb9457142d12656f89#91,
  0x1ce485fbc853a474d69e374#91, 0x61e21fb9457142d12656f81#91, 0x1ce69dfbc853a474d69e370#91,
  0x632028861a79ce7bde52979#91, 0x1ce61bfbc853a474d69e371#91, 0x315fe8802602f82462d7af4#91,
  0x1b0d52e0e38db6edb56d8fd#91, 0x18181be1929f638bb695beb#91, 0x6838cd6fc2c3273eef1546d#91,
  0x79adf068d7ee215a90c34c2#91, 0x55197df2208a8a828222294#91, 0x185b1edd929f638bb695b6b#91]

def genRows1 : List (BitVec 91) := [
  0x6ada74ce9dcbab9417112d7#91, 0xe97ef214f9dc7ab641bd0a#91, 0x763ef114d5980fe0c18f1a3#91,
  0x6f75f088caec857a424d28b#91, 0x1df2b2e1e5b84d65e3c9b3b#91, 0xc55d80ae0954b019c1fbf2#91,
  0x114a91835ebe911355784a#91, 0x3d0a308bca97b325fec8106#91, 0x6d3325fec815b90d74e295f#91,
  0x25122b6a1b08d0ae485daed#91, 0x50be8912b569e339bf7d32#91, 0x4c6cd97ef214aa1809e0b4d#91,
  0x5012956303bc14b119d5fa6#91, 0x5437c7a364bbc993bf75026#91, 0x2a1be3d1b25de4c9dfba813#91,
  0x5aa028822a2a0e38db6ed2c#91, 0x5c2512c56743eb291e359b0#91, 0x35d5d80ae0858b429923fa7#91,
  0x5104a258ace87da02c827e9#91, 0x3980000000000043053c455#91, 0x50100b40990bf4b119d5fa3#91]

def genRows2 : List (BitVec 91) := [
  0xb4853a474d69e235ab8c63#91, 0x3d232ebe511c55bc6d376fc#91, 0x2e5a78ce6fdf428d12e568e#91,
  0x37eaa500c40f50ca578c2fe#91, 0x6236a1b09dcbab951b05dc3#91, 0x67f83063c7b365fb4e59d58#91,
  0x36016613f97072c6a470de5#91, 0x4221b09dcbab941730afc7b#91, 0x6ca14e91d35a78ce7f1e0c9#91,
  0x1e04a258ace87d262e9a5cb#91, 0x65dfbc853a474d69e709e29#91, 0x4f000000000000000218222#91,
  0x5c5fbc853a474d69e235a7c#91, 0x23bb215e90934b799af9cc6#91, 0x5717ef214e91d35a788d61f#91,
  0x1e980fe0c18f1ecd97cea3a#91, 0x794d97ef214e91d35a68091#91, 0x15d980fe0c18f1ecd976983#91,
  0x1b7b365fbc853a474d6dd52#91, 0x7221b09dcbab9417112f4db#91, 0xf7ef214e91d35a78ce7ff4#91]

def genRows3 : List (BitVec 91) := [
  0x300000000000000000008a0#91, 0x63dfbc853a474d69e339f3d#91, 0xc000000000000000000228#91,
  0x6000000000000000000114#91, 0x4300000000000000000000a#91, 0x5a5fbc853a474d69e339b68#91,
  0x42bf83063c7b365fbc8538f#91, 0xd4853a474d69e339bf7d77#91, 0x5c278ce6fdf428922b6a1b5#91,
  0x7405c44b55980fe0c18f1e6#91, 0x49fe0c18f1ecd97ef214e36#91, 0x6f7ef214e91d35a78ce6fb4#91,
  0x7bdfbc853a474d69e339b6d#91, 0x232fec417512856243ad327#91, 0x2c33b3f5f088caaf8046fa#91,
  0x772ade069873e6f1f4d89e8#91, 0x10d3027c2e325becd17e562#91, 0xfc2632fbe451d45a14c930#91,
  0x3cab2a1e0998bfe90134147#91, 0x2204a258ace87d2626faf43#91]

def nmRows0 : List (List Nat) := [
  [0, 77, 82, 83, 152, 164, 166], [0, 1, 78, 84, 153, 165], [1, 2, 79, 83, 85, 154],
  [2, 3, 80, 84, 86, 155, 166], [3, 4, 81, 85, 87, 156], [4, 5, 82, 86, 88, 157],
  [0, 5, 6, 87, 89, 158], [1, 6, 7, 88, 90, 159, 166], [2, 7, 8, 89, 91, 160],
  [3, 8, 9, 90, 92, 161], [4, 9, 10, 91, 93, 162, 167], [5, 10, 11, 92, 94, 163],
  [6, 11, 12, 93, 95, 164], [7, 12, 13, 94, 96, 165, 167], [8, 13, 14, 83, 95, 97],
  [9, 14, 15, 84, 96, 98], [10, 15, 16, 85, 97, 99], [11, 16, 17, 86, 98, 100, 167],
  [12, 17, 18, 87, 99, 101], [13, 18, 19, 88, 100, 102], [14, 19, 20, 89, 101, 103, 168]]

def nmRows1 : List (List Nat) := [
  [15, 20, 21, 90, 102, 104], [16, 21, 22, 91, 103, 105], [17, 22, 23, 92, 104, 106, 168],
  [18, 23, 24, 93, 105, 107], [19, 24, 25, 94, 106, 108], [20, 25, 26, 95, 107, 109],
  [21, 26, 27, 96, 108, 110, 168], [22, 27, 28, 97, 109, 111], [23, 28, 29, 98, 110, 112],
  [24, 29, 30, 99, 111, 113, 169], [25, 30, 31, 100, 112, 114], [26, 31, 32, 101, 113, 115],
  [27, 32, 33, 102, 114, 116, 169], [28, 33, 34, 103, 115, 117], [29, 34, 35, 104, 116, 118],
  [30, 35, 36, 105, 117, 119], [31, 36, 37, 106, 118, 120, 169], [32, 37, 38, 107, 119, 121],
  [33, 38, 39, 108, 120, 122], [34, 39, 40, 109, 121, 123, 170], [35, 40, 41, 110, 122, 124]]

def nmRows2 : List (List Nat) := [
  [36, 41, 42, 111, 123, 125], [37, 42, 43, 112, 124, 126, 170], [38, 43, 44, 113, 125, 127],
  [39, 44, 45, 114, 126, 128], [40, 45, 46, 115, 127, 129], [41, 46, 47, 116, 128, 130, 170],
  [42, 47, 48, 117, 129, 131], [43, 48, 49, 118, 130, 132], [44, 49, 50, 119, 131, 133, 171],
  [45, 50, 51, 120, 132, 134], [46, 51, 52, 121, 133, 135], [47, 52, 53, 122, 134, 136, 171],
  [48, 53, 54, 123, 135, 137], [49, 54, 55, 124, 136, 138], [50, 55, 56, 125, 137, 139],
  [51, 56, 57, 126, 138, 140, 171], [52, 57, 58, 127, 139, 141], [53, 58, 59, 128, 140, 142],
  [54, 59, 60, 129, 141, 143, 172], [55, 60, 61, 130, 142, 144], [56, 61, 62, 131, 143, 145]]

def nmRows3 : List (List Nat) := [
  [57, 62, 63, 132, 144, 146, 172], [58, 63, 64, 133, 145, 147], [59, 64, 65, 134, 146, 148],
  [60, 65, 66, 135, 147, 149], [61, 66, 67, 136, 148, 150, 172], [62, 67, 68, 137, 149, 151],
  [63, 68, 69, 138, 150, 152], [64, 69, 70, 139, 151, 153, 173], [65, 70, 71, 140, 152, 154],
  [66, 71, 72, 141, 153, 155], [67, 72, 73, 142, 154, 156, 173], [68, 73, 74, 143, 155, 157],
  [69, 74, 75, 144, 156, 158], [70, 75, 76, 145, 157, 159], [71, 76, 77, 146, 158, 160, 173],
  [72, 77, 78, 147, 159, 161], [73, 78, 79, 148, 160, 162], [74, 79, 80, 149, 161, 163],
  [75, 80, 81, 150, 162, 164], [76, 81, 82, 151, 163, 165]]

/-- `GEN` of class S1. -/
def s1Gen : Vector (BitVec 91) 83 := ⟨(genRows0 ++ genRows1 ++ genRows2 ++ genRows3).toArray, rfl⟩

/-- `NM` of class S1. -/
def s1Nm : Vector (List Nat) 83 := ⟨(nmRows0 ++ nmRows1 ++ nmRows2 ++ nmRows3).toArray, rfl⟩

end Sys2Proof.Tests
end

