-- ==== Sys2Proof/Tests/Slice0.lean ====
section
/-! SUPPORT. Tests of the model against the vectors of 95_test_vectors.md, each cited by its name there, and for each
obligation with hypotheses a concrete state and operands that meet them together. -/

namespace Sys2Proof.Tests

open Sys2Proof Sys2Proof.Machine

section

/-! The kernel's evaluations run one after another: side by side each would hold a thread until those before it are done. -/
set_option Elab.async false

/-! ### Well-formed commands -/

theorem test_wellFormed_accepts : Instr.wellFormed .grayMap (bitItems [true, false, false]) = true := by decide
theorem test_wellFormed_refuses_index : Instr.wellFormed (.fgNm 83) [] = false := by decide
theorem test_wellFormed_refuses_bit_index : Instr.wellFormed (.fgMn 174) [] = false := by decide
theorem test_wellFormed_refuses_length : Instr.wellFormed .crc14Enc (bitItems (List.replicate 76 false)) = false := by
  decide
theorem test_wellFormed_refuses_type : Instr.wellFormed .grayEnc [.bit true] = false := by decide
theorem test_wellFormed_refuses_nonFinite :
    Instr.wellFormed (.bpDec 1) (List.replicate 174 (.llr (.nonFinite 0))) = false := by
  decide +kernel

/-! ### Command words, bit by bit: `imm`, `rsv`, `op` (R71, R74) -/

theorem test_decode_init : decode (0b0000000000000000#16 ++ 0b00000000#8 ++ 0b00000000#8) = .ok .init := by decide
theorem test_decode_crc14Enc : decode (0b0000000000000000#16 ++ 0b00000000#8 ++ 0b00000001#8) = .ok .crc14Enc := by decide
theorem test_decode_crc14Vfy : decode (0b0000000000000000#16 ++ 0b00000000#8 ++ 0b00000010#8) = .ok .crc14Vfy := by decide
theorem test_decode_grayEnc : decode (0b0000000000000000#16 ++ 0b00000000#8 ++ 0b00000011#8) = .ok .grayEnc := by decide
theorem test_decode_grayDec : decode (0b0000000000000000#16 ++ 0b00000000#8 ++ 0b00000100#8) = .ok .grayDec := by decide
theorem test_decode_grayMap : decode (0b0000000000000000#16 ++ 0b00000000#8 ++ 0b00000101#8) = .ok .grayMap := by decide
theorem test_decode_grayUnmap : decode (0b0000000000000000#16 ++ 0b00000000#8 ++ 0b00000110#8) = .ok .grayUnmap := by
  decide
theorem test_decode_ldpcEnc : decode (0b0000000000000000#16 ++ 0b00000000#8 ++ 0b00000111#8) = .ok .ldpcEnc := by decide
theorem test_decode_ldpcSyn : decode (0b0000000000000000#16 ++ 0b00000000#8 ++ 0b00001000#8) = .ok .ldpcSyn := by decide
/-- V-FG-9 -/
theorem test_decode_fgNm : decode (0b0000000001010010#16 ++ 0b00000000#8 ++ 0b00001001#8) = .ok (.fgNm 82) := by decide
/-- V-FG-12 -/
theorem test_decode_fgMn : decode (0b0000000010101101#16 ++ 0b00000000#8 ++ 0b00001010#8) = .ok (.fgMn 173) := by decide
/-- V-BP-1 -/
theorem test_decode_bpDec : decode (0b0000000000011110#16 ++ 0b00000000#8 ++ 0b00001011#8) = .ok (.bpDec 30) := by decide
/-- V-SYS-6 -/
theorem test_decode_reservedOp : decode 0x0000000C = .error .reservedOp := by decide
/-- V-SYS-8 -/
theorem test_decode_reservedField : decode 0x0000010B = .error .reservedField := by decide
/-- V-SYS-7 -/
theorem test_decode_immediate : decode 0x00010001 = .error .immediateNotZero := by decide
theorem test_encode_bpDec : encode (.bpDec 30) = 0x001E000B := by decide
theorem test_decodeTableWord : decodeTableWord 32 0x00AD000A = some (.fgMn 173) := by decide

/-! ### A built instance with the tables S1 -/

/-- The tables S1, no stagnation policy, an abort request input, and exact reals. -/
def s1Params : Params :=
  { gen := s1Gen, nm := s1Nm, stag := .never, hasAbort := true, num := .exact, tol := .rat 0, msgMax := none }

/-- An instance with the tables S1, after `INIT`, with the command of the word w in execution. -/
def given (w : Word) (p : Payload) : State :=
  { State.reset with
    params := s1Params, derived := buildDerived s1Nm, initDone := true, busy := true, cmdWord := w,
    operand := p }

/-- The same instance before `INIT`. -/
def fresh (w : Word) (p : Payload) : State :=
  { State.reset with params := s1Params, busy := true, cmdWord := w, operand := p }

/-- The same instance, idle. -/
def idle : State := { given 0 [] with busy := false }

/-- The same instance after iteration 1 of `BP.DEC #30`. -/
def midDecode : State :=
  { given 0x001E000B [] with decoding := true, dec := { Decoder.reset with iter := 1, hist := [24], nunsat := 24 } }

/-- The response that a step gave last. -/
def answer : Outcome → Option Response
  | .next t => t.responses.head?
  | .fault _ => none
  | .refused _ => none

/-- Bits written first bit first, as the vectors write them in hexadecimal with `width` bits in all. -/
def hexBits (h width len : Nat) : List Bool := (List.range len).map fun i => h.testBit (width - 1 - i)

/-- B1 of V-CRC-9. -/
def b1 : List Bool := hexBits 0x2f2d90a69a5bd6d3ac0adc8 92 91

/-- CW1 of V-LDPC-5. -/
def cw1 : List Bool := hexBits 0x2f2d90a69a5bd6d3ac0adc920765902ca78760fd95b4 176 174

/-- Rational strong LLRs of a word. -/
def strongLlr (w : List Bool) (L : Rat) : List RealNum := w.map fun b => .rat (if b = true then L else -L)

/-- Rational LLRs of a word with two errors. -/
def twoErrorLlr (w : List Bool) (L e : Rat) (p q : Nat) : List RealNum :=
  (List.range 174).map fun n => .rat (if n = p ∨ n = q then (if w.getD n false = true then -e else e)
    else (if w.getD n false = true then L else -L))

/-! ### One step of each operation -/

/-- V-SYS-16: `NM[0]` of 5 entries. -/
theorem test_init_graphInvalid : answer (exec .init { fresh 0 [] with
    params := { s1Params with nm := s1Nm.set 0 [0, 1, 2, 3, 4] } }) = some ⟨.graphInvalid, 0, []⟩ := by decide +kernel
/-- V-CRC-8d -/
theorem test_crc14Enc : answer (exec .crc14Enc (given 1 (bitItems (b1.take 77)))) =
    some ⟨.ok, 0, bitItems (hexBits 0x16E4 14 14)⟩ := by decide +kernel
/-- V-CRC-2 -/
theorem test_crc14Enc_last_bit : answer (exec .crc14Enc (given 1 (bitItems (hexBits 1 77 77)))) =
    some ⟨.ok, 0, bitItems (hexBits 0x3874 14 14)⟩ := by decide +kernel
/-- V-CRC-9 -/
theorem test_crc14Vfy : answer (exec .crc14Vfy (given 2 (bitItems b1))) = some ⟨.ok, 0, [.bit true]⟩ := by
  decide +kernel
/-- V-CRC-14: the CRC of V-CRC-2 in the wrong order. -/
theorem test_crc14Vfy_wrong_order : answer (exec .crc14Vfy (given 2 (bitItems (hexBits 1 77 77 ++ hexBits 0x0B87 14 14)))) =
    some ⟨.ok, 0, [.bit false]⟩ := by decide +kernel
/-- P4 step 5 -/
theorem test_grayEnc : answer (exec .grayEnc (given 3 [.sym 6])) = some ⟨.ok, 0, [.sym 4]⟩ := by decide +kernel
/-- V-GRAY-12 -/
theorem test_grayEnc_length : answer (exec .grayEnc (given 3 [.sym 6, .sym 0])) = some ⟨.invalidLength, 0, []⟩ := by
  decide +kernel
/-- P4 step 6 -/
theorem test_grayDec : answer (exec .grayDec (given 4 [.sym 4])) = some ⟨.ok, 0, [.sym 6]⟩ := by decide +kernel
/-- V-GRAY-2, t = 6 -/
theorem test_grayDec_five : answer (exec .grayDec (given 4 [.sym 6])) = some ⟨.ok, 0, [.sym 5]⟩ := by decide +kernel
/-- V-GRAY-4 -/
theorem test_grayMap : answer (exec .grayMap (given 5 (bitItems (hexBits 0o01234567 24 24)))) =
    some ⟨.ok, 0, symItems [0, 1, 3, 2, 5, 6, 4, 7]⟩ := by decide +kernel
/-- V-GRAY-8 -/
theorem test_grayMap_length : answer (exec .grayMap (given 5 (bitItems [true, true, false, true]))) =
    some ⟨.invalidLength, 0, []⟩ := by decide +kernel
/-- V-GRAY-10 -/
theorem test_grayUnmap : answer (exec .grayUnmap (given 6 (symItems [0, 1, 2, 3, 4, 5, 6, 7]))) =
    some ⟨.ok, 0, bitItems (hexBits 0b000001011010110100101111 24 24)⟩ := by decide +kernel
/-- V-GRAY-11 -/
theorem test_grayUnmap_empty : answer (exec .grayUnmap (given 6 [])) = some ⟨.ok, 0, []⟩ := by decide +kernel
/-- V-LDPC-5 -/
theorem test_ldpcEnc : answer (exec .ldpcEnc (given 7 (bitItems b1))) = some ⟨.ok, 0, bitItems cw1⟩ := by decide +kernel
/-- V-LDPC-7 -/
theorem test_ldpcEnc_first_column : answer (exec .ldpcEnc (given 7 (bitItems (true :: List.replicate 90 false)))) =
    some ⟨.ok, 0, bitItems (hexBits 0x800000000000000000000013550eb09da86dd493be40 176 174)⟩ := by decide +kernel
/-- V-LDPC-4 -/
theorem test_ldpcSyn : answer (exec .ldpcSyn (given 8 (bitItems (List.replicate 174 true)))) = some ⟨.ok, 24, []⟩ := by
  decide +kernel
/-- V-LDPC-12 -/
theorem test_ldpcSyn_shared_check :
    answer (exec .ldpcSyn (given 8 (bitItems (true :: true :: List.replicate 172 false)))) = some ⟨.ok, 4, []⟩ := by
  decide +kernel
/-- V-FG-7 -/
theorem test_fgNm : answer (exec (.fgNm 0) (given 9 [])) =
    some ⟨.ok, 0, [.idx 0, .idx 77, .idx 82, .idx 83, .idx 152, .idx 164, .idx 166]⟩ := by decide +kernel
/-- V-FG-6: the length is checked before the index. -/
theorem test_fgNm_length_first : answer (exec (.fgNm 83) (given 0x00530009 [.bit true])) =
    some ⟨.invalidLength, 0, []⟩ := by decide +kernel
/-- V-FG-12 -/
theorem test_fgMn : answer (exec (.fgMn 173) (given 0x00AD000A [])) = some ⟨.ok, 0, [.idx 70, .idx 73, .idx 77]⟩ := by
  decide +kernel
/-- V-FG-4 -/
theorem test_fgMn_index : answer (exec (.fgMn 174) (given 0x00AE000A [])) = some ⟨.invalidIndex, 0, []⟩ := by
  decide +kernel
/-- V-BP-3 -/
theorem test_bpDec_zero : answer (exec (.bpDec 0) (given 0xB (ratItems (List.replicate 174 (-10))))) =
    some ⟨.maxIterationsExceeded, 0, []⟩ := by decide +kernel
/-- V-SYS-9: the length is checked before the iteration bound. -/
theorem test_bpDec_length : answer (exec (.bpDec 0) (given 0xB (ratItems (List.replicate 173 (-10))))) =
    some ⟨.invalidLength, 0, []⟩ := by decide +kernel

/-! ### Parts of a decode -/

/-- The record of exact reals. -/
abbrev N := NumFormat.exact.numerics

/-- A rational LLR item in exact reals. -/
def item (q : Rat) : HeldNum := N.item (.rat q)

/-- V-CN-4: the value lies between -0.73533 and -0.73532. -/
theorem test_cn_two_inputs :
    (N.isPositive (N.add (item 0.73533) (N.cn [item 1, item 2])),
      N.isPositive (N.add (item 0.73532) (N.cn [item 1, item 2]))) = (true, false) := by decide +kernel
/-- V-CN-19: the value lies between 0.49976 and 0.49977. -/
theorem test_cn_six_inputs :
    let v := N.cn [item 10, item 10, item 10, item 10, item 10, item (-0.5)]
    (N.isPositive (N.add (item (-0.49976)) v), N.isPositive (N.add (item (-0.49977)) v)) = (true, false) := by
  decide +kernel
/-- R11, R177: an LLR that is no rational number: the corrected LLR `x + 0` is greater than 0 exactly when x is. -/
theorem test_named_llr (k : Nat) :
    N.isPositive (N.add (N.item (.named k)) (item 0)) = true ↔ 0 < (RealNum.named k).toReal := by
  have h := Value.isPositive_iff (((Value.ofItem (.named k)).add (Value.ofItem (.rat 0))))
  rwa [Value.add_toReal, Value.ofItem_toReal, Value.ofItem_toReal, toReal_rat, Rat.cast_zero, add_zero] at h
/-- V-BP-10b, V-BP-10c, V-BP-10e: the policies on the history [20, 5, 5]. -/
theorem test_stagnation : (StagPolicy.eval (.window 1) [20, 5, 5], StagPolicy.eval (.window 2) [20, 5, 5],
    StagPolicy.eval (.windowIncreasing 1) [20, 5, 5]) = (true, false, false) := by decide
/-- V-FG-13: the slot maps at one edge. -/
theorem test_slot_maps : (slotCAt (buildDerived s1Nm) 0 1, slotBAt (buildDerived s1Nm) 77 0) = (0, 1) := by
  decide +kernel

/-! ### Steps and events -/

/-- V-SYS-4 -/
theorem test_step_notInitialised : answer (step (fresh 1 (bitItems (List.replicate 77 false)))) =
    some ⟨.notInitialised, 0, []⟩ := by decide +kernel
/-- V-SYS-8: the word is checked first. -/
theorem test_step_invalidOp : answer (step (fresh 0x0000010B (ratItems (List.replicate 173 0)))) =
    some ⟨.invalidOp, 0, []⟩ := by decide +kernel
/-- V-SYS-12: an abort request is not recorded while idle. -/
theorem test_abort_idle : (match step { idle with inputs := [.abort] } with
    | .next t => some t.abortPending
    | .fault _ => none
    | .refused _ => none) = some false := by decide +kernel
/-- R223: an abort request is recorded while a command is in execution. -/
theorem test_abort_busy : (match step { given 3 [.sym 6] with inputs := [.abort] } with
    | .next t => some t.abortPending
    | .fault _ => none
    | .refused _ => none) = some true := by decide +kernel
/-- The step that follows withFetchWord runs the word: `FG.MN #0` before `INIT`. -/
theorem test_withFetchWord : answer (step (State.reset.withFetchWord 32 0x0000000A)) = some ⟨.notInitialised, 0, []⟩ := by
  decide +kernel

/-! ### Closed facts of the tables S1 and the words of the vectors -/

theorem b1_verifies : crcVerify b1 = true := by decide +kernel

theorem cw1_length : cw1.length = 174 := by decide +kernel

theorem cw1_parity : parityCount s1Nm (s1Nm.map List.length) cw1 = 0 := by decide +kernel

theorem cw1_verifies : crcVerify (cw1.take 91) = true := by decide +kernel

/-- V-BP-6: the two positions share no check node. -/
theorem cw1_pair_apart : ((List.finRange 83).countP fun c => s1Nm[c].contains 5 && s1Nm[c].contains 120) = 0 := by
  decide +kernel

theorem nonFinite_items : (Instr.bpDec 1).payloadTyped (List.replicate 174 (.llr (.nonFinite 0))) = true ∧
    Payload.finite (List.replicate 174 (.llr (.nonFinite 0))) = false := by decide +kernel

theorem bad_graph_degree : ¬ ((s1Nm.set 0 [0, 1, 2, 3, 4])[(0 : Fin 83)].length = 6 ∨
    (s1Nm.set 0 [0, 1, 2, 3, 4])[(0 : Fin 83)].length = 7) := by decide +kernel

theorem s1_degree : ∀ c : Fin 83, s1Nm[c].length = 6 ∨ s1Nm[c].length = 7 := by decide +kernel

theorem s1_range : ∀ c : Fin 83, ∀ n ∈ s1Nm[c], n ≤ 173 := by decide +kernel

theorem s1_distinct : ∀ c : Fin 83, s1Nm[c].Nodup := by decide +kernel

theorem s1_edges : (s1Nm.toList.map List.length).sum = 522 := by decide +kernel

/-! ### The tables S1 are well formed -/

theorem s1_graphOk : graphOk s1Nm = true := by decide +kernel

theorem s1_unitBlocks_all : ((List.finRange 83).all fun c => (List.range 91).all fun j =>
    xorAll (s1Nm[c].contains j :: (s1Nm[c].filter (91 ≤ ·)).map fun n => genAt s1Gen (Fin.ofNat 83 (n - 91)) j)
      == false) = true := by decide +kernel

theorem s1_unitBlocks : UnitBlocksOk s1Gen s1Nm := fun c j hj => by
  have h := List.all_eq_true.mp (List.all_eq_true.mp s1_unitBlocks_all c (List.mem_finRange c)) j (List.mem_range.mpr hj)
  exact beq_iff_eq.mp h

theorem s1_graphWF : GraphWF s1Nm where
  degree := s1_degree
  range := s1_range
  distinct := s1_distinct
  threeChecks := by
    have h := s1_graphOk
    simp only [graphOk, Bool.and_eq_true, List.all_eq_true, beq_iff_eq] at h
    exact fun n => h.1.2 n (List.mem_finRange n)
  edges := s1_edges

theorem s1_tablesOk : TablesOk s1Gen s1Nm := ⟨s1_graphWF, s1_unitBlocks⟩

theorem given_inv (w : Word) (p : Payload) : Inv (given w p) where
  tables := fun _ => ⟨s1_graphOk, rfl⟩
  idle := fun _ => rfl
  noAbort := fun _ => rfl
  decoding := fun h => Bool.noConfusion h
  history := fun h => Bool.noConfusion h
  counts := fun h => Bool.noConfusion h

theorem fresh_inv (w : Word) (p : Payload) : Inv (fresh w p) where
  tables := fun h => Bool.noConfusion h
  idle := fun _ => rfl
  noAbort := fun _ => rfl
  decoding := fun h => Bool.noConfusion h
  history := fun h => Bool.noConfusion h
  counts := fun h => Bool.noConfusion h

theorem idle_inv : Inv idle where
  tables := fun _ => ⟨s1_graphOk, rfl⟩
  idle := fun _ => rfl
  noAbort := fun _ => rfl
  decoding := fun h => Bool.noConfusion h
  history := fun h => Bool.noConfusion h
  counts := fun h => Bool.noConfusion h

theorem midDecode_inv : Inv midDecode where
  tables := fun _ => ⟨s1_graphOk, rfl⟩
  idle := fun _ => rfl
  noAbort := fun _ => rfl
  decoding := fun _ => ⟨rfl, rfl, 30, by decide, by decide, by decide⟩
  history := fun _ => rfl
  counts := fun _ => ⟨by decide, by decide⟩

theorem s1_numericsWF : NumericsWF s1Params := fun _ h => NumFormat.noConfusion h

/-! ### The inputs of the decoder's witnesses -/

theorem allLlrs_rat (q : Rat) : AllLlrs (List.replicate 174 (.rat q)) (q : ℝ) :=
  ⟨List.length_replicate, fun n hn => by rw [llrAt, List.getD, List.getElem?_replicate, if_pos hn]; rfl⟩

theorem ldpcEncode_length (gen : Vector (BitVec 91) 83) {info : List Bool} (h : info.length = 91) :
    (ldpcEncode gen info).length = 174 := by simp [ldpcEncode, h]

theorem strongLlr_strong (L : Rat) {w : List Bool} (h : w.length = 174) : StrongLlrs w (L : ℝ) (strongLlr w L) := by
  refine ⟨by simpa [strongLlr] using h, fun n hn => ?_⟩
  have hw : w[n]? = some w[n] := List.getElem?_eq_getElem (h ▸ hn)
  cases hb : w[n] <;> simp [llrAt, strongLlr, List.getD, hw, hb]

theorem strong_ten {w : List Bool} (h : w.length = 174) : StrongLlrs w 10 (strongLlr w 10) := by
  simpa using strongLlr_strong 10 h

theorem twoErrorLlr_errs (w : List Bool) (L e : Rat) (p q : Nat) :
    TwoErrorLlrs w (L : ℝ) (e : ℝ) p q (twoErrorLlr w L e p q) := by
  refine ⟨by simp [twoErrorLlr], fun n hn => ?_⟩
  simp only [llrAt, twoErrorLlr, List.getD, List.getElem?_map, List.getElem?_range hn, Option.map_some, Option.getD_some,
    toReal_rat]
  by_cases h : n = p ∨ n = q <;> by_cases hw : w[n]?.getD false = true <;> simp [h, hw]

/-- V-SYS-1: a built instance. -/
theorem test_init : answer (exec .init (fresh 0 [])) = some ⟨.ok, 0, []⟩ := by
  have h : graphOk s1Params.nm = true := s1_graphOk
  simp [exec, execInit, fresh, State.reset, h, answer]
/-! ### Witnesses: for each obligation with hypotheses, a state and operands that meet them -/

theorem witness_IllegalWordsAreInvalidOp :
    (fresh 0x0000000C []).busy = true ∧ CoreMoves (fresh 0x0000000C []) (fresh 0x0000000C []) ∧
      (fresh 0x0000000C []).cmdWord = 0x0000000C ∧ ∃ e, decode 0x0000000C = .error e :=
  ⟨rfl, .inl ⟨rfl, rfl⟩, rfl, _, test_decode_reservedOp⟩

theorem witness_StepRunsTheDecodedOperation :
    (given 3 [.sym 6]).busy = true ∧
      CoreMoves { given 3 [.sym 6] with inputs := [.coreTurn] } (given 3 [.sym 6]) ∧
      CoreMoves { given 3 [.sym 6] with inputs := [.command 0 []] } { given 3 [.sym 6] with inputs := [.command 0 []] } ∧
      CoreMoves (given 3 [.sym 6]) (given 3 [.sym 6]) ∧ decode (given 3 [.sym 6]).cmdWord = .ok .grayEnc :=
  ⟨rfl, .inr (.inr ⟨[], rfl, rfl⟩), .inr (.inl ⟨⟨0, [], [], rfl⟩, rfl⟩), .inl ⟨rfl, rfl⟩, by decide⟩

theorem witness_IdleCoreAcceptsACommand :
    idle.busy = false ∧ { idle with inputs := [.command 3 [.sym 6]] }.inputs = .command 3 [.sym 6] :: [] := ⟨rfl, rfl⟩

/-- A step that gives a response, and one that accepts a command. -/
theorem witness_OneResponseForEachCommand :
    step (fresh 0x0000000C []) = .next ((fresh 0x0000000C []).raise .invalidOp) ∧ (fresh 0x0000000C []).busy = true ∧
      step { idle with inputs := [.command 3 [.sym 6]] } = .next (idle.accept 3 [.sym 6]) ∧ idle.busy = false :=
  ⟨rfl, rfl, rfl, rfl⟩

theorem witness_AbortRequestIsRecordedWhileBusy :
    { given 3 [.sym 6] with inputs := [.abort] }.inputs = .abort :: [] := rfl

theorem witness_AbortNeverEndsAnotherOperation : ∀ m, Instr.grayEnc ≠ .bpDec m := fun _ h => Instr.noConfusion h

theorem witness_ResetLeavesTheResetState : { midDecode with inputs := [.reset] }.inputs = .reset :: [] := rfl

theorem grayEnc_given : exec .grayEnc (given 3 [.sym 6]) = .next ((given 3 [.sym 6]).respond .ok 0 [.sym 4]) := rfl

theorem witness_ResponsesHaveTheFormOfTheInterface :
    Inv (given 3 [.sym 6]) ∧ decode (given 3 [.sym 6]).cmdWord = .ok .grayEnc ∧
      exec .grayEnc (given 3 [.sym 6]) = .next ((given 3 [.sym 6]).respond .ok 0 [.sym 4]) ∧
      ((given 3 [.sym 6]).respond .ok 0 [.sym 4]).responses = ⟨.ok, 0, [.sym 4]⟩ :: (given 3 [.sym 6]).responses :=
  ⟨given_inv .., by decide, grayEnc_given, rfl⟩

theorem witness_NotInitialisedBeforeInit :
    Inv (fresh 0xB []) ∧ (fresh 0xB []).busy = true ∧ CoreMoves (fresh 0xB []) (fresh 0xB []) ∧
      decode (fresh 0xB []).cmdWord = .ok (.bpDec 0) ∧ Instr.bpDec 0 ≠ .init ∧ (fresh 0xB []).initDone = false :=
  ⟨fresh_inv .., rfl, .inl ⟨rfl, rfl⟩, by decide, by decide, rfl⟩

/-- A wrong length, one item short, and a right one. -/
theorem witness_WrongLengthsAreInvalidLength :
    (given 1 []).initDone = true ∧ (given 1 []).decoding = false ∧
      Instr.crc14Enc.lengthOk (given 1 (bitItems (List.replicate 76 true))).operand.length = false ∧
      Instr.grayEnc.lengthOk (given 3 [.sym 6]).operand.length = true ∧
      exec .grayEnc (given 3 [.sym 6]) = .next ((given 3 [.sym 6]).respond .ok 0 [.sym 4]) :=
  ⟨rfl, rfl, by decide, by decide, grayEnc_given⟩

theorem witness_IndicesOutOfRangeAreInvalidIndex :
    (given 0x00530009 []).initDone = true ∧ (given 0x00530009 []).operand = [] ∧ 82 < (83 : Imm).toNat ∧
      173 < (174 : Imm).toNat := ⟨rfl, rfl, by decide, by decide⟩

theorem witness_FaultsChangeNothing :
    exec .grayEnc (fresh 3 [.sym 6]) = .next ((fresh 3 [.sym 6]).raise .notInitialised) ∧
      ((fresh 3 [.sym 6]).raise .notInitialised).responses =
        ⟨.notInitialised, 0, []⟩ :: (fresh 3 [.sym 6]).responses ∧
      Status.notInitialised ∈ [Status.notInitialised, .invalidLength, .invalidIndex] :=
  ⟨rfl, rfl, by decide⟩

theorem witness_OperationsChangeOnlyTheirState :
    exec .grayEnc (given 3 [.sym 6]) = .next ((given 3 [.sym 6]).respond .ok 0 [.sym 4]) ∧ Instr.grayEnc ≠ .init ∧
      exec (.bpDec 30) midDecode = .next (midDecode.iteration 30) := ⟨grayEnc_given, by decide, rfl⟩

theorem witness_TablesChangeOnlyAtInitAndReset :
    step { midDecode with inputs := [.reset] } = .next midDecode.resetEvent ∧
      midDecode.resetEvent.initDone ≠ { midDecode with inputs := [.reset] }.initDone := ⟨rfl, by simp [midDecode, given]⟩

theorem witness_EveryStepKeepsTheInvariant :
    Inv midDecode ∧ step midDecode = .next (midDecode.iteration 30) := ⟨midDecode_inv, rfl⟩

theorem witness_InitBuildsTheTables : (fresh 0 []).operand = [] ∧ GraphWF (fresh 0 []).params.nm := ⟨rfl, s1_graphWF⟩

/-- V-SYS-16: `NM[0]` of 5 entries. -/
theorem witness_InitOnABadGraphIsGraphInvalid :
    let s := { fresh 0 [] with params := { s1Params with nm := s1Nm.set 0 [0, 1, 2, 3, 4] } }
    s.operand = [] ∧ ¬ GraphWF s.params.nm := ⟨rfl, fun h => absurd (h.degree 0) bad_graph_degree⟩

theorem witness_RepeatedInitChangesNothing :
    Inv (given 0 []) ∧ (given 0 []).initDone = true ∧ (given 0 []).operand = [] := ⟨given_inv .., rfl, rfl⟩

theorem witness_FgNmReturnsTheCheckList :
    Inv (given 0x00520009 []) ∧ (given 0x00520009 []).initDone = true ∧ (given 0x00520009 []).operand = [] :=
  ⟨given_inv .., rfl, rfl⟩

theorem witness_FgMnReturnsTheBitList :
    Inv (given 0x00AD000A []) ∧ (given 0x00AD000A []).initDone = true ∧ (given 0x00AD000A []).operand = [] :=
  ⟨given_inv .., rfl, rfl⟩

theorem witness_DegreeCensus :
    (∀ c : Fin 83, s1Nm[c].length = 6 ∨ s1Nm[c].length = 7) ∧ (∀ c : Fin 83, ∀ n ∈ s1Nm[c], n ≤ 173) ∧
      (∀ c : Fin 83, s1Nm[c].Nodup) ∧
      ∀ n : Fin 174, ((List.finRange 83).filter fun c => s1Nm[c].contains n.val).length = 3 :=
  ⟨s1_graphWF.degree, s1_graphWF.range, s1_graphWF.distinct, s1_graphWF.threeChecks⟩

theorem witness_CrcEncodeIsTheRemainder :
    (given 1 (bitItems (b1.take 77))).initDone = true ∧
      (given 1 (bitItems (b1.take 77))).operand = bitItems (b1.take 77) ∧ (b1.take 77).length = 77 :=
  ⟨rfl, rfl, by decide⟩

theorem witness_CrcVerifyComparesTheRemainder :
    (given 2 (bitItems b1)).initDone = true ∧ (given 2 (bitItems b1)).operand = bitItems b1 ∧ b1.length = 91 :=
  ⟨rfl, rfl, by decide⟩

theorem witness_CrcDetectsSingleBitErrors :
    (given 2 []).initDone = true ∧ (b1.take 77).length = 77 ∧ 0 < 91 ∧ 90 < 91 := ⟨rfl, by decide, by decide, by decide⟩

theorem witness_CrcIsLinear :
    (b1.take 77).length = 77 ∧ (hexBits 1 77 77).length = 77 ∧ 0 < 77 ∧ 76 < 77 :=
  ⟨by decide, by decide, by decide, by decide⟩

theorem witness_CrcBlockIsNotTheDivisibleOne : (hexBits 1 77 77).length = 77 := by decide

/-- Both ends of the range of a symbol. -/
theorem witness_GrayOperationsReadTheTables :
    (given 4 [.sym 0]).initDone = true ∧ (given 4 [.sym 0]).operand = [.sym 0] ∧ Inv (given 4 [.sym 0]) ∧
      (given 4 [.sym 7]).initDone = true ∧ (given 4 [.sym 7]).operand = [.sym 7] ∧ Inv (given 4 [.sym 7]) :=
  ⟨rfl, rfl, given_inv .., rfl, rfl, given_inv ..⟩

theorem witness_GrayMapMapsTriples :
    (given 5 (bitItems cw1)).initDone = true ∧ (given 5 (bitItems cw1)).operand = bitItems cw1 ∧
      cw1.length % 3 = 0 ∧ 0 < cw1.length / 3 := ⟨rfl, rfl, by rw [cw1_length], by rw [cw1_length]; decide⟩

theorem witness_GrayUnmapGivesTheBits :
    Inv (given 6 (symItems [4, 2])) ∧ (given 6 (symItems [4, 2])).initDone = true ∧
      (given 6 (symItems [4, 2])).operand = symItems [4, 2] := ⟨given_inv .., rfl, rfl⟩

theorem witness_AdjacentTonesDifferInOneBit : Inv (given 4 []) ∧ (given 4 []).initDone = true ∧ 0 < 7 ∧ 6 < 7 :=
  ⟨given_inv .., rfl, by decide, by decide⟩

theorem witness_GrayRoundTrips : Inv (given 5 []) ∧ (given 5 []).initDone = true ∧ cw1.length % 3 = 0 :=
  ⟨given_inv .., rfl, by rw [cw1_length]⟩

theorem witness_LdpcEncodeIsSystematic :
    (given 7 (bitItems b1)).initDone = true ∧ (given 7 (bitItems b1)).operand = bitItems b1 ∧ b1.length = 91 :=
  ⟨rfl, rfl, by decide⟩

theorem witness_LdpcIsLinear :
    b1.length = 91 ∧ (List.replicate 91 true).length = 91 ∧ cw1.length = 174 ∧
      parityCount s1Nm (s1Nm.map List.length) cw1 = 0 := ⟨by decide, List.length_replicate, cw1_length, cw1_parity⟩

theorem witness_LdpcSynCountsOddChecks :
    Inv (given 8 (bitItems (List.replicate 174 true))) ∧
      (given 8 (bitItems (List.replicate 174 true))).initDone = true ∧
      (given 8 (bitItems (List.replicate 174 true))).operand = bitItems (List.replicate 174 true) ∧
      (List.replicate 174 true).length = 174 ∧
      (given 8 (bitItems (List.replicate 174 false))).operand = bitItems (List.replicate 174 false) :=
  ⟨given_inv .., rfl, rfl, List.length_replicate, rfl⟩

theorem witness_CodewordsSatisfyEveryEquation :
    Inv (given 7 []) ∧ (given 7 []).initDone = true ∧ TablesOk (given 7 []).params.gen (given 7 []).params.nm ∧
      b1.length = 91 := ⟨given_inv .., rfl, s1_tablesOk, by decide⟩

theorem witness_CheckNodeFacts : (0 : ℝ) ∈ [(0 : ℝ), 5] ∧ [(1 : ℝ), -2].Perm [-2, 1] ∧ [(1 : ℝ), -2] ≠ [] :=
  ⟨List.mem_cons_self, List.Perm.swap .., by simp⟩

theorem witness_IterationEquations : Inv midDecode ∧ midDecode.initDone = true ∧ NumericsWF midDecode.params :=
  ⟨midDecode_inv, rfl, s1_numericsWF⟩

theorem witness_FirstIterationOfADecode :
    let s := given 0x001E000B (llrItems (strongLlr cw1 2))
    Inv s ∧ s.initDone = true ∧ s.decoding = false ∧ s.operand = llrItems (strongLlr cw1 2) ∧
      (strongLlr cw1 2).length = 174 ∧ (30 : Imm) ≠ 0 ∧ s.params.num = .exact ∧ NumericsWF s.params :=
  ⟨given_inv .., rfl, rfl, rfl, (List.length_map _).trans cw1_length, by decide, rfl, s1_numericsWF⟩

theorem witness_OutcomesOfAnIteration : Inv midDecode ∧ midDecode.decoding = true ∧ NumericsWF midDecode.params :=
  ⟨midDecode_inv, rfl, s1_numericsWF⟩

theorem witness_ZeroIterations :
    let s := given 0xB (ratItems (List.replicate 174 (-10)))
    s.initDone = true ∧ s.decoding = false ∧ s.operand = llrItems (List.replicate 174 (.rat (-10))) ∧
      (List.replicate 174 (RealNum.rat (-10))).length = 174 :=
  ⟨rfl, rfl, by simp only [given, ratItems, List.map_replicate], List.length_replicate⟩

theorem witness_StagnationPolicies :
    midDecode.params.stag = .never ∧ exec (.bpDec 30) midDecode = .next (midDecode.iteration 30) := ⟨rfl, rfl⟩

/-- A decode in execution, and one at its start. -/
theorem witness_DecoderRanges :
    let s := given 0xB (llrItems (List.replicate 174 (.rat 0)))
    Inv midDecode ∧ decode midDecode.cmdWord = .ok (.bpDec 30) ∧ midDecode.decoding = true ∧
      exec (.bpDec 30) midDecode = .next (midDecode.iteration 30) ∧
      Inv s ∧ decode s.cmdWord = .ok (.bpDec 0) ∧ s.initDone = true ∧
      s.operand = llrItems (List.replicate 174 (.rat 0)) ∧ (List.replicate 174 (RealNum.rat 0)).length = 174 :=
  ⟨midDecode_inv, by decide, rfl, rfl, given_inv .., by decide, rfl, rfl, List.length_replicate⟩

/-- With an abort request, a turn of CORE and a command that waits among the events to come. -/
theorem witness_EveryDecodeTerminates :
    let s := { given 0x0002000B (llrItems (strongLlr cw1 2)) with inputs := [.abort, .coreTurn, .command 3 [.sym 6]] }
    s.busy = true ∧ .reset ∉ s.inputs ∧ s.decoding = false ∧ decode s.cmdWord = .ok (.bpDec 2) ∧
      s.operand = llrItems (strongLlr cw1 2) := ⟨rfl, by decide, rfl, by decide, rfl⟩

theorem witness_AllZeroLlrsGiveTheZeroCodeword :
    let s := given 0x001E000B (llrItems (List.replicate 174 (.rat 0)))
    Inv s ∧ s.initDone = true ∧ s.decoding = false ∧ s.params.num = .exact ∧
      s.operand = llrItems (List.replicate 174 (.rat 0)) ∧ AllLlrs (List.replicate 174 (.rat 0)) 0 ∧ (1 : Imm) ≠ 0 :=
  ⟨given_inv .., rfl, rfl, rfl, rfl, by simpa using allLlrs_rat 0, by decide⟩

theorem witness_AllZeroScenario :
    let a := given 0x001E000B (llrItems (List.replicate 174 (.rat (-10))))
    let b := given 0x001E000B (llrItems (List.replicate 174 (.rat 10)))
    Inv a ∧ a.initDone = true ∧ a.decoding = false ∧ a.params.num = .exact ∧
      a.operand = llrItems (List.replicate 174 (.rat (-10))) ∧ (1 : Imm) ≠ 0 ∧
      AllLlrs (List.replicate 174 (.rat (-10))) (-10) ∧ Inv b ∧
      b.operand = llrItems (List.replicate 174 (.rat 10)) ∧ AllLlrs (List.replicate 174 (.rat 10)) 10 :=
  ⟨given_inv .., rfl, rfl, rfl, rfl, by decide, by simpa using allLlrs_rat (-10), given_inv .., rfl,
    by simpa using allLlrs_rat 10⟩

theorem witness_StrongCodewordsDecodeAtOnce :
    let llr := strongLlr (ldpcEncode s1Gen b1) 10
    let s := given 0x001E000B (llrItems llr)
    Inv s ∧ s.initDone = true ∧ s.decoding = false ∧ s.params.num = .exact ∧ TablesOk s.params.gen s.params.nm ∧
      b1.length = 91 ∧ crcVerify b1 = true ∧ (0 : ℝ) < 10 ∧ (30 : Imm) ≠ 0 ∧ s.operand = llrItems llr ∧
      StrongLlrs (ldpcEncode s.params.gen b1) 10 llr :=
  ⟨given_inv .., rfl, rfl, rfl, s1_tablesOk, by decide, b1_verifies, by norm_num, by decide, rfl,
    strong_ten (ldpcEncode_length s1Gen (by decide))⟩

theorem ten_is_strong : (1 : ℝ) / 6 < 2 * Real.artanh (Real.tanh (10 / 2) ^ 6) := by
  have ht := tanh_half (-10)
  rw [neg_neg] at ht
  have he : Real.exp (-10) ≤ 1 / 11 := by
    have h := Real.add_one_le_exp (10 : ℝ)
    rw [Real.exp_neg, inv_eq_one_div]
    exact one_div_le_one_div_of_le (by norm_num) (by linarith)
  have hp := Real.exp_pos (-10)
  have h0 : (5 : ℝ) / 6 ≤ Real.tanh (10 / 2) := by rw [ht, le_div_iff₀ (by linarith)]; linarith
  have h1 : Real.tanh (10 / 2) < 1 := by rw [ht, div_lt_one (by linarith)]; linarith
  have hy : (1 : ℝ) / 6 < Real.tanh (10 / 2) ^ 6 :=
    lt_of_lt_of_le (by norm_num) (pow_le_pow_left₀ (by norm_num) h0 6)
  have hy1 : Real.tanh (10 / 2) ^ 6 < 1 := pow_lt_one₀ (by linarith) h1 (by norm_num)
  generalize Real.tanh (10 / 2) ^ 6 = y at hy hy1
  rw [Real.artanh_eq_half_log ⟨by linarith, by linarith⟩]
  have hl := Real.one_sub_inv_le_log_of_pos (x := (1 + y) / (1 - y)) (div_pos (by linarith) (by linarith))
  have : 1 - ((1 + y) / (1 - y))⁻¹ = 2 * y / (1 + y) := by field_simp; ring
  have h2 : y ≤ 2 * y / (1 + y) := by rw [le_div_iff₀ (by linarith)]; nlinarith
  linarith

theorem witness_TwoWeakErrorsAreCorrected :
    let llr := twoErrorLlr cw1 10 (1 / 2) 5 120
    let s := given 0x001E000B (llrItems llr)
    Inv s ∧ s.initDone = true ∧ s.decoding = false ∧ s.params.num = .exact ∧ cw1.length = 174 ∧
      parityCount s.params.nm (s.params.nm.map List.length) cw1 = 0 ∧ crcVerify (cw1.take 91) = true ∧
      (30 : Imm) ≠ 0 ∧ 5 < 174 ∧ 120 < 174 ∧ 5 ≠ 120 ∧ (0 : ℝ) ≤ 1 / 2 ∧ 3 * (1 / 2 : ℝ) < 10 ∧
      (let g := (List.finRange 83).countP fun c => s.params.nm[c].contains 5 && s.params.nm[c].contains 120
       let u := 2 * Real.artanh (Real.tanh ((10 : ℝ) / 2) ^ 6)
       (1 + (g : ℝ)) * (1 / 2) < (3 - (g : ℝ)) * u) ∧
      s.operand = llrItems llr ∧ TwoErrorLlrs cw1 10 (1 / 2) 5 120 llr := by
  refine ⟨given_inv .., rfl, rfl, rfl, cw1_length, cw1_parity, cw1_verifies, by decide, by decide, by decide,
    by decide, by norm_num, by norm_num, ?_, rfl, by simpa using twoErrorLlr_errs cw1 10 (1 / 2) 5 120⟩
  have h := ten_is_strong
  have hg : (given 0x001E000B (llrItems (twoErrorLlr cw1 10 (1 / 2) 5 120))).params.nm = s1Nm := rfl
  simp only [hg, cw1_pair_apart]
  push_cast
  linarith

theorem witness_LlrItemsAreTakenAsTheyStand :
    let s := given 0x001E000B (llrItems (strongLlr cw1 2))
    s.initDone = true ∧ s.decoding = false ∧ s.operand = llrItems (strongLlr cw1 2) ∧ (strongLlr cw1 2).length = 174 ∧
      ∀ n < 174, InFormat s.params.num (llrAt (strongLlr cw1 2) n) :=
  ⟨rfl, rfl, rfl, (List.length_map _).trans cw1_length, fun _ _ => trivial⟩

/-- A symbol for an operation on bits, and an LLR that is no finite number. -/
theorem witness_StopsAreForForeignAndNonFiniteItems :
    (given 5 [.bit true, .sym 0, .bit true]).initDone = true ∧
      (given 5 [.bit true, .sym 0, .bit true]).decoding = false ∧
      Instr.grayMap.lengthOk (given 5 [.bit true, .sym 0, .bit true]).operand.length = true ∧
      Instr.grayMap.itemType ≠ none ∧
      Instr.grayMap.payloadTyped (given 5 [.bit true, .sym 0, .bit true]).operand = false ∧
      Payload.finite (given 5 [.bit true, .sym 0, .bit true]).operand = true ∧
      (List.replicate 174 (Item.llr (.nonFinite 0))).length = 174 ∧
      (Instr.bpDec 1).payloadTyped (List.replicate 174 (.llr (.nonFinite 0))) = true ∧
      Payload.finite (List.replicate 174 (.llr (.nonFinite 0))) = false ∧
      Instr.grayEnc.payloadTyped (given 3 [.sym 6]).operand = true ∧ Payload.finite (given 3 [.sym 6]).operand = true :=
  ⟨rfl, rfl, by decide, by decide, by decide, by decide, List.length_replicate, nonFinite_items.1,
    nonFinite_items.2, by decide, by decide⟩

/-- Two instances that differ in all that reset leaves unspecified and in what came before. -/
theorem witness_UnspecifiedStateIsNeverObserved :
    let a := { idle with inputs := [.command 0 [], .command 3 [.sym 6]] }
    let b := { a with dec := midDecode.dec, responses := [⟨.ok, 0, []⟩] }
    Inv a ∧ Inv b ∧ a.params = b.params ∧ a.initDone = b.initDone ∧ a.busy = b.busy ∧
      a.abortPending = b.abortPending ∧ a.cmdWord = b.cmdWord ∧ a.operand = b.operand ∧ a.inputs = b.inputs ∧
      a.decoding = false ∧ b.decoding = false := by
  refine ⟨⟨idle_inv.tables, idle_inv.idle, idle_inv.noAbort, idle_inv.decoding, idle_inv.history, idle_inv.counts⟩,
    ⟨idle_inv.tables, idle_inv.idle, idle_inv.noAbort, fun h => Bool.noConfusion h, fun h => Bool.noConfusion h,
      fun h => Bool.noConfusion h⟩, rfl, rfl, rfl, rfl, rfl, rfl, rfl, rfl, rfl⟩

theorem witness_TransmitChain : Inv (given 1 []) ∧ (given 1 []).initDone = true ∧ (b1.take 77).length = 77 ∧
    (List.replicate 77 false).length = 77 := ⟨given_inv .., rfl, by decide, List.length_replicate⟩

theorem witness_ReceiveChainReturnsTheMessage :
    let llr := strongLlr (txCodeword s1Gen (b1.take 77)) 10
    let s := given 0x001E000B (llrItems llr)
    Inv s ∧ s.initDone = true ∧ s.decoding = false ∧ s.params.num = .exact ∧ TablesOk s.params.gen s.params.nm ∧
      (b1.take 77).length = 77 ∧ (0 : ℝ) < 10 ∧ (30 : Imm) ≠ 0 ∧ s.operand = llrItems llr ∧
      StrongLlrs (txCodeword s.params.gen (b1.take 77)) 10 llr :=
  ⟨given_inv .., rfl, rfl, rfl, s1_tablesOk, by decide, by norm_num, by decide, rfl,
    strong_ten (ldpcEncode_length s1Gen (by simp only [crcAppend, List.length_append, crcBits_length]; decide))⟩

end

end Sys2Proof.Tests
end

section
/-! PROOFS. The reference numerics of R190: each operation of the exact format is that of the real numbers, and with it the
contract is met with tolerance 0. -/

namespace Sys2Proof.Machine

/-! ### The exact record on its own values -/

/-- A sum as the decoder forms it, the LLR first and one message after another (R177, R182). -/
theorem Value.foldl_add_toReal : ∀ (ms : List Value) (l : Value),
    (ms.foldl Value.add l).toReal = l.toReal + (ms.map Value.toReal).sum
  | [], l => by simp
  | m :: ms, l => by
    rw [List.foldl_cons, Value.foldl_add_toReal ms, Value.add_toReal, List.map_cons, List.sum_cons, add_assoc]

/-- A number that is the exact result is close to it for every tolerance that R190 allows, whatever the bound. -/
theorem closeOrSaturated_of_eq {tol x y : ℝ} {bound : ℝ → Prop} (ht : 0 ≤ tol) (h : x = y) :
    closeOrSaturated tol bound x y :=
  .inl (by simpa [h] using ht)

/-- R190: exact reals meet the contract with `TOL` = 0 and no `MSG_MAX`. -/
theorem numericsExact_meets : Numerics.exact.Meets Value.toReal 0 fun _ => False where
  cn_close _ hx := closeOrSaturated_of_eq le_rfl (Value.cn_toReal hx)
  sum_close l ms _ := closeOrSaturated_of_eq le_rfl (Value.foldl_add_toReal ms l)
  positive_exact := Value.isPositive_iff

/-! ### The exact format on the held values of a decoder -/

/-- R175: the check-node function of the exact format. -/
theorem exact_value_cn {xs : List HeldNum} (hx : xs ≠ []) :
    NumFormat.exact.value (NumFormat.exact.numerics.cn xs) = cnReal (xs.map NumFormat.exact.value) := by
  have h : (Value.cn (xs.map HeldNum.asValue)).toReal = cnReal ((xs.map HeldNum.asValue).map Value.toReal) :=
    Value.cn_toReal (by simpa using hx)
  rwa [List.map_map] at h

/-- R177: the comparison of the exact format. -/
theorem exact_isPositive_iff (v : HeldNum) :
    NumFormat.exact.numerics.isPositive v = true ↔ 0 < NumFormat.exact.value v :=
  v.asValue.isPositive_iff

/-- Settles O43: items and sums by the rules of the exact values, the check-node function and the comparison by the laws of
the reference format, and the contract from the same laws. -/
theorem referenceNumericsAreExact : Obligations.ReferenceNumericsAreExact := by
  unfold Obligations.ReferenceNumericsAreExact
  exact ⟨Value.ofItem_toReal, fun a b => Value.add_toReal a.asValue b.asValue, fun _ => exact_value_cn,
    exact_isPositive_iff, numericsExact_meets⟩

end Sys2Proof.Machine
end

section
/-! PROOFS. What one step does to the state: the effects of an operation, its frame, and the invariant that every step
keeps (R21 to R36, R195). -/

namespace Sys2Proof.Machine

/-! ### The iterations of a decode -/

/-- t is s with another DecoderState. -/
def State.DecWritten (s t : State) : Prop := ∃ d, t = { s with dec := d }

theorem State.DecWritten.trans {s t u : State} : s.DecWritten t → t.DecWritten u → s.DecWritten u := by
  rintro ⟨_, rfl⟩ ⟨e, rfl⟩
  exact ⟨e, rfl⟩

theorem State.decWritten_checkStep (s : State) : s.DecWritten s.checkStep := ⟨_, rfl⟩

theorem State.decWritten_hardStep (s : State) : s.DecWritten s.hardStep := ⟨_, rfl⟩

theorem State.decWritten_parityStep (s : State) : s.DecWritten s.parityStep := ⟨_, rfl⟩

theorem State.decWritten_bitStep (s : State) : s.DecWritten s.bitStep := ⟨_, rfl⟩

/-- The state in which the steps up to the count of step 3 leave an iteration (R174 to R178). -/
def State.counted (s : State) : State := s.checkStep.hardStep.parityStep

/-- The state in which an iteration leaves a decode that goes on (R174 to R182). -/
def State.continued (s : State) : State := s.counted.bitStep

theorem State.decWritten_counted (s : State) : s.DecWritten s.counted :=
  (s.decWritten_checkStep.trans (State.decWritten_hardStep _)).trans (State.decWritten_parityStep _)

theorem State.decWritten_continued (s : State) : s.DecWritten s.continued :=
  s.decWritten_counted.trans (State.decWritten_bitStep _)

@[simp] theorem State.counted_dec_iter (s : State) : s.counted.dec.iter = s.dec.iter + 1 := by simp [State.counted]

/-- An iteration ends the decode with a response, or leaves it to go on below the bound (R174, R183, R187). -/
theorem State.iteration_cases (s : State) (m : Imm) :
    (∃ t st aux p, s.DecWritten t ∧ s.iteration m = t.respond st aux p) ∨
      s.dec.iter + 1 < m.toNat ∧ s.iteration m = s.continued := by
  change (∃ t st aux p, s.DecWritten t ∧ s.counted.afterParity m = t.respond st aux p) ∨
    s.dec.iter + 1 < m.toNat ∧ s.counted.afterParity m = s.continued
  obtain ⟨-, h⟩ | ⟨-, ⟨-, h⟩ | ⟨-, ⟨-, h⟩ | ⟨hm, ⟨-, -, h⟩ | ⟨-, h⟩⟩⟩⟩ := s.counted.afterParity_cases m
  · exact .inl ⟨_, _, _, _, s.decWritten_counted, h⟩
  · exact .inl ⟨_, _, _, _, s.decWritten_counted, h⟩
  · exact .inl ⟨_, _, _, _, s.decWritten_continued, h⟩
  · exact .inl ⟨_, _, _, _, s.decWritten_continued, h⟩
  · exact .inr ⟨by simpa using hm, h⟩

@[simp] theorem State.continued_dec_iter (s : State) : s.continued.dec.iter = s.dec.iter + 1 := by
  simp [State.continued, State.counted]

theorem State.continued_dec_hist (s : State) : s.continued.dec.hist = s.dec.hist ++ [s.continued.dec.nunsat] := by
  simp [State.continued, State.counted]

theorem parityCount_le (nm : Vector (List Nat) 83) (deg : Vector Nat 83) (w : List Bool) : parityCount nm deg w ≤ 83 :=
  List.countP_le_length.trans_eq List.length_finRange

theorem State.continued_dec_nunsat_le (s : State) : s.continued.dec.nunsat ≤ 83 := by
  simpa [State.continued, State.counted] using parityCount_le ..

/-- The state u in which a step of `BP.DEC` from s begins its iteration: s itself within a decode, and after the
initialisation of R173 at its start. -/
def State.DecodesFrom (s u : State) : Prop :=
  s.decoding = true ∧ u = s ∨ s.initDone = true ∧ ∃ llr, u = s.initialise llr

theorem State.DecodesFrom.same_but_dec {s u : State} (h : s.DecodesFrom u) :
    u = { s with dec := u.dec, decoding := true } := by
  obtain ⟨hd, rfl⟩ | ⟨-, llr, rfl⟩ := h
  · rw [← hd]
  · rfl

/-! ### What an operation can do -/

/-- The effects of an operation i that gives a next state from s: a response, the tables and a response of `INIT` (R220),
or a step of a decode, which ends it with a response or goes on (R185). -/
inductive Effect (i : Instr) (s : State) : State → Prop
  | responds (st : Status) (aux : Imm) (p : Payload) : Effect i s (s.respond st aux p)
  | builds (hi : i = .init) (hg : graphOk s.params.nm = true) :
      Effect i s ({ s with derived := buildDerived s.params.nm, initDone := true }.respond .ok 0 [])
  | decodeEnds {m : Imm} (hi : i = .bpDec m) (d : Decoder) (st : Status) (aux : Imm) (p : Payload) :
      Effect i s ({ s with dec := d }.respond st aux p)
  | decodeGoesOn {m : Imm} {u : State} (hi : i = .bpDec m) (hu : s.DecodesFrom u) (hm : u.dec.iter + 1 < m.toNat) :
      Effect i s { s with dec := u.continued.dec, decoding := true }

theorem State.Answered.effect {s t : State} (h : s.Answered t) (i : Instr) : Effect i s t := by
  obtain ⟨-, rfl⟩ | rfl | rfl | ⟨aux, p, rfl⟩ := h
  · exact .responds ..
  · exact .responds ..
  · exact .responds ..
  · exact .responds ..

theorem iteration_effect {s u : State} (hu : s.DecodesFrom u) (m : Imm) : Effect (.bpDec m) s (u.iteration m) := by
  obtain ⟨t, st, aux, p, ⟨d, rfl⟩, h⟩ | ⟨hm, h⟩ := u.iteration_cases m
  · rw [h, hu.same_but_dec]
    exact .decodeEnds rfl d st aux p
  · obtain ⟨d, hd⟩ := u.decWritten_continued
    have hc : u.continued = { s with dec := u.continued.dec, decoding := true } := by
      rw [hd, hu.same_but_dec]
    rw [h, hc]
    exact .decodeGoesOn rfl hu hm

theorem execBpDec_effect {m : Imm} {s t : State} (h : execBpDec m s = .next t) : Effect (.bpDec m) s t := by
  obtain ⟨hd, rfl⟩ | ⟨-, ⟨-, rfl⟩ | ⟨hi, ⟨-, rfl⟩ | ⟨llr, -, -, rfl⟩⟩⟩ := execBpDec_next h
  · exact iteration_effect (.inl ⟨hd, rfl⟩) m
  · exact .responds ..
  · exact .responds ..
  · by_cases hm : m = 0
    · rw [State.startDecode, if_pos hm]
      exact .decodeEnds rfl (s.initialise llr).dec _ _ _
    · rw [State.startDecode, if_neg hm]
      exact iteration_effect (.inr ⟨hi, llr, rfl⟩) m

theorem execInit_effect {s t : State} (h : execInit s = .next t) : Effect .init s t := by
  obtain rfl | ⟨rfl, -⟩ | ⟨hg, rfl⟩ := execInit_next h
  · exact .responds ..
  · exact .responds ..
  · exact .builds rfl hg

/-- Every operation has one of the four effects. -/
theorem exec_effect {i : Instr} {s t : State} (h : exec i s = .next t) : Effect i s t := by
  by_cases hi : i = .init
  · subst hi
    exact execInit_effect h
  · by_cases hb : ∃ m, i = .bpDec m
    · obtain ⟨m, rfl⟩ := hb
      exact execBpDec_effect h
    · exact (exec_answered h hi fun m hm => hb ⟨m, hm⟩).effect i

/-! ### The frame of an operation and of a step -/

/-- Settles O16: each of the four effects names what it writes. -/
theorem operationsChangeOnlyTheirState : Obligations.OperationsChangeOnlyTheirState := by
  unfold Obligations.OperationsChangeOnlyTheirState
  intro i s t h
  cases exec_effect h with
  | responds st aux p =>
    exact ⟨rfl, rfl, rfl, rfl, fun _ => ⟨rfl, rfl⟩, fun _ => rfl, .inr ⟨rfl, rfl, rfl, _, rfl⟩⟩
  | builds hi hg =>
    exact ⟨rfl, rfl, rfl, rfl, fun hn => absurd hi hn, fun _ => rfl, .inr ⟨rfl, rfl, rfl, _, rfl⟩⟩
  | decodeEnds hi d st aux p =>
    exact ⟨rfl, rfl, rfl, rfl, fun _ => ⟨rfl, rfl⟩, fun hn => absurd hi (hn _), .inr ⟨rfl, rfl, rfl, _, rfl⟩⟩
  | decodeGoesOn hi hu hm =>
    exact ⟨rfl, rfl, rfl, rfl, fun _ => ⟨rfl, rfl⟩, fun hn => absurd hi (hn _), .inl ⟨rfl, rfl, rfl, rfl, _, hi⟩⟩

/-- CORE's own step keeps the constants, and writes the tables and `INIT_DONE` only where it runs `INIT` (R21, R51). -/
theorem coreTurn_tables {s t : State} (h : coreTurn s = .next t) :
    t.params = s.params ∧
      (t.derived ≠ s.derived ∨ t.initDone ≠ s.initDone → s.busy = true ∧ decode s.cmdWord = .ok .init) := by
  obtain ⟨-, rfl⟩ | ⟨hb, ⟨i, hd, he⟩ | ⟨-, rfl⟩⟩ := coreTurn_next h
  · exact ⟨rfl, by simp⟩
  · obtain ⟨hp, -, -, -, ht, -⟩ := operationsChangeOnlyTheirState i s t he
    refine ⟨hp, fun hc => ⟨hb, ?_⟩⟩
    by_cases hi : i = .init
    · rw [hd, hi]
    · simp [ht hi] at hc
  · exact ⟨rfl, by simp⟩

/-- Settles O17: by the step's cases, CORE's own step being the only one beside reset that writes a table. -/
theorem tablesChangeOnlyAtInitAndReset : Obligations.TablesChangeOnlyAtInitAndReset := by
  unfold Obligations.TablesChangeOnlyAtInitAndReset
  intro s t h
  obtain ⟨-, h⟩ | ⟨rest, ⟨-, h⟩ | ⟨hr, rfl⟩ | ⟨-, rfl⟩ | ⟨w, p, -, -, rfl⟩⟩ := step_next h
  · exact (coreTurn_tables h).imp_right fun hc hne => .inr (hc hne)
  · exact (coreTurn_tables h).imp_right fun hc hne => .inr (hc hne)
  · exact ⟨rfl, fun _ => .inl ⟨rest, hr⟩⟩
  · exact ⟨rfl, by simp⟩
  · exact ⟨rfl, by simp⟩

/-! ### The invariant -/

/-- Where no decode is in execution and no abort request stands, the invariant speaks of the tables only. -/
theorem inv_of_not_decoding {s : State} (hd : s.decoding = false) (ha : s.abortPending = false)
    (ht : s.initDone = true → graphOk s.params.nm = true ∧ s.derived = buildDerived s.params.nm) : Inv s where
  tables := ht
  idle _ := ha
  noAbort _ := ha
  decoding h := by simp [hd] at h
  history h := by simp [hd] at h
  counts h := by simp [hd] at h

/-- The invariant does not speak of the events to come. -/
theorem Inv.withInputs {s : State} (h : Inv s) (rest : List HostEvent) : Inv { s with inputs := rest } :=
  ⟨h.tables, h.idle, h.noAbort, h.decoding, h.history, h.counts⟩

theorem Inv.respond {s : State} (h : Inv s) (st : Status) (aux : Imm) (p : Payload) : Inv (s.respond st aux p) :=
  inv_of_not_decoding rfl rfl h.tables

theorem inv_resetEvent (s : State) : Inv s.resetEvent := inv_of_not_decoding rfl rfl (by simp)

theorem Inv.accept {s : State} (h : Inv s) (hb : s.busy = false) (w : Word) (p : Payload) : Inv (s.accept w p) :=
  inv_of_not_decoding rfl (h.idle hb) h.tables

/-- An abort request is recorded only where the input exists and only while `BUSY` = 1 (R36, R223). -/
theorem Inv.raiseAbort {s : State} (h : Inv s) : Inv s.raiseAbort where
  tables := h.tables
  idle hb := by
    have hb : s.busy = false := hb
    simp [h.idle hb, hb]
  noAbort hn := by
    have hn : s.params.hasAbort = false := hn
    simp [h.noAbort hn, hn]
  decoding := h.decoding
  history := h.history
  counts := h.counts

/-- R32, R195: an iteration begins with one count of at most 83 for each iteration so far, none at the start. -/
theorem Inv.history_of_decodesFrom {s u : State} (h : Inv s) (hu : s.DecodesFrom u) :
    u.dec.hist.length = u.dec.iter ∧ ∀ k ∈ u.dec.hist, k ≤ 83 := by
  obtain ⟨hd, rfl⟩ | ⟨-, llr, rfl⟩ := hu
  · exact ⟨h.history hd, (h.counts hd).1⟩
  · simp

theorem Inv.initDone_of_decodesFrom {s u : State} (h : Inv s) (hu : s.DecodesFrom u) : s.initDone = true := by
  obtain ⟨hd, -⟩ | ⟨hi, -⟩ := hu
  · exact (h.decoding hd).2.1
  · exact hi

/-- A decode that goes on keeps the invariant: its iteration adds one count, and ends below the bound. -/
theorem Inv.decodeGoesOn {s u : State} {m : Imm} (h : Inv s) (hb : s.busy = true)
    (hw : decode s.cmdWord = .ok (.bpDec m)) (hu : s.DecodesFrom u) (hm : u.dec.iter + 1 < m.toNat) :
    Inv { s with dec := u.continued.dec, decoding := true } := by
  obtain ⟨hlen, hle⟩ := h.history_of_decodesFrom hu
  have hlast := u.continued_dec_nunsat_le
  exact {
    tables := h.tables
    idle := h.idle
    noAbort := h.noAbort
    decoding := fun _ => ⟨hb, h.initDone_of_decodesFrom hu, m, hw, by simp, by simpa using hm⟩
    history := fun _ => by simp [u.continued_dec_hist, hlen]
    counts := fun _ => ⟨by simpa [u.continued_dec_hist, or_imp, forall_and] using ⟨hle, hlast⟩, hlast⟩ }

/-- The operation of the command in execution keeps the invariant. -/
theorem Inv.exec {i : Instr} {s t : State} (h : Inv s) (hb : s.busy = true) (hw : decode s.cmdWord = .ok i)
    (he : exec i s = .next t) : Inv t := by
  cases exec_effect he with
  | responds st aux p => exact h.respond st aux p
  | builds hi hg => exact inv_of_not_decoding rfl rfl fun _ => ⟨hg, rfl⟩
  | decodeEnds hi d st aux p => exact inv_of_not_decoding rfl rfl h.tables
  | decodeGoesOn hi hu hm => exact h.decodeGoesOn hb (hi ▸ hw) hu hm

theorem Inv.coreTurn {s t : State} (h : Inv s) (ht : coreTurn s = .next t) : Inv t := by
  obtain ⟨-, rfl⟩ | ⟨hb, ⟨i, hw, he⟩ | ⟨-, rfl⟩⟩ := coreTurn_next ht
  · exact h
  · exact h.exec hb hw he
  · exact h.respond ..

/-- Settles O19: by the step's cases, each a lemma that its update keeps the invariant. -/
theorem everyStepKeepsTheInvariant : Obligations.EveryStepKeepsTheInvariant := by
  unfold Obligations.EveryStepKeepsTheInvariant
  intro s t h hs
  obtain ⟨-, hc⟩ | ⟨rest, ⟨-, hc⟩ | ⟨-, rfl⟩ | ⟨-, rfl⟩ | ⟨w, p, -, hb, rfl⟩⟩ := step_next hs
  · exact h.coreTurn hc
  · exact (h.withInputs rest).coreTurn hc
  · exact inv_resetEvent _
  · exact (h.withInputs rest).raiseAbort
  · exact (h.withInputs rest).accept hb w p

/-- Settles O18: after reset `INIT_DONE` is 0 and no decode is in execution. -/
theorem invariantAfterReset : Obligations.InvariantAfterReset := by
  unfold Obligations.InvariantAfterReset
  exact inv_of_not_decoding rfl rfl nofun

/-! ### Steps that the host and the environment take -/

theorem step_command {s : State} {w : Word} {p : Payload} {rest : List HostEvent} (hb : s.busy = false)
    (hi : s.inputs = .command w p :: rest) : step s = .next ({ s with inputs := rest }.accept w p) := by
  simp [step, turn, hi, hb]

theorem step_reset {s : State} {rest : List HostEvent} (hi : s.inputs = .reset :: rest) :
    step s = .next { s with inputs := rest }.resetEvent := by
  simp [step, turn, hi]

/-- Settles O5: the step is the acceptance of the command. -/
theorem idleCoreAcceptsACommand : Obligations.IdleCoreAcceptsACommand := by
  unfold Obligations.IdleCoreAcceptsACommand
  intro s w p rest hb hi
  exact ⟨_, step_command hb hi, rfl, rfl, rfl, rfl, rfl, rfl, rfl, rfl, rfl, rfl, rfl⟩

/-- Settles O9: the step is the reset event. -/
theorem resetLeavesTheResetState : Obligations.ResetLeavesTheResetState := by
  unfold Obligations.ResetLeavesTheResetState
  intro s rest hi
  exact ⟨_, step_reset hi, rfl, rfl, rfl, rfl, rfl, rfl, rfl⟩

/-- Settles O10: by the values that `State.reset` writes and the tables of the configuration. -/
theorem stateAfterReset : Obligations.StateAfterReset := by
  unfold Obligations.StateAfterReset
  exact ⟨rfl, rfl, rfl, rfl, rfl, rfl⟩

end Sys2Proof.Machine
end

section
/-! PROOFS. The command word (R71, R74, R75, R78): which words the decoder takes, what it makes of them, and what CORE does
with the word of the command in execution. -/

namespace Sys2Proof

/-! ### The fields of a command word -/

/-- A word with `rsv` = 0 is the command word of its other two fields. -/
theorem eq_commandWord {w : Word} (hr : w.field 8 8 = 0) : w = commandWord (w.field 16 16) (w.field 0 8) := by
  have hw : w = w.field 16 16 ++ w.field 8 8 ++ w.field 0 8 := by
    refine BitVec.eq_of_getLsbD_eq fun k hk => ?_
    simp only [Word.field, BitVec.getLsbD_append, BitVec.getLsbD_extractLsb']
    split
    · simp [*]
    · split
      · simp [show k - 8 < 8 by omega, show 8 + (k - 8) = k by omega]
      · simp [show k - 8 - 8 < 16 by omega, show 16 + (k - 8 - 8) = k by omega]
  rwa [hr] at hw

/-- R71: the fields of an operation's command word. -/
theorem encode_fields (i : Instr) :
    (encode i).field 0 8 = i.op ∧ (encode i).field 8 8 = 0 ∧ (encode i).field 16 16 = i.imm :=
  Laws.commandWord_fields i.imm i.op

/-- R74: the opcode map ends at 0x0B. -/
theorem Instr.op_lt (i : Instr) : i.op.toNat < 0x0C := by
  cases i <;> simp [Instr.op]

/-- R75: the rows of the map below 0x09 have no immediate. -/
theorem Instr.imm_eq_zero {i : Instr} (h : i.op.toNat < 0x09) : i.imm = 0 := by
  cases i with
  | fgNm c => simp [Instr.op] at h
  | fgMn n => simp [Instr.op] at h
  | bpDec m => simp [Instr.op] at h
  | _ => rfl

/-! ### The decoder -/

/-- R74, R78: what the decoder may answer to the word w, and what the fields of w then are. -/
inductive Decodes (w : Word) : Except DecodeError Instr → Prop
  | reservedField (hr : w.field 8 8 ≠ 0) : Decodes w (.error .reservedField)
  | reservedOp (ho : 0x0C ≤ (w.field 0 8).toNat) : Decodes w (.error .reservedOp)
  | immediateNotZero (ho : (w.field 0 8).toNat < 0x09) (hm : w.field 16 16 ≠ 0) :
      Decodes w (.error .immediateNotZero)
  | legal {i : Instr} (hr : w.field 8 8 = 0) (ho : w.field 0 8 = i.op) (hm : w.field 16 16 = i.imm) : Decodes w (.ok i)

/-- A row of the map that has no immediate. -/
theorem decodes_withoutImm {w : Word} {i : Instr} (hr : w.field 8 8 = 0) (ho : (w.field 0 8).toNat = i.op.toNat)
    (hi : i.op.toNat < 0x09) : Decodes w (withoutImm (w.field 16 16) i) := by
  unfold withoutImm
  split
  next hm => exact .legal hr (BitVec.eq_of_toNat_eq ho) (hm.trans (Instr.imm_eq_zero hi).symm)
  next hm => exact .immediateNotZero (ho.trans_lt hi) hm

theorem decode_decodes (w : Word) : Decodes w (decode w) := by
  unfold decode
  split
  next hr => exact .reservedField hr
  next hr =>
    have hr := not_not.mp hr
    split
    case h_10 ho | h_11 ho | h_12 ho => exact .legal hr (BitVec.eq_of_toNat_eq ho) rfl
    case h_13 => exact .reservedOp (by grind)
    all_goals exact decodes_withoutImm hr ‹_› (by decide)

/-- The word that has the fields of an operation decodes to it. -/
theorem decode_encode (i : Instr) : decode (encode i) = .ok i := by
  obtain ⟨ho, hr, hm⟩ := encode_fields i
  unfold decode
  rw [if_neg (not_not.mpr hr), ho, hm]
  cases i <;> rfl

/-- Settles O1: the decoder takes a word only with the fields of the operation, and these make the word. -/
theorem decodeExactlyWhatEncodes : Obligations.DecodeExactlyWhatEncodes := by
  unfold Obligations.DecodeExactlyWhatEncodes
  refine fun w i => ⟨fun h => ?_, fun h => h ▸ decode_encode i⟩
  have hd := decode_decodes w
  rw [h] at hd
  cases hd with
  | legal hr ho hm => rw [eq_commandWord hr, ho, hm, encode]

/-- R78: the illegal words. -/
theorem decode_eq_error_iff (w : Word) : (∃ e, decode w = .error e) ↔
    0x0C ≤ (w.field 0 8).toNat ∨ w.field 8 8 ≠ 0 ∨ (w.field 0 8).toNat < 0x09 ∧ w.field 16 16 ≠ 0 := by
  have hd := decode_decodes w
  generalize decode w = r at hd
  cases hd with
  | reservedField hr => exact iff_of_true ⟨_, rfl⟩ (.inr (.inl hr))
  | reservedOp ho => exact iff_of_true ⟨_, rfl⟩ (.inl ho)
  | immediateNotZero ho hm => exact iff_of_true ⟨_, rfl⟩ (.inr (.inr ⟨ho, hm⟩))
  | @legal i hr ho hm =>
    rw [ho, hr, hm]
    refine iff_of_false nofun ?_
    rintro (h | h | ⟨h, hn⟩)
    · exact absurd i.op_lt (not_lt.mpr h)
    · exact h rfl
    · exact hn (Instr.imm_eq_zero h)

/-- Settles O2: each word is given by its fields. -/
theorem commandWordsOfTheVectors : Obligations.CommandWordsOfTheVectors := by
  unfold Obligations.CommandWordsOfTheVectors
  refine ⟨rfl, rfl, rfl, rfl, rfl, rfl, rfl, rfl, rfl, rfl, rfl, rfl, rfl, ?_, ?_, ?_⟩
  · exact ⟨.reservedOp, rfl⟩
  · exact ⟨.reservedField, rfl⟩
  · exact ⟨.immediateNotZero, rfl⟩

end Sys2Proof

namespace Sys2Proof.Machine

/-! ### The word of the command in execution -/

/-- With a command in execution, a step in which CORE moves is CORE's own step (R282, R283). -/
theorem step_of_coreMoves {s s' : State} (hb : s.busy = true) (h : CoreMoves s s') : step s = coreTurn s' := by
  obtain ⟨hi, rfl⟩ | ⟨⟨w, p, rest, hi⟩, rfl⟩ | ⟨rest, hi, rfl⟩ := h
  · simp [step, turn, hi]
  · simp [step, turn, hi, hb]
  · simp [step, turn, hi]

/-- CORE's turn leaves the command in execution. -/
theorem CoreMoves.command_eq {s s' : State} (h : CoreMoves s s') : s'.busy = s.busy ∧ s'.cmdWord = s.cmdWord := by
  obtain ⟨-, rfl⟩ | ⟨-, rfl⟩ | ⟨rest, -, rfl⟩ := h <;> exact ⟨rfl, rfl⟩

theorem coreTurn_legal {s : State} {i : Instr} (hb : s.busy = true) (hd : decode s.cmdWord = .ok i) :
    coreTurn s = exec i s := by
  simp [coreTurn, hb, hd]

theorem coreTurn_illegal {s : State} {e : DecodeError} (hb : s.busy = true) (hd : decode s.cmdWord = .error e) :
    coreTurn s = .next (s.raise .invalidOp) := by
  simp [coreTurn, hb, hd]

/-- Settles O4: the step is CORE's own, and that is the operation. -/
theorem stepRunsTheDecodedOperation : Obligations.StepRunsTheDecodedOperation := by
  unfold Obligations.StepRunsTheDecodedOperation
  intro s s' i hb hm hd
  obtain ⟨hb', hw⟩ := hm.command_eq
  exact (step_of_coreMoves hb hm).trans (coreTurn_legal (hb'.trans hb) (hw ▸ hd))

/-- Settles O3: the illegal words by the decoder's cases, and the answer by CORE's own step. -/
theorem illegalWordsAreInvalidOp : Obligations.IllegalWordsAreInvalidOp := by
  unfold Obligations.IllegalWordsAreInvalidOp
  refine fun w => ⟨decode_eq_error_iff w, ?_⟩
  rintro s s' hb hm rfl ⟨e, hd⟩
  obtain ⟨hb', hw⟩ := hm.command_eq
  exact (step_of_coreMoves hb hm).trans (coreTurn_illegal (hb'.trans hb) (hw ▸ hd))

end Sys2Proof.Machine
end

section
/-! PROOFS. The payload of a command (R72, R79 to R81, R192): which payloads an operation reads, and what stops it. -/

namespace Sys2Proof

/-! ### Typed payloads -/

theorem Instr.payloadTyped_iff {i : Instr} {ty : ItemType} (hi : i.itemType = some ty) (p : Payload) :
    i.payloadTyped p = true ↔ ∀ x ∈ p, x.type = ty := by
  simp [Instr.payloadTyped, hi, @eq_comm _ ty]

@[simp] theorem Payload.finite_cons (x : Item) (p : Payload) :
    Payload.finite (x :: p) = true ↔ (∀ c, x ≠ .llr (.nonFinite c)) ∧ Payload.finite p = true := by
  rcases x with _ | _ | _ | (_ | _) <;> simp [Payload.finite]

namespace Machine

/-- The payloads of items of one form. -/
theorem forall_mem_range_iff {α : Type} {f : α → Item} {p : Payload} :
    (∀ x ∈ p, x ∈ Set.range f) ↔ ∃ as : List α, p = as.map f :=
  (Set.ext_iff.mp (Set.range_list_map f) p).symm.trans (exists_congr fun _ => eq_comm)

theorem type_bit_iff {p : Payload} : (∀ x ∈ p, x.type = .bit) ↔ ∃ bs, p = bitItems bs := by
  have h (x : Item) : x.type = .bit ↔ x ∈ Set.range Item.bit := by cases x <;> simp [Item.type]
  simp only [h, forall_mem_range_iff, bitItems]

theorem type_sym_iff {p : Payload} : (∀ x ∈ p, x.type = .sym) ↔ ∃ vs, p = symItems vs := by
  have h (x : Item) : x.type = .sym ↔ x ∈ Set.range Item.sym := by cases x <;> simp [Item.type]
  simp only [h, forall_mem_range_iff, symItems]

theorem eq_llrItems_of_type {p : Payload} (ht : ∀ x ∈ p, x.type = .llr) (hf : Payload.finite p = true) :
    ∃ qs, p = llrItems qs := by
  refine forall_mem_range_iff.mp fun x hx => ?_
  have hx := And.intro (ht x hx) (List.all_eq_true.mp hf x hx)
  rcases x with _ | _ | _ | (q | _) <;> simp [Item.type] at hx
  exact ⟨q, rfl⟩

/-- R192: among items of the type `LLR`, one that is no finite number decides how the payload reads. -/
theorem llrsOf_of_not_finite : ∀ {p : Payload}, (∀ x ∈ p, x.type = .llr) → Payload.finite p = false →
    llrsOf p = .nonFinite
  | .llr (.finite q) :: p, h, hf => by
    have hp : Payload.finite p = false := by simpa [Payload.finite] using hf
    simp [llrsOf, llrsOf_of_not_finite (List.forall_mem_cons.mp h).2 hp, LlrRead.cons]
  | .llr (.nonFinite _) :: _, _, _ => rfl
  | .bit _ :: _, h, _ | .idx _ :: _, h, _ | .sym _ :: _, h, _ => nomatch (List.forall_mem_cons.mp h).1

/-- R72: among finite items, one of another type decides how the payload reads. -/
theorem llrsOf_of_foreign : ∀ {p : Payload}, Payload.finite p = true → (¬ ∀ x ∈ p, x.type = .llr) →
    llrsOf p = .foreign
  | [], _, h => absurd (List.forall_mem_nil _) h
  | .llr (.finite q) :: p, hf, h => by
    have hp : ¬ ∀ x ∈ p, x.type = .llr := fun hp => h (List.forall_mem_cons.mpr ⟨rfl, hp⟩)
    simp [llrsOf, llrsOf_of_foreign ((Payload.finite_cons ..).mp hf).2 hp, LlrRead.cons]
  | .llr (.nonFinite c) :: _, hf, _ => absurd rfl (((Payload.finite_cons ..).mp hf).1 c)
  | .bit _ :: _, _, _ | .idx _ :: _, _, _ | .sym _ :: _, _, _ => rfl

theorem State.withBits_of_foreign {s : State} (h : ¬ ∀ x ∈ s.operand, x.type = .bit) (k : List Bool → State) :
    s.withBits k = .fault .foreignItem := by
  have hn : bitsOf s.operand = none := Option.eq_none_iff_forall_ne_some.mpr fun bs hb =>
    h (type_bit_iff.mpr ⟨bs, bitsOf_eq_some.mp hb⟩)
  simp [State.withBits, hn]

theorem State.withSyms_of_foreign {s : State} (h : ¬ ∀ x ∈ s.operand, x.type = .sym) (k : List Sym → State) :
    s.withSyms k = .fault .foreignItem := by
  have hn : symsOf s.operand = none := Option.eq_none_iff_forall_ne_some.mpr fun vs hv =>
    h (type_sym_iff.mpr ⟨vs, symsOf_eq_some.mp hv⟩)
  simp [State.withSyms, hn]

/-! ### The form of an operation: the checks of R250, then what is done with the payload -/

/-- The checks that come before the operation i reads its payload: `INIT_DONE` and the length (R222, R241). -/
def State.checked (s : State) (i : Instr) (k : Outcome) : Outcome :=
  s.whenInitialised (s.whenLength (i.lengthOk s.operand.length) k)

theorem State.checked_of {s : State} {i : Instr} (hi : s.initDone = true) (hl : i.lengthOk s.operand.length = true)
    (k : Outcome) : s.checked i k = k := by
  rw [State.checked, hl, State.whenLength_true, State.whenInitialised_of_done hi]

/-- The `aux` of a success of an operation on bits: the count of `LDPC.SYN` (R143), and 0 for the others (R76). -/
def bitsAux (i : Instr) (s : State) (bs : List Bool) : Imm :=
  if i = .ldpcSyn then BitVec.ofNat 16 (parityCount s.params.nm s.derived.deg bs) else 0

/-- R102, R103, R124, R142, R143: the operations on bits. -/
theorem exec_bits (s : State) : ∀ {i : Instr}, i.itemType = some .bit → ∃ result : List Bool → Payload,
    exec i s = s.checked i (s.withBits fun bs => s.respond .ok (bitsAux i s bs) (result bs))
  | .crc14Enc, _ | .crc14Vfy, _ | .grayMap, _ | .ldpcEnc, _ | .ldpcSyn, _ => ⟨_, rfl⟩

/-- R122, R123, R125: the operations on symbols. -/
theorem exec_syms (s : State) : ∀ {i : Instr}, i.itemType = some .sym → ∃ result : List Sym → Payload,
    exec i s = s.checked i (s.withSyms fun vs => s.respond .ok 0 (result vs))
  | .grayEnc, _ | .grayDec, _ | .grayUnmap, _ => ⟨_, rfl⟩

/-- R156, R157: the reads of the graph, which have no payload. -/
theorem exec_read (s : State) : ∀ {i : Instr}, i.itemType = none → i ≠ .init → ∃ result : Payload,
    exec i s = s.checked i (s.whenIndex i.immOk (.next (s.respond .ok 0 result)))
  | .init, _, h => absurd rfl h
  | .fgNm _, _, _ | .fgMn _, _, _ => ⟨_, rfl⟩

/-- R170: `BP.DEC` where no decode is in execution yet. -/
theorem exec_llrs {s : State} (hd : s.decoding = false) (m : Imm) :
    exec (.bpDec m) s = s.checked (.bpDec m) (s.withLlrs fun llr => s.startDecode m llr) :=
  if_neg (by simp [hd])

/-- R74: an operation's payload has no `IDX` items, and only `BP.DEC` has `LLR` items. -/
theorem itemType_cases (i : Instr) :
    i.itemType = none ∨ i.itemType = some .bit ∨ i.itemType = some .sym ∨ ∃ m, i = .bpDec m := by
  cases i <;> simp [Instr.itemType]

/-! ### The stops -/

theorem exec_foreign {i : Instr} {s : State} (hi : s.initDone = true) (hd : s.decoding = false)
    (hl : i.lengthOk s.operand.length = true) (hn : i.itemType ≠ none) (ht : i.payloadTyped s.operand = false)
    (hf : Payload.finite s.operand = true) : exec i s = .fault .foreignItem := by
  have hty {ty : ItemType} (h : i.itemType = some ty) : ¬ ∀ x ∈ s.operand, x.type = ty := fun hx => by
    rw [(Instr.payloadTyped_iff h _).mpr hx] at ht
    cases ht
  obtain h | h | h | ⟨m, rfl⟩ := itemType_cases i
  · exact absurd h hn
  · obtain ⟨result, he⟩ := exec_bits s h
    rw [he, State.checked_of hi hl, State.withBits_of_foreign (hty h)]
  · obtain ⟨result, he⟩ := exec_syms s h
    rw [he, State.checked_of hi hl, State.withSyms_of_foreign (hty h)]
  · rw [exec_llrs hd, State.checked_of hi hl, State.withLlrs, llrsOf_of_foreign hf (hty rfl)]

/-- The checks give a next state where what follows them does. -/
theorem State.checked_next {s : State} {i : Instr} {k : Outcome} (hk : ∃ t, k = .next t) :
    ∃ t, s.checked i k = .next t := by
  obtain ⟨t, rfl⟩ := hk
  unfold State.checked State.whenInitialised State.whenLength
  split
  · split <;> exact ⟨_, rfl⟩
  · exact ⟨_, rfl⟩

theorem execInit_total (s : State) : ∃ t, execInit s = .next t := by
  unfold execInit
  cases s.operand.length == 0 <;> exact ⟨_, rfl⟩

theorem exec_total {i : Instr} {s : State} (ht : i.itemType = none ∨ i.payloadTyped s.operand = true)
    (hf : Payload.finite s.operand = true) : ∃ t, exec i s = .next t := by
  have hty {ty : ItemType} (h : i.itemType = some ty) : ∀ x ∈ s.operand, x.type = ty :=
    (Instr.payloadTyped_iff h _).mp (ht.resolve_left (by simp [h]))
  obtain h | h | h | ⟨m, rfl⟩ := itemType_cases i
  · by_cases hi : i = .init
    · exact hi ▸ execInit_total s
    · obtain ⟨result, he⟩ := exec_read s h hi
      rw [he]
      refine State.checked_next ?_
      cases i.immOk <;> exact ⟨_, rfl⟩
  · obtain ⟨result, he⟩ := exec_bits s h
    obtain ⟨bs, hb⟩ := type_bit_iff.mp (hty h)
    exact he ▸ State.checked_next ⟨_, State.withBits_of hb _⟩
  · obtain ⟨result, he⟩ := exec_syms s h
    obtain ⟨vs, hv⟩ := type_sym_iff.mp (hty h)
    exact he ▸ State.checked_next ⟨_, State.withSyms_of hv _⟩
  · obtain ⟨qs, hq⟩ := eq_llrItems_of_type (hty rfl) hf
    cases hd : s.decoding
    · exact exec_llrs hd m ▸ State.checked_next ⟨_, State.withLlrs_of hq _⟩
    · exact ⟨_, if_pos hd⟩

/-- Settles O55: by what an operation does with its payload, for each type of items. -/
theorem stopsAreForForeignAndNonFiniteItems : Obligations.StopsAreForForeignAndNonFiniteItems := by
  unfold Obligations.StopsAreForForeignAndNonFiniteItems
  refine ⟨fun i s => exec_foreign, fun m s hi hd hl ht hf => ?_, fun i s => exec_total⟩
  have hl : (Instr.bpDec m).lengthOk s.operand.length = true := beq_iff_eq.mpr hl
  rw [exec_llrs hd, State.checked_of hi hl, State.withLlrs,
    llrsOf_of_not_finite ((Instr.payloadTyped_iff rfl _).mp ht) hf]

/-! ### LLR items (R81) -/

/-- No step of an iteration writes `LLR0`. -/
theorem State.iteration_llr0 (s : State) (m : Imm) : (s.iteration m).dec.llr0 = s.dec.llr0 := by
  have hc : s.counted.dec.llr0 = s.dec.llr0 := by simp [State.counted]
  change (s.counted.afterParity m).dec.llr0 = s.dec.llr0
  obtain ⟨-, h⟩ | ⟨-, ⟨-, h⟩ | ⟨-, ⟨-, h⟩ | ⟨-, ⟨-, -, h⟩ | ⟨-, h⟩⟩⟩⟩ := s.counted.afterParity_cases m <;>
    simp [h, hc]

/-- R173, R186: the first step of a decode leaves in `LLR0` what the initialisation writes. -/
theorem State.startDecode_llr0 (s : State) (m : Imm) (llr : List RealNum) (n : Fin 174) :
    (s.startDecode m llr).dec.llr0[n] = s.numerics.item (llr.getD n (.rat 0)) := by
  have h : (s.startDecode m llr).dec.llr0 = (s.initialise llr).dec.llr0 := by
    unfold State.startDecode
    split
    · rfl
    · exact State.iteration_llr0 _ m
  simp [h]

/-- Settles O59: the first step of the decode embeds the items, and every format takes its own numbers as they stand. -/
theorem llrItemsAreTakenAsTheyStand : Obligations.LlrItemsAreTakenAsTheyStand := by
  unfold Obligations.LlrItemsAreTakenAsTheyStand
  intro s m llr hi hd ho hl hf
  refine ⟨s.startDecode m llr, ?_, fun n => ?_⟩
  · have hlen : (Instr.bpDec m).lengthOk s.operand.length = true := by simp [Instr.lengthOk, ho, llrItems, hl]
    rw [exec_llrs hd, State.checked_of hi hlen, State.withLlrs_of ho]
  · rw [State.startDecode_llr0]
    exact value_item s.params.num (hf n n.isLt)

/-! ### Bits and symbols (R79) -/

/-- R79: symbol i of a bit sequence is made of its triple of bits number i. -/
theorem symsOfBits_getElem? : ∀ (p : List Bool) {i : Nat}, i < p.length / 3 → (symsOfBits p)[i]? =
    some (symOfBits (p.getD (3 * i) false) (p.getD (3 * i + 1) false) (p.getD (3 * i + 2) false))
  | _ :: _ :: _ :: _, 0, _ => rfl
  | _ :: _ :: _ :: p, i + 1, h => symsOfBits_getElem? p (by simp at h; omega)
  | [], _, h | [_], _, h | [_, _], _, h => by simp at h

theorem grayAt_table (v : Sym) : ([0, 1, 3, 2, 5, 6, 4, 7] : List Sym)[v.toNat]? = some (grayAt v) := by
  revert v; decide

/-- Settles O34: each triple of bits is a symbol, and each symbol an index of the table. -/
theorem grayMapMapsTriples : Obligations.GrayMapMapsTriples := by
  unfold Obligations.GrayMapMapsTriples
  intro s p hi ho hp
  have hl : Instr.grayMap.lengthOk s.operand.length = true := by simp [Instr.lengthOk, ho, hp]
  refine ⟨(symsOfBits p).map grayAt, ?_, ?_, fun i h => ?_⟩
  · exact (State.checked_of hi hl _).trans (State.withBits_of ho _)
  · rw [List.length_map, symsOfBits_length (p.length / 3) p (by omega)]
  · rw [List.getElem?_map, symsOfBits_getElem? p h, ← symOfBits_toNat, grayAt_table, Option.map_some]

/-- R79: the bits of symbol i stand at 3i, 3i + 1 and 3i + 2. -/
theorem flatMap_bitsOfSym_getElem? {j : Nat} (hj : j < 3) : ∀ {vs : List Sym} {i : Nat} {v : Sym}, vs[i]? = some v →
    (vs.flatMap bitsOfSym)[3 * i + j]? = (bitsOfSym v)[j]?
  | u :: vs, 0, v, h => by
    cases h
    rw [List.flatMap_cons, mul_zero, Nat.zero_add, List.getElem?_append_left (by simpa [bitsOfSym] using hj)]
  | u :: vs, i + 1, v, h => by
    rw [List.flatMap_cons, show 3 * (i + 1) + j = (bitsOfSym u).length + (3 * i + j) by simp [bitsOfSym]; omega,
      List.getElem?_append_right (Nat.le_add_right ..), Nat.add_sub_cancel_left]
    exact flatMap_bitsOfSym_getElem? hj (vs := vs) h

theorem flatMap_bitsOfSym_length (vs : List Sym) : (vs.flatMap bitsOfSym).length = 3 * vs.length := by
  simp [List.length_flatMap, bitsOfSym, mul_comm]

/-- R121: the inverse table as `INIT` builds it. -/
theorem grayInvAt_table (nm : Vector (List Nat) 83) (t : Sym) :
    ([0, 1, 3, 2, 6, 4, 5, 7] : List Sym)[t.toNat]? = some (grayInvAt (buildDerived nm) t) := by
  change _ = some buildGrayInv[t.toFin]
  revert t; decide

/-- Settles O35: from a built state each tone reads the inverse table, and each symbol gives its three bits. -/
theorem grayUnmapGivesTheBits : Obligations.GrayUnmapGivesTheBits := by
  unfold Obligations.GrayUnmapGivesTheBits
  intro s q hinv hi ho
  refine ⟨(q.map (grayInvAt s.derived)).flatMap bitsOfSym, ?_, ?_, fun i h => ?_⟩
  · exact (State.checked_of (i := .grayUnmap) hi rfl _).trans (State.withSyms_of ho _)
  · rw [flatMap_bitsOfSym_length, List.length_map]
  · have hq : (q.map (grayInvAt s.derived))[i]? = some (grayInvAt s.derived (q.getD i 0)) := by simp [h]
    refine ⟨grayInvAt s.derived (q.getD i 0), ?_, flatMap_bitsOfSym_getElem? (j := 0) (by decide) hq,
      flatMap_bitsOfSym_getElem? (j := 1) (by decide) hq, flatMap_bitsOfSym_getElem? (j := 2) (by decide) hq⟩
    rw [(hinv.tables hi).2, grayInvAt_table]

end Machine

end Sys2Proof
end

section
/-! PROOFS. The responses (R70, R76, R77): a command in execution is ended by one response, and the form that it has. -/

namespace Sys2Proof.Machine

/-! ### The command in execution -/

/-- Between s and t the command in execution stands unanswered, or one response ends it (R70). -/
def State.StandsOrEnds (s t : State) : Prop :=
  t.cmdWord = s.cmdWord ∧ t.operand = s.operand ∧
    (t.busy = s.busy ∧ t.responses = s.responses ∨ s.busy = true ∧ t.busy = false ∧ ∃ r, t.responses = r :: s.responses)

theorem coreTurn_standsOrEnds {s t : State} (h : coreTurn s = .next t) : s.StandsOrEnds t ∧ t.inputs = s.inputs := by
  obtain ⟨-, rfl⟩ | ⟨hb, ⟨i, -, he⟩ | ⟨-, rfl⟩⟩ := coreTurn_next h
  · exact ⟨⟨rfl, rfl, .inl ⟨rfl, rfl⟩⟩, rfl⟩
  · obtain ⟨-, hw, ho, hi, -, -, ⟨hr, hbusy, -⟩ | ⟨hbusy, -, -, hr⟩⟩ := operationsChangeOnlyTheirState i s t he
    · exact ⟨⟨hw, ho, .inl ⟨hbusy, hr⟩⟩, hi⟩
    · exact ⟨⟨hw, ho, .inr ⟨hb, hbusy, hr⟩⟩, hi⟩
  · exact ⟨⟨rfl, rfl, .inr ⟨hb, rfl, _, rfl⟩⟩, rfl⟩

/-- What a step makes of the command in execution: it stands or is ended, and one that waits goes on waiting; or reset cuts
it (R270); or there was none, and one is accepted. -/
theorem step_command_cases {s t : State} (h : step s = .next t) :
    s.StandsOrEnds t ∧ (∀ w p rest, s.inputs = .command w p :: rest → t.inputs = s.inputs) ∨
      (∃ rest, s.inputs = .reset :: rest) ∧ t.busy = false ∧ t.responses = s.responses ∨
      s.busy = false ∧ ∃ w p rest, s.inputs = .command w p :: rest ∧
        t = { s with inputs := rest }.accept w p := by
  obtain ⟨-, hc⟩ | ⟨rest, ⟨hi, hc⟩ | ⟨hi, rfl⟩ | ⟨hi, rfl⟩ | ⟨w, p, hi, hb, rfl⟩⟩ := step_next h
  · obtain ⟨hs, hin⟩ := coreTurn_standsOrEnds hc
    exact .inl ⟨hs, fun _ _ _ _ => hin⟩
  · exact .inl ⟨(coreTurn_standsOrEnds hc).1, fun w p rest' hw => by simp [hi] at hw⟩
  · exact .inr (.inl ⟨⟨rest, hi⟩, rfl, rfl⟩)
  · exact .inl ⟨⟨rfl, rfl, .inl ⟨rfl, rfl⟩⟩, fun w p rest' hw => by simp [hi] at hw⟩
  · exact .inr (.inr ⟨hb, w, p, rest, hi, rfl⟩)

theorem step_idle {s : State} (hb : s.busy = false) (hi : s.inputs = []) : step s = .next s := by
  simp [step, turn, coreTurn, hi, hb]

/-- Settles O6: by what a step makes of the command in execution. -/
theorem oneResponseForEachCommand : Obligations.OneResponseForEachCommand := by
  unfold Obligations.OneResponseForEachCommand
  refine ⟨fun s t h => ?_, fun s => step_idle⟩
  obtain ⟨⟨hw, ho, hr⟩, hin⟩ | ⟨hreset, hb, hr⟩ | ⟨hb, w, p, rest, hi, rfl⟩ := step_command_cases h
  · refine ⟨hr.imp_left And.right, ?_, ?_, ?_, fun w p rest _ => hin w p rest⟩
    · intro hs ht
      obtain ⟨hbusy, -⟩ | ⟨hbusy, -⟩ := hr
      · simp [hbusy, hs] at ht
      · simp [hbusy] at hs
    · intro hs ht
      obtain ⟨hbusy, -⟩ | ⟨-, -, hr⟩ := hr
      · simp [hbusy, hs] at ht
      · exact .inl hr
    · intro hs ht
      obtain ⟨-, hr⟩ | ⟨-, hbusy, -⟩ := hr
      · exact ⟨hw, ho, hr⟩
      · simp [hbusy] at ht
  · obtain ⟨rest, hi⟩ := hreset
    exact ⟨.inl hr, by simp [hb], fun _ _ => .inr ⟨rest, hi⟩, by simp [hb], by simp [hi]⟩
  · exact ⟨.inl rfl, fun _ _ => ⟨w, p, rest, hi, rfl, rfl, rfl⟩, by simp [hb], by simp [hb], by simp [hb]⟩

/-! ### The form of a response -/

/-- R76, R77: the forms of the response that the operation i gives from s in t: a fault, the count of `LDPC.SYN`, the
iterations of `BP.DEC`, or a success of another operation. -/
inductive ResponseForm (i : Instr) (s t : State) : Response → Prop
  | fault {st : Status} (hst : st ≠ .ok) : ResponseForm i s t ⟨st, 0, []⟩
  | count (hi : i = .ldpcSyn) {w : List Bool} (hw : s.operand = bitItems w) (p : Payload) :
      ResponseForm i s t ⟨.ok, BitVec.ofNat 16 (parityCount s.params.nm s.derived.deg w), p⟩
  | iterations {m : Imm} (hi : i = .bpDec m) (hlt : t.dec.iter < 2 ^ 16) (p : Payload) :
      ResponseForm i s t ⟨.ok, BitVec.ofNat 16 t.dec.iter, p⟩
  | plain (hs : i ≠ .ldpcSyn) (hb : ∀ m, i ≠ .bpDec m) (p : Payload) : ResponseForm i s t ⟨.ok, 0, p⟩

/-- A response that was added to the list is the one given. -/
theorem ResponseForm.of_respond {i : Instr} {s u : State} {st : Status} {aux : Imm} {p : Payload} {r : Response}
    (hu : u.responses = s.responses) (h : ResponseForm i s (u.respond st aux p) ⟨st, aux, p⟩)
    (hr : (u.respond st aux p).responses = r :: s.responses) : ResponseForm i s (u.respond st aux p) r := by
  rw [State.respond_responses, hu] at hr
  cases hr
  exact h

theorem ResponseForm.of_raise {i : Instr} {s u : State} {st : Status} {r : Response} (hu : u.responses = s.responses)
    (hr : (u.raise st).responses = r :: s.responses) (hst : st ≠ .ok := by decide) : ResponseForm i s (u.raise st) r :=
  .of_respond hu (.fault hst) hr

/-- What the checks and what follows them answer. -/
theorem State.checked_eq_next {s t : State} {i : Instr} {k : Outcome} (h : s.checked i k = .next t) :
    (∃ st, st ≠ .ok ∧ t = s.raise st) ∨ k = .next t := by
  obtain ⟨-, h⟩ | ⟨-, rfl⟩ := State.whenInitialised_eq_next.mp h
  · obtain ⟨-, h⟩ | ⟨-, rfl⟩ := State.whenLength_eq_next.mp h
    · exact .inr h
    · exact .inl ⟨_, by decide, rfl⟩
  · exact .inl ⟨_, by decide, rfl⟩

section

variable {i : Instr} {s t : State} {r : Response}

theorem execInit_responseForm (h : execInit s = .next t) (hr : t.responses = r :: s.responses) :
    ResponseForm .init s t r := by
  obtain rfl | ⟨rfl, -⟩ | ⟨-, rfl⟩ := execInit_next h
  · exact .of_raise rfl hr
  · exact .of_raise rfl hr
  · exact .of_respond rfl (.plain (by simp) (by simp) _) hr

theorem exec_read_responseForm (hi : i.itemType = none) (hn : i ≠ .init) (h : exec i s = .next t)
    (hr : t.responses = r :: s.responses) : ResponseForm i s t r := by
  obtain ⟨result, he⟩ := exec_read s hi hn
  rw [he] at h
  obtain ⟨st, hst, rfl⟩ | h := State.checked_eq_next h
  · exact .of_raise rfl hr hst
  · obtain ⟨-, h⟩ | ⟨-, rfl⟩ := State.whenIndex_eq_next.mp h
    · cases h
      exact .of_respond rfl (.plain (by rintro rfl; cases hi) (by rintro m rfl; cases hi) _) hr
    · exact .of_raise rfl hr

theorem exec_bits_responseForm (hi : i.itemType = some .bit) (h : exec i s = .next t)
    (hr : t.responses = r :: s.responses) : ResponseForm i s t r := by
  obtain ⟨result, he⟩ := exec_bits s hi
  rw [he] at h
  obtain ⟨st, hst, rfl⟩ | h := State.checked_eq_next h
  · exact .of_raise rfl hr hst
  · obtain ⟨w, hw, rfl⟩ := State.withBits_eq_next.mp h
    refine .of_respond rfl ?_ hr
    unfold bitsAux
    split
    next hs => exact .count hs hw _
    next hs => exact .plain hs (by rintro m rfl; cases hi) _

theorem exec_syms_responseForm (hi : i.itemType = some .sym) (h : exec i s = .next t)
    (hr : t.responses = r :: s.responses) : ResponseForm i s t r := by
  obtain ⟨result, he⟩ := exec_syms s hi
  rw [he] at h
  obtain ⟨st, hst, rfl⟩ | h := State.checked_eq_next h
  · exact .of_raise rfl hr hst
  · obtain ⟨vs, -, rfl⟩ := State.withSyms_eq_next.mp h
    exact .of_respond rfl (.plain (by rintro rfl; cases hi) (by rintro m rfl; cases hi) _) hr

/-- R179 to R187: an iteration that begins below 2^16 - 1 answers its own number, or a fault, or nothing. -/
theorem iteration_responseForm {u : State} {m : Imm} (hu : u.responses = s.responses) (hlt : u.dec.iter + 1 < 2 ^ 16)
    (hr : (u.iteration m).responses = r :: s.responses) : ResponseForm (.bpDec m) s (u.iteration m) r := by
  have hc : u.counted.responses = s.responses := by simp [State.counted, hu]
  have hb : u.counted.bitStep.responses = s.responses := by simp [hc]
  change (u.counted.afterParity m).responses = _ at hr
  change ResponseForm _ s (u.counted.afterParity m) r
  obtain ⟨-, h⟩ | ⟨-, ⟨-, h⟩ | ⟨-, ⟨-, h⟩ | ⟨-, ⟨-, -, h⟩ | ⟨-, h⟩⟩⟩⟩ := u.counted.afterParity_cases m
  · rw [h] at hr ⊢
    exact .of_respond hc (.iterations rfl (by simpa using hlt) _) hr
  · rw [h] at hr ⊢
    exact .of_raise hc hr
  · rw [h] at hr ⊢
    exact .of_raise hb hr
  · rw [h] at hr ⊢
    exact .of_raise hb hr
  · rw [h, hb] at hr
    simp at hr

/-- In a decode in execution another iteration does not overflow the 16 bits of `aux`: `ITER` is below the bound. -/
theorem Inv.iter_lt (hinv : Inv s) (hdec : s.decoding = true) :
    s.dec.iter + 1 < 2 ^ 16 := by
  obtain ⟨-, -, m', hm, -, hlt⟩ := hinv.decoding hdec
  have hm' := m'.isLt
  omega

theorem execBpDec_responseForm {m : Imm} (hinv : Inv s) (h : execBpDec m s = .next t)
    (hr : t.responses = r :: s.responses) : ResponseForm (.bpDec m) s t r := by
  obtain ⟨hdec, rfl⟩ | ⟨-, ⟨-, rfl⟩ | ⟨-, ⟨-, rfl⟩ | ⟨llr, -, -, rfl⟩⟩⟩ := execBpDec_next h
  · exact iteration_responseForm rfl (hinv.iter_lt hdec) hr
  · exact .of_raise rfl hr
  · exact .of_raise rfl hr
  · by_cases hm : m = 0
    · rw [State.startDecode, if_pos hm] at hr ⊢
      exact .of_raise rfl hr
    · rw [State.startDecode, if_neg hm] at hr ⊢
      exact iteration_responseForm rfl (by simp) hr

/-- Every response that an operation gives has one of the forms. -/
theorem exec_responseForm (hinv : Inv s) (h : exec i s = .next t)
    (hr : t.responses = r :: s.responses) : ResponseForm i s t r := by
  obtain hi | hi | hi | ⟨m, rfl⟩ := itemType_cases i
  · by_cases hn : i = .init
    · subst hn
      exact execInit_responseForm h hr
    · exact exec_read_responseForm hi hn h hr
  · exact exec_bits_responseForm hi h hr
  · exact exec_syms_responseForm hi h hr
  · exact execBpDec_responseForm hinv h hr

/-- R76: the fields of a response word. -/
theorem Response.word_fields (r : Response) :
    r.word.field 0 8 = r.status.code ∧ r.word.field 8 8 = 0 ∧ r.word.field 16 16 = r.aux :=
  Laws.commandWord_fields r.aux r.status.code

end

/-- A count of 83 or less stands in the 16 bits of `aux` as it is. -/
theorem parityCount_toNat (nm : Vector (List Nat) 83) (deg : Vector Nat 83) (w : List Bool) :
    (BitVec.ofNat 16 (parityCount nm deg w)).toNat = parityCount nm deg w :=
  BitVec.toNat_ofNat .. ▸ Nat.mod_eq_of_lt ((parityCount_le nm deg w).trans_lt (by decide))

/-- Settles O11: by the fields of the response word and the forms of the responses. -/
theorem responsesHaveTheFormOfTheInterface : Obligations.ResponsesHaveTheFormOfTheInterface := by
  unfold Obligations.ResponsesHaveTheFormOfTheInterface
  refine ⟨fun i s t r hinv _ h hr => ?_, rfl⟩
  obtain ⟨h0, h8, h16⟩ := r.word_fields
  refine ⟨h0, h8, h16, ?_⟩
  cases exec_responseForm hinv h hr with
  | fault hst => exact ⟨fun _ => ⟨rfl, rfl⟩, fun _ hok => absurd hok hst, fun _ hok => absurd hok hst, fun _ _ => rfl⟩
  | count hi hw p =>
    exact ⟨fun hn => absurd rfl hn, fun _ _ => ⟨_, hw, parityCount_toNat ..⟩, fun ⟨m, hm⟩ => by simp [hi] at hm,
      fun hn => absurd hi hn⟩
  | iterations hi hlt p =>
    exact ⟨fun hn => absurd rfl hn, fun hs => by simp [hi] at hs, fun _ _ => by simpa using hlt,
      fun _ hn => absurd hi (hn _)⟩
  | plain hs hb p =>
    exact ⟨fun hn => absurd rfl hn, fun h => absurd h hs, fun ⟨m, hm⟩ => absurd hm (hb m), fun _ _ => rfl⟩

end Sys2Proof.Machine
end

section
/-! PROOFS. The CRC (R100 to R106): the division register holds the remainder of the polynomial division over GF(2), and the
facts of R104 to R106 are facts about that remainder. -/

namespace Sys2Proof.Machine

open Polynomial

/-! ### Bits as elements of GF(2) -/

@[simp] theorem bitVal_false : bitVal false = 0 := rfl

@[simp] theorem bitVal_true : bitVal true = 1 := rfl

theorem bitVal_injective : Function.Injective bitVal := by decide

theorem bitVal_xor (a b : Bool) : bitVal (a ^^ b) = bitVal a + bitVal b := by
  revert a b; decide

theorem bitVal_not (b : Bool) : bitVal (!b) = bitVal b + 1 := by
  revert b; decide

/-! ### Numbers as polynomials (R101) -/

section

variable {n : Nat}

theorem coeff_valuePoly (r : BitVec n) (k : Nat) : (valuePoly r).coeff k = bitVal (r.getLsbD k) := by
  simp only [valuePoly, finsetSum_coeff, coeff_C_mul_X_pow, Finset.sum_ite_eq, Finset.mem_range]
  split
  · rfl
  · next h => rw [BitVec.getLsbD_of_ge r k (not_lt.mp h), bitVal_false]

theorem valuePoly_injective : Function.Injective (valuePoly (n := n)) := fun r t h =>
  BitVec.eq_of_getLsbD_eq fun k _ => bitVal_injective (by rw [← coeff_valuePoly, h, coeff_valuePoly])

theorem valuePoly_zero : valuePoly (0 : BitVec n) = 0 := by
  ext k
  simp [coeff_valuePoly]

theorem valuePoly_xor (r t : BitVec n) : valuePoly (r ^^^ t) = valuePoly r + valuePoly t := by
  ext k
  simp [coeff_valuePoly, bitVal_xor]

theorem degree_valuePoly_lt (r : BitVec n) : (valuePoly r).degree < n :=
  (degree_lt_iff_coeff_zero _ n).mpr fun k hk => by rw [coeff_valuePoly, BitVec.getLsbD_of_ge r k hk, bitVal_false]

end

/-- With the x^14 coefficient 0 the register has no bit from there on. -/
theorem getLsbD_of_top_clear {r : BitVec 15} (h : r.getLsbD 14 = false) {k : Nat} (hk : 14 ≤ k) :
    r.getLsbD k = false := by
  obtain rfl | hk := hk.eq_or_lt
  · exact h
  · exact BitVec.getLsbD_of_ge r k hk

/-- With the x^14 coefficient 0 the register holds the 14-bit number of its other bits. -/
theorem valuePoly_setWidth {r : BitVec 15} (h : r.getLsbD 14 = false) : valuePoly (r.setWidth 14) = valuePoly r := by
  ext k
  rw [coeff_valuePoly, coeff_valuePoly, BitVec.getLsbD_setWidth]
  obtain hk | hk := lt_or_ge k 14
  · simp [hk]
  · rw [getLsbD_of_top_clear h hk, Bool.and_false]

/-! ### Bit sequences as polynomials (R9) -/

/-- R9: the last bit is the coefficient of x^0. -/
theorem coeff_bitsPoly (b : List Bool) (k : Nat) : (bitsPoly b).coeff k = bitVal (b.reverse.getD k false) := by
  have hterm : ∀ j ∈ Finset.range b.length,
      (C (bitVal (b.getD (b.length - 1 - j) false)) * X ^ (b.length - 1 - (b.length - 1 - j)) : (ZMod 2)[X]).coeff k =
        if k = j then bitVal (b.reverse.getD j false) else 0 := fun j hj => by
    have hj : j < b.length := Finset.mem_range.mp hj
    rw [coeff_C_mul_X_pow, List.getD_reverse j hj, show b.length - 1 - (b.length - 1 - j) = j by omega]
  rw [bitsPoly, ← Finset.sum_range_reflect, finsetSum_coeff, Finset.sum_congr rfl hterm, Finset.sum_ite_eq]
  split
  · rfl
  · next h => rw [List.getD_eq_default _ _ (by simpa using h), bitVal_false]

theorem bitsPoly_injective {a b : List Bool} (hl : a.length = b.length) (h : bitsPoly a = bitsPoly b) : a = b := by
  refine List.reverse_inj.mp (List.ext_getElem (by simpa using hl) fun k ha hb => bitVal_injective ?_)
  rw [← List.getD_eq_getElem _ false, ← List.getD_eq_getElem _ false, ← coeff_bitsPoly, h, coeff_bitsPoly]

theorem degree_bitsPoly_lt (b : List Bool) : (bitsPoly b).degree < b.length :=
  (degree_lt_iff_coeff_zero _ b.length).mpr fun k hk => by
    rw [coeff_bitsPoly, List.getD_eq_default _ _ (by simpa using hk), bitVal_false]

theorem bitsPoly_append (a b : List Bool) : bitsPoly (a ++ b) = bitsPoly a * X ^ b.length + bitsPoly b := by
  ext k
  rw [coeff_add, coeff_mul_X_pow', coeff_bitsPoly, coeff_bitsPoly, coeff_bitsPoly, List.reverse_append]
  by_cases h : k < b.length
  · rw [List.getD_append _ _ _ _ (by simpa using h), if_neg (by omega), zero_add]
  · rw [List.getD_append_right _ _ _ _ (by simpa using h), if_pos (by omega), List.length_reverse,
      List.getD_eq_default b.reverse _ (by simpa using h), bitVal_false, add_zero]

theorem bitsPoly_nil : bitsPoly [] = 0 := rfl

theorem bitsPoly_singleton (b : Bool) : bitsPoly [b] = C (bitVal b) := by
  simp [bitsPoly]

theorem bitsPoly_cons (b : Bool) (bs : List Bool) : bitsPoly (b :: bs) = C (bitVal b) * X ^ bs.length + bitsPoly bs := by
  rw [← bitsPoly_singleton, ← bitsPoly_append, List.singleton_append]

@[simp] theorem bitsPoly_replicate_false : ∀ n, bitsPoly (List.replicate n false) = 0
  | 0 => bitsPoly_nil
  | n + 1 => by simp [List.replicate_succ, bitsPoly_cons, bitsPoly_replicate_false n]

theorem bitsPoly_append_zeros (m : List Bool) (n : Nat) : bitsPoly (m ++ List.replicate n false) = bitsPoly m * X ^ n := by
  simp [bitsPoly_append]

theorem bitsPoly_xorBits : ∀ {a b : List Bool}, a.length = b.length →
    bitsPoly (xorBits a b) = bitsPoly a + bitsPoly b
  | [], [], _ => by simp [xorBits, bitsPoly_nil]
  | a :: as, b :: bs, h => by
    have hl : as.length = bs.length := Nat.succ.inj h
    have hx : xorBits (a :: as) (b :: bs) = (a ^^ b) :: xorBits as bs := rfl
    have hn : (xorBits as bs).length = bs.length := by simp [xorBits, hl]
    rw [hx, bitsPoly_cons, bitsPoly_cons, bitsPoly_cons, bitsPoly_xorBits hl, bitVal_xor, C_add, hn, hl]
    ring

@[simp] theorem flipBit_length (b : List Bool) (i : Nat) : (flipBit b i).length = b.length := List.length_modify ..

theorem bitsPoly_flipBit : ∀ {b : List Bool} {i : Nat}, i < b.length →
    bitsPoly (flipBit b i) = bitsPoly b + X ^ (b.length - 1 - i)
  | b :: bs, 0, _ => by
    have hf : flipBit (b :: bs) 0 = (!b) :: bs := rfl
    rw [hf, bitsPoly_cons, bitsPoly_cons, bitVal_not, C_add, C_1, List.length_cons, Nat.add_sub_cancel, Nat.sub_zero]
    ring
  | b :: bs, i + 1, h => by
    have hf : flipBit (b :: bs) (i + 1) = b :: flipBit bs i := rfl
    rw [hf, bitsPoly_cons, bitsPoly_cons, bitsPoly_flipBit (Nat.lt_of_succ_lt_succ h), flipBit_length, List.length_cons,
      show bs.length + 1 - 1 - (i + 1) = bs.length - 1 - i by omega, add_assoc]

/-- R80: the bits of a CRC value have its polynomial. -/
theorem bitsPoly_crcBits (r : BitVec 14) : bitsPoly (crcBits r) = valuePoly r := by
  rw [bitsPoly, valuePoly, crcBits_length, ← Finset.sum_range_reflect]
  refine Finset.sum_congr rfl fun k hk => ?_
  have hk : k < 14 := Finset.mem_range.mp hk
  rw [List.getD_eq_getElem _ _ (by rw [crcBits_length]; omega), crcBits_getElem, show 13 - (14 - 1 - k) = k by omega]

theorem eq_crcBits_iff {b : List Bool} (hb : b.length = 14) (r : BitVec 14) :
    b = crcBits r ↔ bitsPoly b = valuePoly r := by
  rw [← bitsPoly_crcBits]
  exact ⟨congrArg bitsPoly, bitsPoly_injective (by rw [hb, crcBits_length])⟩

/-! ### P (R100) -/

theorem crcPoly_eq_valuePoly : crcPoly = valuePoly Config.poly := by
  have hp : valuePoly Config.poly = 1 + X + X ^ 2 + X ^ 4 + X ^ 6 + X ^ 8 + X ^ 9 + X ^ 10 + X ^ 13 + X ^ 14 := by
    simp [valuePoly, Finset.sum_range_succ, bitVal, Config.poly]
  rw [hp, crcPoly]
  ring

theorem degree_crcPoly : crcPoly.degree = 14 := by
  unfold crcPoly
  compute_degree!

theorem crcPoly_monic : crcPoly.Monic := by
  unfold crcPoly
  monicity!

/-- P is prime to x, its coefficient of x^0 being 1, and so divides no power of x. -/
theorem crcPoly_not_dvd_X_pow (k : Nat) : ¬ crcPoly ∣ X ^ k := by
  intro h
  have hc : IsCoprime crcPoly X :=
    ⟨1, -(X ^ 13 + X ^ 12 + X ^ 9 + X ^ 8 + X ^ 7 + X ^ 5 + X ^ 3 + X + 1), by unfold crcPoly; ring⟩
  have hu : IsUnit crcPoly := hc.pow_right.isUnit_of_dvd' dvd_rfl h
  simpa [degree_crcPoly] using degree_eq_zero_of_isUnit hu

/-- What stands below x^14 is the remainder of p exactly when P divides the sum of the two. -/
theorem eq_modByMonic_crcPoly_iff {p r : (ZMod 2)[X]} (hr : r.degree < 14) :
    r = p %ₘ crcPoly ↔ crcPoly ∣ p + r := by
  have hr : r %ₘ crcPoly = r := (modByMonic_eq_self_iff crcPoly_monic).mpr (hr.trans_eq degree_crcPoly.symm)
  rw [← modByMonic_eq_zero_iff_dvd crcPoly_monic, add_modByMonic, hr, CharTwo.add_eq_zero]
  exact eq_comm

/-! ### The division register (R101) -/

/-- The x^14 coefficient of a remainder is 0. -/
theorem getLsbD_of_valuePoly_eq_modByMonic {r : BitVec 15} {p : (ZMod 2)[X]} (h : valuePoly r = p %ₘ crcPoly) :
    r.getLsbD 14 = false := by
  refine bitVal_injective ?_
  rw [← coeff_valuePoly, h, bitVal_false]
  exact coeff_eq_zero_of_degree_lt ((degree_modByMonic_lt p crcPoly_monic).trans_eq degree_crcPoly)

/-- A register whose x^14 coefficient is 0 holds the remainder of every polynomial that differs from its own by a multiple
of P. -/
theorem valuePoly_eq_modByMonic {r : BitVec 15} (h : r.getLsbD 14 = false) {p : (ZMod 2)[X]}
    (hd : crcPoly ∣ p + valuePoly r) : valuePoly r = p %ₘ crcPoly :=
  (eq_modByMonic_crcPoly_iff (valuePoly_setWidth h ▸ degree_valuePoly_lt (r.setWidth 14))).mpr hd

/-- To shift a bit in is to multiply by x and to add the bit. -/
theorem valuePoly_shiftIn {r : BitVec 15} (h : r.getLsbD 14 = false) (b : Bool) :
    valuePoly ((r <<< 1) ||| (BitVec.ofBool b).setWidth 15) = valuePoly r * X + C (bitVal b) := by
  ext k
  rw [coeff_valuePoly, coeff_add]
  cases k with
  | zero => simp
  | succ k =>
    rw [coeff_mul_X, coeff_valuePoly, coeff_C_succ, add_zero]
    obtain hk | hk := lt_or_ge k 14
    · simp [show k + 1 < 15 by omega, BitVec.getLsbD_eq_getElem (show k < 15 by omega)]
    · rw [getLsbD_of_top_clear h hk, BitVec.getLsbD_of_ge _ _ (by omega)]

/-- One step of the division: the subtraction of P leaves a remainder, and so does an x^14 coefficient of 0. -/
theorem valuePoly_crcStep {r : BitVec 15} (h : r.getLsbD 14 = false) (b : Bool) :
    valuePoly (crcStep r b) = (valuePoly r * X + C (bitVal b)) %ₘ crcPoly := by
  rw [← valuePoly_shiftIn h, crcStep]
  generalize (r <<< 1) ||| (BitVec.ofBool b).setWidth 15 = t
  split
  next ht =>
    have hx : (t ^^^ Config.poly).getLsbD 14 = false := by rw [BitVec.getLsbD_xor, ht]; rfl
    refine valuePoly_eq_modByMonic hx ?_
    rw [valuePoly_xor, ← crcPoly_eq_valuePoly, CharTwo.add_cancel_left]
  next ht =>
    refine valuePoly_eq_modByMonic (Bool.eq_false_iff.mpr ht) ?_
    rw [CharTwo.add_self_eq_zero]
    exact dvd_zero _

/-- The division may take a remainder for the polynomial divided so far. -/
theorem mul_X_add_modByMonic (p c : (ZMod 2)[X]) :
    (p %ₘ crcPoly * X + c) %ₘ crcPoly = (p * X + c) %ₘ crcPoly := by
  refine modByMonic_eq_of_dvd_sub crcPoly_monic ⟨-(p /ₘ crcPoly) * X, ?_⟩
  rw [modByMonic_eq_sub_mul_div]
  ring

/-- R101: after some bits the register holds their remainder. -/
theorem valuePoly_foldl_crcStep (bits : List Bool) : valuePoly (bits.foldl crcStep 0) = bitsPoly bits %ₘ crcPoly := by
  induction bits using List.reverseRecOn with
  | nil => exact valuePoly_zero.trans (zero_modByMonic _).symm
  | append_singleton bits b ih =>
    have hb : bitsPoly (bits ++ [b]) = bitsPoly bits * X + C (bitVal b) := by
      rw [bitsPoly_append, bitsPoly_singleton, List.length_singleton, pow_one]
    rw [List.foldl_append, List.foldl_cons, List.foldl_nil, valuePoly_crcStep (getLsbD_of_valuePoly_eq_modByMonic ih), ih,
      mul_X_add_modByMonic, hb]

/-- R101: `crc14` is the remainder of the message with 19 zeros appended. -/
theorem valuePoly_crc14 (m : List Bool) : valuePoly (crc14 m) = bitsPoly (m ++ List.replicate 19 false) %ₘ crcPoly := by
  have h := valuePoly_foldl_crcStep (m ++ List.replicate 19 false)
  exact (valuePoly_setWidth (getLsbD_of_valuePoly_eq_modByMonic h)).trans h

/-! ### The operations (R102, R103) -/

theorem exec_crc14Enc {s : State} {m : List Bool} (hi : s.initDone = true) (ho : s.operand = bitItems m)
    (hm : m.length = 77) : exec .crc14Enc s = .next (s.respond .ok 0 (bitItems (crcBits (crc14 m)))) :=
  (State.checked_of (i := .crc14Enc) hi (by simp [Instr.lengthOk, ho, hm]) _).trans (State.withBits_of ho _)

theorem exec_crc14Vfy {s : State} {blk : List Bool} (hi : s.initDone = true) (ho : s.operand = bitItems blk)
    (hb : blk.length = 91) : exec .crc14Vfy s = .next (s.respond .ok 0 [.bit (crcVerify blk)]) :=
  (State.checked_of (i := .crc14Vfy) hi (by simp [Instr.lengthOk, ho, hb]) _).trans (State.withBits_of ho _)

theorem answers_crc14Vfy {s : State} {blk : List Bool} (hi : s.initDone = true) (hb : blk.length = 91) :
    Answers .crc14Vfy s (bitItems blk) 0 [.bit (crcVerify blk)] :=
  exec_crc14Vfy (s := { s with operand := bitItems blk }) hi rfl hb

theorem bitItems_crcBits (r : BitVec 14) :
    bitItems (crcBits r) = List.ofFn fun i : Fin 14 => Item.bit (r.getLsbD (13 - i.val)) := rfl

/-- Settles O28: the answer is `crc14` of the message, the remainder that the division register leaves. -/
theorem crcEncodeIsTheRemainder : Obligations.CrcEncodeIsTheRemainder := by
  unfold Obligations.CrcEncodeIsTheRemainder
  intro s m hi ho hm
  exact ⟨crc14 m, bitItems_crcBits _ ▸ exec_crc14Enc hi ho hm, valuePoly_crc14 m⟩

/-- R103: the comparison of bits is a comparison of polynomials. -/
theorem crcVerify_iff {blk : List Bool} (hb : blk.length = 91) : crcVerify blk = true ↔
    bitsPoly (blk.drop 77) = bitsPoly (blk.take 77 ++ List.replicate 19 false) %ₘ crcPoly := by
  have hlast : slice 77 91 blk = blk.drop 77 := List.take_of_length_le (by simp [hb])
  have hfirst : slice 0 77 blk = blk.take 77 := rfl
  rw [crcVerify, beq_iff_eq, hlast, hfirst, eq_crcBits_iff (by simp [hb]), valuePoly_crc14]

/-- Settles O29: the answer is `crcVerify` of the block. -/
theorem crcVerifyComparesTheRemainder : Obligations.CrcVerifyComparesTheRemainder := by
  unfold Obligations.CrcVerifyComparesTheRemainder
  intro s blk hi ho hb
  exact ⟨crcVerify blk, exec_crc14Vfy hi ho hb, crcVerify_iff hb⟩

/-! ### Blocks (R104, R106) -/

/-- R106: a block of 91 bits with five zeros before its last 14. -/
def paddedBlock (blk : List Bool) : List Bool := blk.take 77 ++ List.replicate 5 false ++ blk.drop 77

theorem bitsPoly_paddedBlock {blk : List Bool} (hb : blk.length = 91) :
    bitsPoly (paddedBlock blk) = bitsPoly (blk.take 77) * X ^ 19 + bitsPoly (blk.drop 77) := by
  rw [paddedBlock, bitsPoly_append, bitsPoly_append_zeros, List.length_drop, hb, mul_assoc, ← pow_add]

/-- A block verifies exactly when P divides it with the five zeros in it. -/
theorem crcVerify_iff_dvd {blk : List Bool} (hb : blk.length = 91) :
    crcVerify blk = true ↔ crcPoly ∣ bitsPoly (paddedBlock blk) := by
  have hd : (bitsPoly (blk.drop 77)).degree < 14 := by simpa [hb] using degree_bitsPoly_lt (blk.drop 77)
  rw [crcVerify_iff hb, eq_modByMonic_crcPoly_iff hd, bitsPoly_append_zeros, bitsPoly_paddedBlock hb]

/-- An inverted bit adds a power of x. -/
theorem bitsPoly_paddedBlock_flipBit {blk : List Bool} (hb : blk.length = 91) {i : Nat} (hi : i < 91) :
    ∃ k, bitsPoly (paddedBlock (flipBit blk i)) = bitsPoly (paddedBlock blk) + X ^ k := by
  rw [bitsPoly_paddedBlock hb, bitsPoly_paddedBlock (by rw [flipBit_length, hb])]
  obtain h | h := lt_or_ge i 77
  · have ht : (flipBit blk i).take 77 = flipBit (blk.take 77) i := List.take_modify ..
    have hd : (flipBit blk i).drop 77 = blk.drop 77 := List.drop_modify_of_lt _ _ _ _ h
    rw [ht, hd, bitsPoly_flipBit (by simp; omega), add_mul, add_right_comm, ← pow_add]
    exact ⟨_, rfl⟩
  · have ht : (flipBit blk i).take 77 = blk.take 77 := (List.take_modify ..).trans (List.modify_eq_self (by simp; omega))
    have hd : (flipBit blk i).drop 77 = flipBit (blk.drop 77) (i - 77) := List.drop_modify_of_ge _ _ _ _ h
    rw [ht, hd, bitsPoly_flipBit (by simp; omega), ← add_assoc]
    exact ⟨_, rfl⟩

/-- R104 (b): of a block that verifies, every single inverted bit is detected, as P divides no power of x. -/
theorem crcVerify_flipBit {blk : List Bool} (hb : blk.length = 91) (hv : crcVerify blk = true) {i : Nat} (hi : i < 91) :
    crcVerify (flipBit blk i) = false := by
  obtain ⟨k, hk⟩ := bitsPoly_paddedBlock_flipBit hb hi
  refine Bool.eq_false_iff.mpr fun hf => crcPoly_not_dvd_X_pow k ?_
  rw [crcVerify_iff_dvd (by rw [flipBit_length, hb]), hk] at hf
  exact (dvd_add_right ((crcVerify_iff_dvd hb).mp hv)).mp hf

theorem crcAppend_length {m : List Bool} (hm : m.length = 77) : (crcAppend m).length = 91 := by simp [crcAppend, hm]

theorem crcAppend_take {m : List Bool} (hm : m.length = 77) : (crcAppend m).take 77 = m := List.take_left' hm

theorem crcAppend_drop {m : List Bool} (hm : m.length = 77) : (crcAppend m).drop 77 = crcBits (crc14 m) :=
  List.drop_left' hm

/-- R104 (a): the block of a message verifies. -/
theorem crcVerify_crcAppend {m : List Bool} (hm : m.length = 77) : crcVerify (crcAppend m) = true := by
  rw [crcVerify_iff (crcAppend_length hm), crcAppend_drop hm, crcAppend_take hm, bitsPoly_crcBits, valuePoly_crc14]

/-- Settles O30: the block of a message verifies, and one inverted bit is detected in every block that does. -/
theorem crcDetectsSingleBitErrors : Obligations.CrcDetectsSingleBitErrors := by
  unfold Obligations.CrcDetectsSingleBitErrors
  intro s m hi hm
  have hl := crcAppend_length hm
  have hv := crcVerify_crcAppend hm
  exact ⟨hv ▸ answers_crc14Vfy hi hl,
    fun i h => crcVerify_flipBit hl hv h ▸ answers_crc14Vfy hi (by rw [flipBit_length, hl])⟩

/-! ### Linearity (R105) -/

theorem crc14_xorBits {a b : List Bool} (h : a.length = b.length) : crc14 (xorBits a b) = crc14 a ^^^ crc14 b := by
  apply valuePoly_injective
  simp only [valuePoly_xor, valuePoly_crc14, bitsPoly_append_zeros, bitsPoly_xorBits h, add_mul, add_modByMonic]

theorem crc14_zeros (n : Nat) : crc14 (List.replicate n false) = 0 := by
  apply valuePoly_injective
  rw [valuePoly_crc14, bitsPoly_append_zeros, bitsPoly_replicate_false, zero_mul, zero_modByMonic, valuePoly_zero]

/-- R105: the message of 77 bits whose only 1 is bit i. -/
def unitMessage (i : Nat) : List Bool := List.replicate i false ++ true :: List.replicate (76 - i) false

theorem bitsPoly_unitMessage (i : Nat) : bitsPoly (unitMessage i) = X ^ (76 - i) := by
  simp [unitMessage, bitsPoly_append, bitsPoly_cons]

theorem valuePoly_crc14_unitMessage {i : Nat} (hi : i < 77) :
    valuePoly (crc14 (unitMessage i)) = X ^ (95 - i) %ₘ crcPoly := by
  rw [valuePoly_crc14, bitsPoly_append_zeros, bitsPoly_unitMessage, ← pow_add, show 76 - i + 19 = 95 - i by omega]

/-- R105: the remainder of x^14 is P without its leading term. -/
theorem X_pow_14_modByMonic : X ^ 14 %ₘ crcPoly = valuePoly 0x2757#14 := by
  refine ((eq_modByMonic_crcPoly_iff (degree_valuePoly_lt _)).mpr (dvd_of_eq ?_)).symm
  have hv : valuePoly 0x2757#14 = 1 + X + X ^ 2 + X ^ 4 + X ^ 6 + X ^ 8 + X ^ 9 + X ^ 10 + X ^ 13 := by
    simp [valuePoly, Finset.sum_range_succ, bitVal]
  rw [hv, crcPoly]
  ring

/-- R105: the remainder of each power is one step of the division on from that of the power before it. -/
theorem X_pow_succ_modByMonic {k : Nat} {r t : BitVec 14} (h : X ^ k %ₘ crcPoly = valuePoly r)
    (ht : crcStep (r.setWidth 15) false = t.setWidth 15) : X ^ (k + 1) %ₘ crcPoly = valuePoly t := by
  have hw (v : BitVec 14) : valuePoly (v.setWidth 15) = valuePoly v := by
    rw [← valuePoly_setWidth (by simp), BitVec.setWidth_setWidth_of_le _ (by decide), BitVec.setWidth_eq]
  have hs := mul_X_add_modByMonic (X ^ k) 0
  rw [add_zero, add_zero, ← pow_succ, h] at hs
  rw [← hs, ← hw t, ← ht, valuePoly_crcStep (by simp), hw, bitVal_false, C_0, add_zero]

/-- R105: the remainders of the powers from x^14 to x^19. -/
theorem X_pow_modByMonic_chain :
    [(14, 0x2757#14), (15, 0x29F9#14), (16, 0x34A5#14), (17, 0x0E1D#14), (18, 0x1C3A#14), (19, 0x3874#14)].Forall
      fun kv => X ^ kv.1 %ₘ crcPoly = valuePoly kv.2 := by
  have h15 := X_pow_succ_modByMonic (t := 0x29F9#14) X_pow_14_modByMonic rfl
  have h16 := X_pow_succ_modByMonic (t := 0x34A5#14) h15 rfl
  have h17 := X_pow_succ_modByMonic (t := 0x0E1D#14) h16 rfl
  have h18 := X_pow_succ_modByMonic (t := 0x1C3A#14) h17 rfl
  have h19 := X_pow_succ_modByMonic (t := 0x3874#14) h18 rfl
  exact ⟨X_pow_14_modByMonic, h15, h16, h17, h18, h19⟩

/-- R105: the CRC of the last bit alone is the end of the chain. -/
theorem crc14_unitMessage_last : crc14 (unitMessage 76) = 0x3874 := by
  obtain ⟨-, -, -, -, -, h19⟩ := X_pow_modByMonic_chain
  exact valuePoly_injective ((valuePoly_crc14_unitMessage (by decide)).trans h19)

/-- The exclusive or of the CRCs of the first n bits that are 1 is the remainder of these bits' polynomial. -/
theorem valuePoly_foldl_unitMessage (m : List Bool) {n : Nat} (hn : n ≤ 77) :
    valuePoly ((List.range n).foldl (fun r i => if m.getD i false = true then r ^^^ crc14 (unitMessage i) else r) 0) =
      (∑ i ∈ Finset.range n, C (bitVal (m.getD i false)) * X ^ (95 - i)) %ₘ crcPoly := by
  induction n with
  | zero => exact valuePoly_zero.trans (zero_modByMonic _).symm
  | succ n ih =>
    rw [List.range_succ, List.foldl_append, List.foldl_cons, List.foldl_nil, Finset.sum_range_succ, add_modByMonic,
      ← ih (by omega)]
    cases m.getD n false
    · simp
    · simp [valuePoly_xor, valuePoly_crc14_unitMessage hn]

/-- R105: the CRC of a message is the exclusive or of the CRCs of its 1 bits. -/
theorem crc14_eq_foldl {m : List Bool} (hm : m.length = 77) : crc14 m =
    (List.range 77).foldl (fun r i => if m.getD i false = true then r ^^^ crc14 (unitMessage i) else r) 0 := by
  have hp : bitsPoly m * X ^ 19 = ∑ i ∈ Finset.range 77, C (bitVal (m.getD i false)) * X ^ (95 - i) := by
    rw [bitsPoly, hm, Finset.sum_mul]
    refine Finset.sum_congr rfl fun i hi => ?_
    have hi : i < 77 := Finset.mem_range.mp hi
    rw [mul_assoc, ← pow_add, show 77 - 1 - i + 19 = 95 - i by omega]
  apply valuePoly_injective
  rw [valuePoly_foldl_unitMessage m le_rfl, valuePoly_crc14, bitsPoly_append_zeros, hp]

/-- Settles O31: each clause is a fact about remainders, and a number is given by its polynomial. -/
theorem crcIsLinear : Obligations.CrcIsLinear := by
  unfold Obligations.CrcIsLinear
  exact ⟨fun a b ha hb => crc14_xorBits (ha.trans hb.symm), crc14_zeros 77, fun i => valuePoly_crc14_unitMessage,
    crc14_unitMessage_last, X_pow_modByMonic_chain, fun m => crc14_eq_foldl⟩

/-- R106: without the five zeros the message's last bit stands for x^14, whose remainder is not the CRC, that of x^19. -/
theorem crcAppend_unitMessage_last_not_divisible : ¬ crcPoly ∣ bitsPoly (crcAppend (unitMessage 76)) := by
  rw [crcAppend, bitsPoly_append, bitsPoly_unitMessage, Nat.sub_self, pow_zero, one_mul, crcBits_length, bitsPoly_crcBits,
    crc14_unitMessage_last, ← eq_modByMonic_crcPoly_iff (degree_valuePoly_lt _), X_pow_14_modByMonic]
  exact valuePoly_injective.ne (by decide)

/-- Settles O32: a block that verifies is divisible with the five zeros; without them, the block of the message whose only 1
is its last bit is not. -/
theorem crcBlockIsNotTheDivisibleOne : Obligations.CrcBlockIsNotTheDivisibleOne := by
  unfold Obligations.CrcBlockIsNotTheDivisibleOne
  refine ⟨fun m hm => ?_, unitMessage 76, rfl, ?_⟩
  · have h := (crcVerify_iff_dvd (crcAppend_length hm)).mp (crcVerify_crcAppend hm)
    rwa [paddedBlock, crcAppend_take hm, crcAppend_drop hm, ← modByMonic_eq_zero_iff_dvd crcPoly_monic] at h
  · rw [Ne, modByMonic_eq_zero_iff_dvd crcPoly_monic]
    exact crcAppend_unitMessage_last_not_divisible

end Sys2Proof.Machine
end

section
/-! PROOFS. Initialisation (R155, R220): what the build check says of `NM`, and that the tables `INIT` writes are those of
R121 and R151 to R153. -/

namespace Sys2Proof.Machine

/-! ### The build check (R155) -/

section
variable {nm : Vector (List Nat) 83}

theorem checkListOk_iff (l : List Nat) :
    checkListOk l = true ↔ (l.length = 6 ∨ l.length = 7) ∧ (∀ n ∈ l, n ≤ 173) ∧ l.Nodup := by
  simp [checkListOk, and_assoc]

theorem all_toList_iff (ok : List Nat → Bool) : nm.toList.all ok = true ↔ ∀ c : Fin 83, ok nm[c] = true := by
  simp [Fin.forall_iff]

/-- The executable check is the conjunction of the clauses (a) to (e) of R158. -/
theorem graphOk_iff : graphOk nm = true ↔ GraphWF nm := by
  have hlists := all_toList_iff (nm := nm) checkListOk
  have hthree : ((List.finRange 174).all fun n => (checksOf nm n).length == 3) = true ↔
      ∀ n : Fin 174, (checksOf nm n).length = 3 := by simp
  simp only [checkListOk_iff] at hlists
  rw [graphOk, Bool.and_eq_true, Bool.and_eq_true, hlists, hthree, beq_iff_eq]
  constructor
  · rintro ⟨⟨hl, h3⟩, he⟩
    exact ⟨fun c => (hl c).1, fun c => (hl c).2.1, fun c => (hl c).2.2, h3, he⟩
  · rintro ⟨hdeg, hrange, hdist, h3, he⟩
    exact ⟨⟨fun c => ⟨hdeg c, hrange c, hdist c⟩, h3⟩, he⟩

/-! ### The lists of check nodes (R152) -/

theorem mem_checksOf {n : Fin 174} {c : Fin 83} : c ∈ checksOf nm n ↔ n.val ∈ nm[c] := by
  simp [checksOf]

/-- R152: the scan meets the check nodes in ascending order. -/
theorem checksOf_pairwise_lt (n : Fin 174) : (checksOf nm n).Pairwise (· < ·) :=
  (List.pairwise_lt_finRange 83).filter _

theorem buildDerived_mn (n : Fin 174) (s : Fin 3) : (buildDerived nm).mn[n][s] = (checksOf nm n).getD s 0 := by
  simp [buildDerived, buildMn]

theorem buildDerived_slotB (n : Fin 174) (s : Fin 3) :
    (buildDerived nm).slotB[n][s] = nm[(buildDerived nm).mn[n][s]].idxOf n.val := by
  simp [buildDerived, buildMn, buildSlotB]

theorem buildDerived_slotC (c : Fin 83) :
    (buildDerived nm).slotC[c] = nm[c].map fun n => Fin.ofNat 3 ((checksOf nm (bitNode n)).idxOf c) := by
  simp [buildDerived, buildSlotC]

/-- The three slots of `MN[n]` hold the whole list: no check node is cut off and no slot is left at its default. -/
theorem GraphWF.checksOf_eq_ofFn (h : GraphWF nm) (n : Fin 174) :
    checksOf nm n = List.ofFn fun s : Fin 3 => (buildDerived nm).mn[n][s] := by
  have h3 : (checksOf nm n).length = 3 := h.threeChecks n
  refine List.ext_getElem (by simp [h3]) fun i hi _ => ?_
  rw [List.getElem_ofFn, buildDerived_mn, List.getD_eq_getElem _ _ hi]

/-- The slot of a check node of bit node n, where `SLOT_C` looks for it. -/
theorem GraphWF.mn_idxOf (h : GraphWF nm) {n : Fin 174} {c : Fin 83} (hc : n.val ∈ nm[c]) :
    (buildDerived nm).mn[n][Fin.ofNat 3 ((checksOf nm n).idxOf c)] = c := by
  have hlt : (checksOf nm n).idxOf c < (checksOf nm n).length := List.idxOf_lt_length_of_mem (mem_checksOf.mpr hc)
  have h3 : (checksOf nm n).length = 3 := h.threeChecks n
  have hslot : (Fin.ofNat 3 ((checksOf nm n).idxOf c)).val = (checksOf nm n).idxOf c := Nat.mod_eq_of_lt (h3 ▸ hlt)
  rw [buildDerived_mn, hslot, List.getD_eq_getElem _ _ hlt, List.getElem_idxOf]

theorem bitNode_val (n : Fin 174) : bitNode n.val = n := Fin.ofNat_val_eq_self n

theorem buildGrayInv_grayT : ∀ v : Sym, buildGrayInv[(Config.grayT[v.toFin]).toFin] = v := by decide

/-- R121, R151 to R153: the build gives the derived tables of a well-formed graph. -/
theorem GraphWF.tablesBuilt (h : GraphWF nm) : TablesBuilt nm (buildDerived nm) where
  grayInverse := buildGrayInv_grayT
  degree c := by simp [buildDerived, buildDeg]
  inverse n c := by rw [← mem_checksOf, h.checksOf_eq_ofFn n, List.mem_ofFn]
  ascending n := by
    have hlt := List.pairwise_ofFn.mp (h.checksOf_eq_ofFn n ▸ checksOf_pairwise_lt n)
    exact ⟨hlt (by decide), hlt (by decide)⟩
  slotB n s := by
    have hmem : n.val ∈ nm[(buildDerived nm).mn[n][s]] :=
      mem_checksOf.mp (h.checksOf_eq_ofFn n ▸ List.mem_ofFn.mpr ⟨s, rfl⟩)
    rw [buildDerived_slotB]
    exact List.getElem?_idxOf hmem
  slotC c t n ht := by
    refine ⟨Fin.ofNat 3 ((checksOf nm n).idxOf c), ?_, h.mn_idxOf (List.mem_of_getElem? ht)⟩
    rw [buildDerived_slotC, List.getElem?_map, ht, Option.map_some, bitNode_val]

end

/-- R21, R23: from a built state the derived tables are those of `NM`. -/
theorem Inv.tablesBuilt {s : State} (h : Inv s) (hi : s.initDone = true) : TablesBuilt s.params.nm s.derived := by
  obtain ⟨hg, hd⟩ := h.tables hi
  exact hd ▸ (graphOk_iff.mp hg).tablesBuilt

theorem exec_init {s : State} (ho : s.operand = []) (hg : graphOk s.params.nm = true) : exec .init s =
    .next ({ s with derived := buildDerived s.params.nm, initDone := true }.respond .ok 0 []) := by
  change execInit s = _
  simp [execInit, ho, hg]

/-- Settles O21: a well-formed graph passes the build check, and then the tables built are those of the rules. -/
theorem initBuildsTheTables : Obligations.InitBuildsTheTables := by
  unfold Obligations.InitBuildsTheTables
  intro s ho hg
  exact ⟨_, exec_init ho (graphOk_iff.mpr hg), rfl, hg.tablesBuilt, ⟨rfl, rfl, rfl, rfl⟩, rfl, rfl, rfl, rfl, rfl⟩

end Sys2Proof.Machine
end

section
/-! PROOFS. The Gray mapper (R120 to R127): what its operations answer, and the facts of R126 and R127 about the answers from
a built state. -/

namespace Sys2Proof.Machine

/-! ### The Gray operations on a payload of their type (R122 to R125) -/

section
variable {s : State} (hi : s.initDone = true)
include hi

theorem exec_grayEnc {v : Sym} (ho : s.operand = [.sym v]) :
    exec .grayEnc s = .next (s.respond .ok 0 [.sym (grayAt v)]) :=
  (State.checked_of (i := .grayEnc) hi (by simp [Instr.lengthOk, ho]) _).trans (State.withSyms_of (vs := [v]) ho _)

theorem exec_grayDec {t : Sym} (ho : s.operand = [.sym t]) :
    exec .grayDec s = .next (s.respond .ok 0 [.sym (grayInvAt s.derived t)]) :=
  (State.checked_of (i := .grayDec) hi (by simp [Instr.lengthOk, ho]) _).trans (State.withSyms_of (vs := [t]) ho _)

theorem answers_grayEnc (v : Sym) : Answers .grayEnc s [.sym v] 0 [.sym (grayAt v)] :=
  exec_grayEnc (s := { s with operand := [.sym v] }) hi rfl

theorem answers_grayDec (t : Sym) : Answers .grayDec s [.sym t] 0 [.sym (grayInvAt s.derived t)] :=
  exec_grayDec (s := { s with operand := [.sym t] }) hi rfl

theorem answers_grayMap {p : List Bool} (hp : p.length % 3 = 0) :
    Answers .grayMap s (bitItems p) 0 (symItems ((symsOfBits p).map grayAt)) :=
  (State.checked_of (s := { s with operand := bitItems p }) (i := .grayMap) hi (by simp [Instr.lengthOk, hp]) _).trans
    (State.withBits_of rfl _)

theorem answers_grayUnmap (q : List Sym) :
    Answers .grayUnmap s (symItems q) 0 (bitItems ((q.map (grayInvAt s.derived)).flatMap bitsOfSym)) :=
  (State.checked_of (s := { s with operand := symItems q }) (i := .grayUnmap) hi rfl _).trans (State.withSyms_of rfl _)

end

/-- Settles O33: each operation reads its table at the symbol, the inverse one as `INIT` built it. -/
theorem grayOperationsReadTheTables : Obligations.GrayOperationsReadTheTables := by
  unfold Obligations.GrayOperationsReadTheTables
  intro s v hi ho
  refine ⟨⟨grayAt v, exec_grayEnc hi ho, grayAt_table v⟩, fun hinv => ⟨grayInvAt s.derived v, exec_grayDec hi ho, ?_⟩⟩
  rw [(hinv.tables hi).2, grayInvAt_table]

/-! ### Adjacent tones (R126) -/

/-- The number of bits in which two symbols differ. -/
def bitDistance (a b : Sym) : Nat := (List.range 3).countP fun k => a.getLsbD k != b.getLsbD k

theorem bitDistance_adjacent : ∀ t < 7,
    bitDistance buildGrayInv[(BitVec.ofNat 3 t).toFin] buildGrayInv[(BitVec.ofNat 3 (t + 1)).toFin] = 1 := by
  decide

theorem bitDistance_seven_zero :
    bitDistance buildGrayInv[(7 : Sym).toFin] buildGrayInv[(0 : Sym).toFin] = 3 := by
  decide

/-- Settles O36: `GRAY.DEC` reads the table that `INIT` built, in which neighbours differ in one bit. -/
theorem adjacentTonesDifferInOneBit : Obligations.AdjacentTonesDifferInOneBit := by
  unfold Obligations.AdjacentTonesDifferInOneBit
  intro s hinv hi
  have hread (t : Sym) : Answers .grayDec s [.sym t] 0 [.sym buildGrayInv[t.toFin]] := by
    have h := answers_grayDec hi t
    rwa [(hinv.tables hi).2] at h
  exact ⟨fun t ht => ⟨_, _, hread _, hread _, bitDistance_adjacent t ht⟩,
    _, _, hread 7, hread 0, bitDistance_seven_zero⟩

/-! ### Round trips (R127) -/

theorem grayAt_surjective : Function.Surjective grayAt := by
  unfold Function.Surjective
  decide

theorem TablesBuilt.grayInvAt_grayAt {nm : Vector (List Nat) 83} {d : Derived} (h : TablesBuilt nm d) (v : Sym) :
    grayInvAt d (grayAt v) = v := h.grayInverse v

theorem TablesBuilt.grayAt_grayInvAt {nm : Vector (List Nat) 83} {d : Derived} (h : TablesBuilt nm d) (t : Sym) :
    grayAt (grayInvAt d t) = t := by
  obtain ⟨v, rfl⟩ := grayAt_surjective t
  rw [h.grayInvAt_grayAt]

/-- R79: the triples of bits, taken apart again. -/
theorem flatMap_bitsOfSym_symsOfBits : ∀ p : List Bool, p.length % 3 = 0 → (symsOfBits p).flatMap bitsOfSym = p
  | [], _ => rfl
  | a :: b :: c :: p, h => by
    have ih := flatMap_bitsOfSym_symsOfBits p (by simp at h; omega)
    rw [symsOfBits, List.flatMap_cons, ih, bitsOfSym_symOfBits]
    rfl
  | [_], h | [_, _], h => by simp at h

/-- R79: the bits of the symbols, put together again. -/
theorem symsOfBits_flatMap_bitsOfSym : ∀ vs : List Sym, symsOfBits (vs.flatMap bitsOfSym) = vs
  | [] => rfl
  | v :: vs => congrArg₂ List.cons (List.singleton_inj.mp (symsOfBits_bitsOfSym v)) (symsOfBits_flatMap_bitsOfSym vs)

/-- Settles O37: the tables are inverse to each other, and so are the ways between bits and symbols. -/
theorem grayRoundTrips : Obligations.GrayRoundTrips := by
  unfold Obligations.GrayRoundTrips
  intro s hinv hi
  have htab := hinv.tablesBuilt hi
  refine ⟨fun v => ⟨grayAt v, answers_grayEnc hi v, ?_⟩, fun p hp => ⟨_, answers_grayMap hi hp, ?_⟩,
    fun q => ⟨_, answers_grayUnmap hi q, ?_⟩⟩
  · have h := answers_grayDec hi (grayAt v)
    rwa [htab.grayInvAt_grayAt] at h
  · have h := answers_grayUnmap hi ((symsOfBits p).map grayAt)
    have hinverse : grayInvAt s.derived ∘ grayAt = id := funext htab.grayInvAt_grayAt
    rwa [List.map_map, hinverse, List.map_id, flatMap_bitsOfSym_symsOfBits p hp] at h
  · have hlen : ((q.map (grayInvAt s.derived)).flatMap bitsOfSym).length % 3 = 0 := by
      rw [flatMap_bitsOfSym_length, Nat.mul_mod_right]
    have h := answers_grayMap hi hlen
    have hinverse : grayAt ∘ grayInvAt s.derived = id := funext htab.grayAt_grayInvAt
    rwa [symsOfBits_flatMap_bitsOfSym, List.map_map, hinverse, List.map_id] at h

end Sys2Proof.Machine
end

section
/-! PROOFS. The encoder and the parity equations (R141 to R145, R158): exclusive or is addition in GF(2), so the parity bits are
the product of `GEN` and the block, and a check node's equation is linear in the word. -/

namespace Sys2Proof.Machine

/-! ### Exclusive or over a list (R10) -/

theorem bitVal_and (a b : Bool) : bitVal (a && b) = bitVal a * bitVal b := by
  cases a <;> simp

theorem bitVal_eq_zero_iff {b : Bool} : bitVal b = 0 ↔ b = false := bitVal_injective.eq_iff (b := false)

theorem bitVal_eq_one_iff {b : Bool} : bitVal b = 1 ↔ b = true := bitVal_injective.eq_iff (b := true)

theorem bitVal_foldl_xor : ∀ (bs : List Bool) (a : Bool), bitVal (bs.foldl Bool.xor a) = bitVal a + (bs.map bitVal).sum
  | [], a => by simp
  | b :: bs, a => by rw [List.foldl_cons, bitVal_foldl_xor bs, bitVal_xor, List.map_cons, List.sum_cons, add_assoc]

/-- The exclusive or of bits is their sum in GF(2). -/
theorem bitVal_xorAll (bs : List Bool) : bitVal (xorAll bs) = (bs.map bitVal).sum :=
  (bitVal_foldl_xor bs false).trans (zero_add _)

section
variable {α : Type} (l : List α)

theorem bitVal_xorAll_map (p : α → Bool) : bitVal (xorAll (l.map p)) = (l.map fun a => bitVal (p a)).sum := by
  rw [bitVal_xorAll, List.map_map]
  rfl

theorem sum_map_bitVal (p : α → Bool) : (l.map fun a => bitVal (p a)).sum = (l.countP p : ZMod 2) := by
  induction l with
  | nil => simp
  | cons a l ih => cases h : p a <;> simp [h, ih, add_comm]

/-- The exclusive or is 1 where the number of ones is odd. -/
theorem xorAll_map_iff_odd (p : α → Bool) : xorAll (l.map p) = true ↔ Odd (l.countP p) := by
  rw [← bitVal_eq_one_iff, bitVal_xorAll_map, sum_map_bitVal, ZMod.natCast_eq_one_iff_odd]

theorem xorAll_map_xor (p q : α → Bool) :
    xorAll (l.map fun a => p a ^^ q a) = (xorAll (l.map p) ^^ xorAll (l.map q)) := by
  refine bitVal_injective ?_
  simp only [bitVal_xor, bitVal_xorAll_map, List.sum_map_add]

end

theorem card_filter_univ_eq_countP {n : Nat} (p : Fin n → Prop) [DecidablePred p] :
    (Finset.univ.filter p).card = (List.finRange n).countP p := List.countP_eq_length_filter.symm

/-! ### Words -/

theorem xorBits_getD {a b : List Bool} (h : a.length = b.length) (n : Nat) :
    (xorBits a b).getD n false = (a.getD n false ^^ b.getD n false) := by
  by_cases hn : n < a.length
  · have hb : n < b.length := h ▸ hn
    simp [xorBits, hn, hb]
  · have hb : ¬ n < b.length := h ▸ hn
    simp [xorBits, hn, hb]

theorem zeros_getD (k n : Nat) : (List.replicate k false).getD n false = false :=
  List.getElem?_getD_replicate_default_eq _ k n

/-! ### The parity equations (R143) -/

section
variable {nm : Vector (List Nat) 83} {deg : Vector Nat 83}

theorem unsatisfied_eq_xorAll {c : Fin 83} (hdeg : deg[c] = nm[c].length) (w : List Bool) :
    unsatisfied nm deg w c = xorAll (nm[c].map fun n => w.getD n false) := by
  have hrow : (List.range deg[c]).map (nmAt nm c) = nm[c] :=
    hdeg ▸ List.ext_getElem (by simp) fun t _ ht => by simpa [nmAt] using List.getD_eq_getElem _ 0 ht
  rw [← hrow, List.map_map]
  rfl

theorem parityCount_eq_zero_iff {w : List Bool} :
    parityCount nm deg w = 0 ↔ ∀ c : Fin 83, unsatisfied nm deg w c = false := by
  simp [parityCount, List.countP_eq_zero]

/-- R143, R178: where the degrees are the lengths of the lists, the count is of the check nodes with an odd number of ones. -/
theorem parityCount_eq_card (hdeg : ∀ c : Fin 83, deg[c] = nm[c].length) (w : List Bool) : parityCount nm deg w =
    (Finset.univ.filter fun c : Fin 83 => Odd (nm[c].countP fun n => w.getD n false)).card := by
  rw [card_filter_univ_eq_countP]
  refine List.countP_congr fun c _ => ?_
  rw [unsatisfied_eq_xorAll (hdeg c), xorAll_map_iff_odd, decide_eq_true_iff]

theorem parityCount_zeros (k : Nat) : parityCount nm deg (List.replicate k false) = 0 := by
  refine parityCount_eq_zero_iff.mpr fun c => ?_
  rw [unsatisfied, ← bitVal_eq_zero_iff, bitVal_xorAll_map]
  simp only [zeros_getD, bitVal_false, List.sum_map_zero]

theorem unsatisfied_xorBits {v w : List Bool} (h : v.length = w.length) (c : Fin 83) :
    unsatisfied nm deg (xorBits v w) c = (unsatisfied nm deg v c ^^ unsatisfied nm deg w c) := by
  simp only [unsatisfied, xorBits_getD h, xorAll_map_xor]

end

/-! ### The encoder (R141) -/

section
variable (gen : Vector (BitVec 91) 83)

theorem ldpcEncode_length {info : List Bool} (h : info.length = 91) : (ldpcEncode gen info).length = 174 := by
  simp [ldpcEncode, h]

theorem ldpcEncode_getElem?_info {info : List Bool} (h : info.length = 91) {j : Nat} (hj : j < 91) :
    (ldpcEncode gen info)[j]? = info[j]? := List.getElem?_append_left (h ▸ hj)

theorem ldpcEncode_getD_parity {info : List Bool} (h : info.length = 91) (i : Fin 83) :
    (ldpcEncode gen info).getD (91 + i.val) false = parityBit gen info i := by
  simp [ldpcEncode, List.getD, List.getElem?_append_right, h]

theorem parityBit_xorBits {a b : List Bool} (h : a.length = b.length) (i : Fin 83) :
    parityBit gen (xorBits a b) i = (parityBit gen a i ^^ parityBit gen b i) := by
  simp only [parityBit, xorBits_getD h, ← xorAll_map_xor, Bool.and_xor_distrib_left]

theorem ldpcEncode_xorBits {a b : List Bool} (h : a.length = b.length) :
    ldpcEncode gen (xorBits a b) = xorBits (ldpcEncode gen a) (ldpcEncode gen b) := by
  have hp : parityBit gen (xorBits a b) = fun i => parityBit gen a i ^^ parityBit gen b i :=
    funext (parityBit_xorBits gen h)
  rw [ldpcEncode, hp, xorBits, xorBits, ldpcEncode, ldpcEncode, List.zipWith_append h, List.zipWith_map, List.zipWith_self]

/-- R141: the parity bits are the product of `GEN` and the block over GF(2). -/
theorem bitVal_parityBit (info : List Bool) (i : Fin 83) : bitVal (parityBit gen info i) =
    ∑ j ∈ Finset.range 91, bitVal (genAt gen i j) * bitVal (info.getD j false) := by
  rw [parityBit, bitVal_xorAll_map]
  simp only [bitVal_and]
  rfl

theorem parityBit_iff_odd (info : List Bool) (i : Fin 83) : parityBit gen info i = true ↔
    Odd (Finset.univ.filter fun j : Fin 91 => gen[i].getMsbD j.val = true ∧ info.getD j.val false = true).card := by
  rw [parityBit, xorAll_map_iff_odd, ← List.map_coe_finRange_eq_range, List.countP_map, card_filter_univ_eq_countP]
  simp only [Function.comp_def, genAt, Bool.decide_and, Bool.decide_eq_true]

theorem ldpcEncode_zeros : ldpcEncode gen (List.replicate 91 false) = List.replicate 174 false := by
  have hp : parityBit gen (List.replicate 91 false) = fun _ => false := funext fun i => by
    rw [← bitVal_eq_zero_iff, bitVal_parityBit]
    exact Finset.sum_eq_zero fun j _ => by rw [zeros_getD, bitVal_false, mul_zero]
  rw [ldpcEncode, hp, List.map_const', List.length_finRange, List.replicate_append_replicate]

/-- The block whose only 1 is at position j (R145, R158). -/
def unitBlock (j : Nat) : List Bool := List.replicate j false ++ true :: List.replicate (90 - j) false

theorem unitBlock_length {j : Nat} (hj : j < 91) : (unitBlock j).length = 91 := by
  simp only [unitBlock, List.length_append, List.length_cons, List.length_replicate]
  omega

theorem unitBlock_getD (j k : Nat) : (unitBlock j).getD k false = decide (k = j) := by
  obtain h | rfl | h := lt_trichotomy k j
  · simp [unitBlock, List.getD, List.getElem?_append_left, h, h.ne]
  · simp [unitBlock]
  · obtain ⟨d, rfl⟩ := Nat.exists_eq_add_of_lt h
    simp [unitBlock, List.getD, List.getElem?_append_right, add_assoc]

theorem parityBit_unitBlock {j : Nat} (hj : j < 91) (i : Fin 83) : parityBit gen (unitBlock j) i = genAt gen i j := by
  refine bitVal_injective ?_
  rw [bitVal_parityBit, Finset.sum_eq_single_of_mem j (Finset.mem_range.mpr hj)]
  · rw [unitBlock_getD, decide_eq_true rfl, bitVal_true, mul_one]
  · intro k _ hk
    rw [unitBlock_getD, decide_eq_false hk, bitVal_false, mul_zero]

end

/-! ### Code words (R144, R158) -/

section
variable (gen : Vector (BitVec 91) 83)

/-- Row n, column j of the encoder's matrix over GF(2): the identity, and below it `GEN`. -/
def codeEntry (n j : Nat) : ZMod 2 :=
  bitVal (n == j) + if 91 ≤ n then bitVal (genAt gen (Fin.ofNat 83 (n - 91)) j) else 0

/-- R141: the codeword is the product of the encoder's matrix and the block. -/
theorem bitVal_ldpcEncode_getD {info : List Bool} (h : info.length = 91) {n : Nat} (hn : n ≤ 173) :
    bitVal ((ldpcEncode gen info).getD n false) =
      ∑ j ∈ Finset.range 91, codeEntry gen n j * bitVal (info.getD j false) := by
  by_cases h91 : 91 ≤ n
  · obtain ⟨i, rfl⟩ := Nat.exists_eq_add_of_le h91
    have hi : Fin.ofNat 83 (91 + i - 91) = ⟨i, by omega⟩ := Fin.ext (by simp; omega)
    rw [ldpcEncode_getD_parity gen h ⟨i, by omega⟩, bitVal_parityBit]
    refine Finset.sum_congr rfl fun j hj => ?_
    have hj91 := Finset.mem_range.mp hj
    have hne : (91 + i == j) = false := beq_eq_false_iff_ne.mpr (by omega)
    rw [codeEntry, if_pos h91, hi, hne, bitVal_false, zero_add]
  · have hlt : n < 91 := not_le.mp h91
    rw [List.getD, ldpcEncode_getElem?_info gen h hlt, ← List.getD,
      Finset.sum_eq_single_of_mem n (Finset.mem_range.mpr hlt)]
    · simp [codeEntry, h91]
    · intro j _ hj
      simp [codeEntry, h91, beq_eq_false_iff_ne.mpr hj.symm]

variable (nm : Vector (List Nat) 83)

/-- The equation of clause (f) of R158 for check node c and the block with its only 1 at position j. -/
def unitEquation (c : Fin 83) (j : Nat) : Bool :=
  xorAll (nm[c].contains j :: (nm[c].filter (91 ≤ ·)).map fun n => genAt gen (Fin.ofNat 83 (n - 91)) j)

theorem unitBlocksOk_iff : UnitBlocksOk gen nm ↔ ∀ (c : Fin 83) (j : Nat), j < 91 → unitEquation gen nm c j = false :=
  Iff.rfl

variable {nm}

/-- The equation at a single-bit block is the sum of the matrix's column over the check node's list. -/
theorem bitVal_unitEquation {c : Fin 83} (hd : nm[c].Nodup) (j : Nat) :
    bitVal (unitEquation gen nm c j) = ∑ n ∈ nm[c].toFinset, codeEntry gen n j := by
  have hself : ∑ n ∈ nm[c].toFinset, bitVal (n == j) = bitVal (nm[c].contains j) := by
    simp [bitVal]
  have hgen : ∑ n ∈ nm[c].toFinset, (if 91 ≤ n then bitVal (genAt gen (Fin.ofNat 83 (n - 91)) j) else 0) =
      ((nm[c].filter (91 ≤ ·)).map fun n => bitVal (genAt gen (Fin.ofNat 83 (n - 91)) j)).sum := by
    rw [← Finset.sum_filter, ← List.sum_toFinset _ (hd.filter _), List.toFinset_filter]
    simp
  simp only [codeEntry]
  rw [Finset.sum_add_distrib, hself, hgen, unitEquation, bitVal_xorAll, List.map_cons, List.sum_cons, List.map_map]
  rfl

/-- The equation of a check node at a codeword is the sum of its equations at the single-bit blocks of the block's ones. -/
theorem GraphWF.bitVal_unsatisfied_ldpcEncode (hg : GraphWF nm) {deg : Vector Nat 83} {c : Fin 83}
    (hdeg : deg[c] = nm[c].length) {info : List Bool} (h : info.length = 91) :
    bitVal (unsatisfied nm deg (ldpcEncode gen info) c) =
      ∑ j ∈ Finset.range 91, bitVal (unitEquation gen nm c j) * bitVal (info.getD j false) := by
  have hd := hg.distinct c
  calc bitVal (unsatisfied nm deg (ldpcEncode gen info) c)
      = ∑ n ∈ nm[c].toFinset, bitVal ((ldpcEncode gen info).getD n false) := by
        rw [unsatisfied_eq_xorAll hdeg, bitVal_xorAll_map, List.sum_toFinset _ hd]
    _ = ∑ n ∈ nm[c].toFinset, ∑ j ∈ Finset.range 91, codeEntry gen n j * bitVal (info.getD j false) :=
        Finset.sum_congr rfl fun n hn => bitVal_ldpcEncode_getD gen h (hg.range c n (List.mem_toFinset.mp hn))
    _ = ∑ j ∈ Finset.range 91, bitVal (unitEquation gen nm c j) * bitVal (info.getD j false) := by
        rw [Finset.sum_comm]
        simp only [bitVal_unitEquation gen hd, Finset.sum_mul]

/-- R158: clause (f) on the single-bit blocks makes every codeword satisfy every equation. -/
theorem TablesOk.parityCount_ldpcEncode (ht : TablesOk gen nm) {deg : Vector Nat 83}
    (hdeg : ∀ c : Fin 83, deg[c] = nm[c].length) {info : List Bool} (h : info.length = 91) :
    parityCount nm deg (ldpcEncode gen info) = 0 := by
  refine parityCount_eq_zero_iff.mpr fun c => bitVal_eq_zero_iff.mp ?_
  rw [ht.graph.bitVal_unsatisfied_ldpcEncode gen (hdeg c) h]
  refine Finset.sum_eq_zero fun j hj => ?_
  rw [(unitBlocksOk_iff gen nm).mp ht.unitBlocks c j (Finset.mem_range.mp hj), bitVal_false, zero_mul]

end

/-! ### The all-ones word (R159) -/

/-- R159: 522 edges at 83 check nodes of 6 or 7 are 24 more than 6 at each. -/
theorem GraphWF.card_degree_seven {nm : Vector (List Nat) 83} (h : GraphWF nm) :
    (Finset.univ.filter fun c : Fin 83 => nm[c].length = 7).card = 24 := by
  have hsum : ∑ c : Fin 83, nm[c].length = 522 := by
    rw [← h.edges, ← List.sum_ofFn]
    congr 1
    exact List.ext_getElem (by rw [List.length_ofFn, List.length_map, Vector.length_toList]) fun _ _ _ => by
      rw [List.getElem_ofFn, List.getElem_map, Vector.getElem_toList]
      rfl
  have hlen (c : Fin 83) : nm[c].length = 6 + if nm[c].length = 7 then 1 else 0 := by
    have hc := h.degree c
    split <;> omega
  rw [Finset.sum_congr rfl fun c _ => hlen c, Finset.sum_add_distrib, ← Finset.card_filter] at hsum
  rw [Finset.sum_const, Finset.card_univ, Fintype.card_fin, smul_eq_mul] at hsum
  omega

theorem GraphWF.odd_countP_ones_iff {nm : Vector (List Nat) 83} (h : GraphWF nm) (c : Fin 83) :
    Odd (nm[c].countP fun n => (List.replicate 174 true).getD n false) ↔ nm[c].length = 7 := by
  have hall : (nm[c].countP fun n => (List.replicate 174 true).getD n false) = nm[c].length :=
    List.countP_eq_length.mpr fun n hn => List.getD_replicate _ (Nat.lt_succ_of_le (h.range c n hn))
  rw [hall, Nat.odd_iff]
  have hc := h.degree c
  omega

theorem GraphWF.parityCount_ones {nm : Vector (List Nat) 83} (h : GraphWF nm) {deg : Vector Nat 83}
    (hdeg : ∀ c : Fin 83, deg[c] = nm[c].length) : parityCount nm deg (List.replicate 174 true) = 24 := by
  simp only [parityCount_eq_card hdeg, h.odd_countP_ones_iff, h.card_degree_seven]

/-! ### The operations (R142, R143) -/

/-- R21, R155: from a built state `NM` is the graph of the code. -/
theorem Inv.graphWF {s : State} (h : Inv s) (hi : s.initDone = true) : GraphWF s.params.nm :=
  graphOk_iff.mp (h.tables hi).1

theorem exec_ldpcEnc {s : State} {info : List Bool} (hi : s.initDone = true) (ho : s.operand = bitItems info)
    (hl : info.length = 91) : exec .ldpcEnc s = .next (s.respond .ok 0 (bitItems (ldpcEncode s.params.gen info))) :=
  (State.checked_of (i := .ldpcEnc) hi (by simp [Instr.lengthOk, ho, hl]) _).trans (State.withBits_of ho _)

theorem exec_ldpcSyn {s : State} {w : List Bool} (hi : s.initDone = true) (ho : s.operand = bitItems w)
    (hl : w.length = 174) : exec .ldpcSyn s =
      .next (s.respond .ok (BitVec.ofNat 16 (parityCount s.params.nm s.derived.deg w)) []) :=
  (State.checked_of (i := .ldpcSyn) hi (by simp [Instr.lengthOk, ho, hl]) _).trans (State.withBits_of ho _)

/-- Settles O38: the payload of the answer is the encoder's word, and a parity bit is 1 where the number of ones that its row
selects is odd. -/
theorem ldpcEncodeIsSystematic : Obligations.LdpcEncodeIsSystematic := by
  unfold Obligations.LdpcEncodeIsSystematic
  intro s info hi ho hl
  refine ⟨_, exec_ldpcEnc hi ho hl, ldpcEncode_length _ hl, fun j => ldpcEncode_getElem?_info _ hl, fun i => ?_⟩
  rw [ldpcEncode_getD_parity _ hl, parityBit_iff_odd]

/-- Settles O39: exclusive or goes through the parity bits and through the equations of the check nodes. -/
theorem ldpcIsLinear : Obligations.LdpcIsLinear := by
  unfold Obligations.LdpcIsLinear
  refine fun gen nm => ⟨fun a b ha hb => ldpcEncode_xorBits gen (ha.trans hb.symm), ldpcEncode_zeros gen,
    fun j i => ?_, fun v w hv hw h0v h0w => ?_⟩
  · exact (ldpcEncode_getD_parity gen (unitBlock_length j.isLt) i).trans (parityBit_unitBlock gen j.isLt i)
  · rw [parityCount_eq_zero_iff] at h0v h0w ⊢
    intro c
    rw [unsatisfied_xorBits (hv.trans hw.symm), h0v, h0w, Bool.xor_false]

/-- Settles O40: `aux` is the count of the parity equations, which for all ones is that of the check nodes of degree 7. -/
theorem ldpcSynCountsOddChecks : Obligations.LdpcSynCountsOddChecks := by
  unfold Obligations.LdpcSynCountsOddChecks
  intro s w hinv hi ho hl
  have hdeg := (hinv.tablesBuilt hi).degree
  refine ⟨_, exec_ldpcSyn hi ho hl, ?_, ?_, ?_, ?_⟩
  · rw [parityCount_toNat]
    exact parityCount_le ..
  · rw [parityCount_toNat, parityCount_eq_card hdeg]
  · rintro rfl
    exact congrArg (BitVec.ofNat 16) (parityCount_zeros 174)
  · rintro rfl
    exact congrArg (BitVec.ofNat 16) ((hinv.graphWF hi).parityCount_ones hdeg)

/-- Settles O41: an equation of a codeword is a sum of the equations of single-bit blocks, which clause (f) makes 0. -/
theorem codewordsSatisfyEveryEquation : Obligations.CodewordsSatisfyEveryEquation := by
  unfold Obligations.CodewordsSatisfyEveryEquation
  intro s info hinv hi ht hl
  have hsyn := exec_ldpcSyn (s := { s with operand := bitItems (ldpcEncode s.params.gen info) }) hi rfl
    (ldpcEncode_length _ hl)
  rw [ht.parityCount_ldpcEncode _ (hinv.tablesBuilt hi).degree hl] at hsyn
  exact ⟨_, exec_ldpcEnc (s := { s with operand := bitItems info }) hi rfl hl, hsyn⟩

end Sys2Proof.Machine
end

section
/-! PROOFS. The steps of an iteration (R176 to R178, R182): each is the equation of its rule in every format that meets its
contract (R190). -/

namespace Sys2Proof.Machine

/-! ### Step 1: the check nodes (R176) -/

section
variable {p : Params} {d : Derived} (b2c : Vector (Vector HeldNum 3) 174)

theorem checkUpdate_getElem (N : Numerics HeldNum) (nm : Vector (List Nat) 83) (c : Fin 83) :
    (checkUpdate N nm d b2c)[c] = checkOutputs N (checkInputs nm d b2c c) := by
  simp [checkUpdate]

theorem checkOutputs_length (N : Numerics HeldNum) (ins : List HeldNum) : (checkOutputs N ins).length = ins.length := by
  simp [checkOutputs]

theorem checkOutputs_getElem?_eq_some {N : Numerics HeldNum} {ins : List HeldNum} {t : Nat} {v : HeldNum}
    (h : (checkOutputs N ins)[t]? = some v) : v = N.cn (ins.eraseIdx t) := by
  obtain ⟨_, rfl⟩ := List.getElem?_eq_some_iff.mp h
  simp [checkOutputs]

theorem TablesBuilt.checkInputs_length (htab : TablesBuilt p.nm d) (c : Fin 83) :
    (checkInputs p.nm d b2c c).length = p.nm[c].length := by
  rw [checkInputs, List.length_map, List.length_range, htab.degree]

/-- The messages that come in to a check node, as numbers, slot by slot. -/
theorem TablesBuilt.checkInputs_value (htab : TablesBuilt p.nm d) (c : Fin 83) :
    (checkInputs p.nm d b2c c).map p.num.value = (List.range p.nm[c].length).map (toCheck p d b2c c) := by
  rw [checkInputs, List.map_map, htab.degree]
  rfl

/-- A check node has a slot beside the one that it sends to, so that its message is a check-node value. -/
theorem GraphWF.checkInputs_eraseIdx_ne_nil (hg : GraphWF p.nm) (htab : TablesBuilt p.nm d) (c : Fin 83) (t : Nat) :
    (checkInputs p.nm d b2c c).eraseIdx t ≠ [] := by
  have hdeg := hg.degree c
  have hle := List.le_length_eraseIdx (checkInputs p.nm d b2c c) t
  rw [htab.checkInputs_length] at hle
  exact List.ne_nil_of_length_pos (by omega)

theorem NumericsWF.checksSent (hp : NumericsWF p) (hg : GraphWF p.nm) (htab : TablesBuilt p.nm d) :
    ChecksSent p d b2c (checkUpdate p.num.numerics p.nm d b2c) := by
  intro c
  rw [checkUpdate_getElem]
  refine ⟨(checkOutputs_length ..).trans (htab.checkInputs_length b2c c), fun t v hv => ?_⟩
  rw [checkOutputs_getElem?_eq_some hv, ← List.eraseIdx_map, ← htab.checkInputs_value, List.eraseIdx_map]
  exact hp.cn (hg.checkInputs_eraseIdx_ne_nil b2c htab c t)

end

/-! ### Steps 2 and 5: the bit nodes (R177, R182) -/

section
variable {p : Params} (d : Derived) (llr0 : Vector HeldNum 174) (c2b : Vector (List HeldNum) 83)

/-- The sum of the input LLR of bit node n and the messages on the slots `ss`, in their order. -/
def slotSum (N : Numerics HeldNum) (n : Fin 174) (ss : List (Fin 3)) : HeldNum :=
  (ss.map (bitInput N d c2b n)).foldl N.add llr0[n]

/-- R177, R182: the sum of the input LLR and the messages on two or three slots. -/
theorem NumericsWF.sumValue_slotSum (hp : NumericsWF p) (n : Fin 174) {ss : List (Fin 3)}
    (hlen : ss.length = 2 ∨ ss.length = 3) (hnd : ss.Nodup) : SumValue p (p.num.value (slotSum d llr0 c2b p.num.numerics n ss))
      (p.num.value llr0[n] + ∑ s ∈ ss.toFinset, toBit p d c2b n s) := by
  have hsum := hp.sum llr0[n] (ms := ss.map (bitInput p.num.numerics d c2b n)) (by rwa [List.length_map])
  rwa [List.map_map, ← List.sum_toFinset _ hnd] at hsum

theorem correctedLlr_eq_slotSum (N : Numerics HeldNum) (n : Fin 174) :
    correctedLlr N d llr0 c2b n = slotSum d llr0 c2b N n [0, 1, 2] := rfl

theorem bitUpdate_getElem (N : Numerics HeldNum) (n : Fin 174) : ∀ s : Fin 3,
    (bitUpdate N d llr0 c2b)[n][s] = slotSum d llr0 c2b N n ((List.finRange 3).erase s)
  | 0 | 1 | 2 => by simp only [bitUpdate, Fin.getElem_fin, Vector.getElem_ofFn]; rfl

theorem NumericsWF.bitsDecided (hp : NumericsWF p) :
    BitsDecided p d llr0 c2b (hardDecision p.num.numerics d llr0 c2b) := by
  intro n
  refine ⟨p.num.value (correctedLlr p.num.numerics d llr0 c2b n), ?_, ?_⟩
  · have hall : ([0, 1, 2] : List (Fin 3)).toFinset = Finset.univ := by decide
    rw [correctedLlr_eq_slotSum, ← hall]
    exact hp.sumValue_slotSum d llr0 c2b n (.inr rfl) (by decide)
  · simp [hardDecision, hp.positive]

theorem NumericsWF.bitsSent (hp : NumericsWF p) :
    BitsSent p d llr0 c2b (bitUpdate p.num.numerics d llr0 c2b) := by
  intro n s
  have hothers : ((List.finRange 3).erase s).toFinset = Finset.univ.erase s := by decide +revert
  rw [bitUpdate_getElem, ← hothers]
  exact hp.sumValue_slotSum d llr0 c2b n (.inl (by decide +revert)) ((List.nodup_finRange 3).erase s)

end

/-! ### Step 3: the count (R178) -/

theorem TablesBuilt.parityCount_eq_oddChecks {nm : Vector (List Nat) 83} {d : Derived} (htab : TablesBuilt nm d)
    (hard : Vector Bool 174) : parityCount nm d.deg hard.toList = oddChecks nm hard :=
  parityCount_eq_card htab.degree hard.toList

/-- Settles O44: each step writes its update, and that is the equation of its rule. -/
theorem iterationEquations : Obligations.IterationEquations := by
  unfold Obligations.IterationEquations
  intro s hinv hi hp
  have htab := hinv.tablesBuilt hi
  refine ⟨?_, ?_, ⟨?_, ?_⟩, ?_⟩
  · exact s.checkStep_dec_c2b ▸ hp.checksSent s.dec.b2c (hinv.graphWF hi) htab
  · exact s.hardStep_dec_hard ▸ hp.bitsDecided s.derived s.dec.llr0 s.dec.c2b
  · rw [s.parityStep_dec_nunsat, htab.parityCount_eq_oddChecks]
  · rw [s.parityStep_dec_hist, s.parityStep_dec_nunsat]
  · exact s.bitStep_dec_b2c ▸ hp.bitsSent s.derived s.dec.llr0 s.dec.c2b

end Sys2Proof.Machine
end

section
/-! PROOFS. The factor graph (R151 to R159): its reads give the lists of the rules, its edges are counted at the check nodes
and at the bit nodes, and clause (f) needs only the single-bit blocks. -/

namespace Sys2Proof.Machine

/-! ### The reads (R156, R157) -/

/-- The rows of `NM` as the tables hold them: `DEG[c]` entries of `NM[c]`. -/
theorem TablesBuilt.checkNeighbours_eq {nm : Vector (List Nat) 83} {d : Derived} (h : TablesBuilt nm d) (c : Fin 83) :
    checkNeighbours nm d c = nm[c] := by
  rw [checkNeighbours, h.degree]
  exact List.ext_getElem (by simp) fun t _ ht => by simpa [nmAt] using List.getD_eq_getElem _ 0 ht

theorem bitNeighbours_eq (d : Derived) (n : Fin 174) : bitNeighbours d n =
    [d.mn[n][(0 : Fin 3)].val, d.mn[n][(1 : Fin 3)].val, d.mn[n][(2 : Fin 3)].val] :=
  List.ext_getElem (by simp [bitNeighbours]) fun i _ hi => by
    match i, hi with
    | 0, _ | 1, _ | 2, _ => simp [bitNeighbours]

section
variable {s : State} (hi : s.initDone = true) (ho : s.operand = [])
include hi ho

theorem exec_fgNm (c : Fin 83) : exec (.fgNm (BitVec.ofNat 16 c.val)) s =
    .next (s.respond .ok 0 (idxItems (checkNeighbours s.params.nm s.derived c))) := by
  have hc : (BitVec.ofNat 16 c.val).toNat = c.val := BitVec.toNat_ofNat .. ▸ Nat.mod_eq_of_lt (by omega)
  refine (State.checked_of (i := .fgNm (BitVec.ofNat 16 c.val)) hi (by simp [Instr.lengthOk, ho]) _).trans ?_
  rw [hc, decide_eq_true (Nat.le_of_lt_succ c.isLt), State.whenIndex_true, Fin.ofNat_val_eq_self]

theorem exec_fgMn (n : Fin 174) : exec (.fgMn (BitVec.ofNat 16 n.val)) s =
    .next (s.respond .ok 0 (idxItems (bitNeighbours s.derived n))) := by
  have hn : (BitVec.ofNat 16 n.val).toNat = n.val := BitVec.toNat_ofNat .. ▸ Nat.mod_eq_of_lt (by omega)
  refine (State.checked_of (i := .fgMn (BitVec.ofNat 16 n.val)) hi (by simp [Instr.lengthOk, ho]) _).trans ?_
  rw [hn, decide_eq_true (Nat.le_of_lt_succ n.isLt), State.whenIndex_true, bitNode_val]

end

/-- R72: the index of a bit node fits in the 8 bits of an `IDX` item. -/
theorem GraphWF.map_toNat_map_ofNat {nm : Vector (List Nat) 83} (h : GraphWF nm) (c : Fin 83) :
    (nm[c].map (BitVec.ofNat 8)).map BitVec.toNat = nm[c] := by
  rw [List.map_map]
  refine (List.map_congr_left fun n hn => ?_).trans (List.map_id _)
  have hle := h.range c n hn
  exact (BitVec.toNat_ofNat ..).trans (Nat.mod_eq_of_lt (by omega))

/-- Settles O20: the check is the conjunction of the clauses. -/
theorem buildAcceptsExactlyWellFormedGraphs : Obligations.BuildAcceptsExactlyWellFormedGraphs := by
  unfold Obligations.BuildAcceptsExactlyWellFormedGraphs
  exact fun _ => graphOk_iff

/-- Settles O24: `DEG[c]` is the length of the list, so the answer has all its entries, and each fits in 8 bits. -/
theorem fgNmReturnsTheCheckList : Obligations.FgNmReturnsTheCheckList := by
  unfold Obligations.FgNmReturnsTheCheckList
  intro s c hinv hi ho
  refine ⟨s.params.nm[c].map (BitVec.ofNat 8), ?_, (hinv.graphWF hi).map_toNat_map_ofNat c⟩
  rw [exec_fgNm hi ho, (hinv.tablesBuilt hi).checkNeighbours_eq, List.map_map]
  rfl

/-- Settles O25: the answer is `MN[n]`, which ascends and is the inverse of `NM`. -/
theorem fgMnReturnsTheBitList : Obligations.FgMnReturnsTheBitList := by
  unfold Obligations.FgMnReturnsTheBitList
  intro s n hinv hi ho
  have htab := hinv.tablesBuilt hi
  obtain ⟨h01, h12⟩ := htab.ascending n
  have hval (c : Fin 83) : (BitVec.ofNat 8 c.val).toNat = c.val := BitVec.toNat_ofNat .. ▸ Nat.mod_eq_of_lt (by omega)
  have hanswer := exec_fgMn hi ho n
  rw [bitNeighbours_eq] at hanswer
  refine ⟨_, _, _, hanswer, ?_⟩
  simp only [hval]
  refine ⟨h01, h12, Nat.le_of_lt_succ (Fin.isLt _), fun c => ?_⟩
  rw [← htab.inverse n c]
  simp [Fin.exists_fin_succ, Fin.ext_iff, eq_comm]

/-! ### The edges (R154, R159) -/

section
variable {nm : Vector (List Nat) 83}

theorem edgeCount_eq_sum (nm : Vector (List Nat) 83) : edgeCount nm = ∑ c : Fin 83, nm[c].length := by
  have hrows : nm.toList = List.ofFn fun c : Fin 83 => nm[c] := List.ext_getElem
    (by rw [List.length_ofFn, Vector.length_toList]) fun _ _ _ => by rw [List.getElem_ofFn, Vector.getElem_toList]; rfl
  rw [edgeCount, hrows, List.map_ofFn, List.sum_ofFn]
  rfl

/-- The edges at a check node, counted by their bit nodes. -/
theorem card_bitNodes_eq_length {l : List Nat} (hrange : ∀ n ∈ l, n ≤ 173) (hd : l.Nodup) :
    (Finset.univ.filter fun n : Fin 174 => n.val ∈ l).card = l.length := by
  have himage : (Finset.univ.filter fun n : Fin 174 => n.val ∈ l).map Fin.valEmbedding = l.toFinset := by
    ext k
    simp only [Finset.mem_map, Finset.mem_filter, Finset.mem_univ, true_and, Fin.valEmbedding_apply, List.mem_toFinset]
    exact ⟨fun ⟨n, hn, hk⟩ => hk ▸ hn, fun hk => ⟨⟨k, Nat.lt_succ_of_le (hrange k hk)⟩, hk, rfl⟩⟩
  rw [← Finset.card_map, himage, List.toFinset_card_of_nodup hd]

theorem card_checkNodes_eq_length (n : Fin 174) :
    (Finset.univ.filter fun c : Fin 83 => n.val ∈ nm[c]).card = (checksOf nm n).length := by
  rw [card_filter_univ_eq_countP, List.countP_eq_length_filter, checksOf]
  simp

/-- R159: the edges of clauses (b) and (c), counted at the bit nodes, are 3 at each of 174. -/
theorem edgeCount_of_three_checks (hrange : ∀ c : Fin 83, ∀ n ∈ nm[c], n ≤ 173) (hd : ∀ c : Fin 83, nm[c].Nodup)
    (hthree : ∀ n : Fin 174, (checksOf nm n).length = 3) : edgeCount nm = 522 := by
  calc edgeCount nm
      = ∑ c : Fin 83, (Finset.univ.filter fun n : Fin 174 => n.val ∈ nm[c]).card := by
        simp only [edgeCount_eq_sum, card_bitNodes_eq_length (hrange _) (hd _)]
    _ = ∑ n : Fin 174, (Finset.univ.filter fun c : Fin 83 => n.val ∈ nm[c]).card :=
        Finset.sum_card_bipartiteAbove_eq_sum_card_bipartiteBelow fun (c : Fin 83) (n : Fin 174) => n.val ∈ nm[c]
    _ = 522 := by
        simp only [card_checkNodes_eq_length, hthree, Finset.sum_const, Finset.card_univ, Fintype.card_fin, smul_eq_mul]

theorem GraphWF.countP_degree_seven (h : GraphWF nm) : (List.finRange 83).countP (fun c => nm[c].length == 7) = 24 :=
  (card_filter_univ_eq_countP fun c : Fin 83 => nm[c].length = 7).symm.trans h.card_degree_seven

/-- R159: the check nodes that do not have degree 7 have degree 6. -/
theorem GraphWF.countP_degree_six (h : GraphWF nm) : (List.finRange 83).countP (fun c => nm[c].length == 6) = 59 := by
  have hsplit := List.length_eq_countP_add_countP (fun c : Fin 83 => nm[c].length == 7) (l := List.finRange 83)
  have hother : (List.finRange 83).countP (fun c => nm[c].length == 6) =
      (List.finRange 83).countP fun c => decide ¬ (nm[c].length == 7) = true :=
    List.countP_congr fun c _ => by
      have hc := h.degree c
      simp only [beq_iff_eq, decide_eq_true_eq]
      omega
  rw [List.length_finRange, h.countP_degree_seven, ← hother] at hsplit
  omega

end

/-- Settles O26: the edges counted at the bit nodes are 522, which at 83 check nodes of degree 6 or 7 fixes the census. -/
theorem degreeCensus : Obligations.DegreeCensus := by
  unfold Obligations.DegreeCensus
  intro nm hdegree hrange hd hthree
  have hedges : edgeCount nm = 522 := edgeCount_of_three_checks hrange hd hthree
  have hg : GraphWF nm := ⟨hdegree, hrange, hd, hthree, hedges⟩
  exact ⟨hedges, hg.countP_degree_six, hg.countP_degree_seven⟩

/-! ### Clause (f) (R158) -/

/-- The equation of a check node at the codeword of a single-bit block is that of clause (f). -/
theorem GraphWF.unsatisfied_ldpcEncode_unitBlock {nm : Vector (List Nat) 83} (hg : GraphWF nm)
    (gen : Vector (BitVec 91) 83) {deg : Vector Nat 83} {c : Fin 83} (hdeg : deg[c] = nm[c].length) {j : Nat} (hj : j < 91) :
    unsatisfied nm deg (ldpcEncode gen (unitBlock j)) c = unitEquation gen nm c j := by
  refine bitVal_injective ?_
  rw [hg.bitVal_unsatisfied_ldpcEncode gen hdeg (unitBlock_length hj),
    Finset.sum_eq_single_of_mem j (Finset.mem_range.mpr hj)]
  · rw [unitBlock_getD, decide_eq_true rfl, bitVal_true, mul_one]
  · intro k _ hk
    rw [unitBlock_getD, decide_eq_false hk, bitVal_false, mul_zero]

/-- Settles O27: a codeword's equation is a sum of those of the single-bit blocks, which are themselves blocks. -/
theorem unitBlocksAreEnough : Obligations.UnitBlocksAreEnough := by
  unfold Obligations.UnitBlocksAreEnough
  intro gen nm
  have hdeg (c : Fin 83) : (nm.map List.length)[c] = nm[c].length := by simp
  constructor
  · exact fun ht => ⟨ht.graph, fun _ hl => ht.parityCount_ldpcEncode gen hdeg hl⟩
  · refine fun ht => ⟨ht.graph, (unitBlocksOk_iff gen nm).mpr fun c j hj => ?_⟩
    rw [← ht.graph.unsatisfied_ldpcEncode_unitBlock gen (hdeg c) hj]
    exact parityCount_eq_zero_iff.mp (ht.codewords _ (unitBlock_length hj)) c

end Sys2Proof.Machine
end

section
/-! PROOFS. The check-node function of exact reals (R175, R189): signs come out of it as factors, magnitudes go through it in
order, and no input is smaller than its value. -/

namespace Sys2Proof.Machine

/-! ### The hyperbolic tangent and its inverse -/

theorem tanh_le_tanh_iff {x y : ℝ} : Real.tanh x ≤ Real.tanh y ↔ x ≤ y := by
  rw [← Real.artanh_le_artanh_iff ⟨Real.neg_one_lt_tanh x, Real.tanh_lt_one x⟩
    ⟨Real.neg_one_lt_tanh y, Real.tanh_lt_one y⟩, Real.artanh_tanh, Real.artanh_tanh]

theorem tanh_pos {x : ℝ} (hx : 0 < x) : 0 < Real.tanh x := by
  have h := (tanh_le_tanh_iff (x := x) (y := 0)).not.mpr hx.not_ge
  rwa [Real.tanh_zero, not_le] at h

theorem abs_tanh (x : ℝ) : |Real.tanh x| = Real.tanh |x| := by
  obtain hx | hx := le_total 0 x
  · rw [abs_of_nonneg hx, abs_of_nonneg (Real.tanh_zero ▸ tanh_le_tanh_iff.mpr hx)]
  · rw [abs_of_nonpos hx, abs_of_nonpos (Real.tanh_zero ▸ tanh_le_tanh_iff.mpr hx), Real.tanh_neg]

theorem tanh_abs_half (x : ℝ) : Real.tanh (|x| / 2) = |Real.tanh (-x / 2)| := by
  rw [abs_tanh, abs_div, abs_neg, abs_of_pos (two_pos (α := ℝ))]

/-- The inverse hyperbolic tangent is odd, outside (-1, 1) too. -/
theorem artanh_of_neg (y : ℝ) : Real.artanh (-y) = -Real.artanh y := by
  rw [Real.artanh, Real.artanh, ← Real.log_inv, ← Real.sqrt_inv, inv_div, sub_neg_eq_add, ← sub_eq_add_neg]

/-- A sign is a factor that goes through an odd function. -/
theorem artanh_sign_mul {ε : ℝ} (hε : ε = 1 ∨ ε = -1) (y : ℝ) : Real.artanh (ε * y) = ε * Real.artanh y := by
  obtain rfl | rfl := hε <;> simp [artanh_of_neg]

theorem abs_artanh (y : ℝ) : |Real.artanh y| = Real.artanh |y| := by
  obtain hy | hy := le_total 0 y
  · rw [abs_of_nonneg hy, abs_of_nonneg (Real.artanh_nonneg hy)]
  · rw [abs_of_nonpos hy, abs_of_nonpos (Real.artanh_nonpos hy), artanh_of_neg]

/-! ### The facts of R189 -/

theorem cnReal_of_zero_mem {xs : List ℝ} (h : (0 : ℝ) ∈ xs) : cnReal xs = 0 := by
  have hprod : (xs.map fun x => Real.tanh (-x / 2)).prod = 0 :=
    List.prod_eq_zero (List.mem_map.mpr ⟨0, h, by simp⟩)
  rw [cnReal, hprod, Real.artanh_zero, mul_zero]

theorem cnReal_perm {xs ys : List ℝ} (h : xs.Perm ys) : cnReal xs = cnReal ys := by
  rw [cnReal, cnReal, (h.map _).prod_eq]

/-- Signs of the inputs come out as the sign of the value. -/
theorem cnReal_map_sign_mul {α : Type} (ρ : α → ℝ) (hρ : ∀ a, ρ a = 1 ∨ ρ a = -1) (b : α → ℝ) (l : List α) :
    cnReal (l.map fun a => ρ a * b a) = (l.map ρ).prod * cnReal (l.map b) := by
  have hfactor (a : α) : Real.tanh (-(ρ a * b a) / 2) = ρ a * Real.tanh (-b a / 2) := by
    obtain h | h := hρ a <;> simp [h, neg_div, Real.tanh_neg]
  have hsign : (l.map ρ).prod = 1 ∨ (l.map ρ).prod = -1 := by
    induction l with
    | nil => simp
    | cons a l ih => obtain h | h := hρ a <;> obtain h' | h' := ih <;> simp [h, h']
  simp only [cnReal, List.map_map, Function.comp_def, hfactor, List.prod_map_mul, artanh_sign_mul hsign]
  ring

/-- R189 (c): the sign of the first input is a factor of the value. -/
theorem cnReal_neg_cons (a : ℝ) (xs : List ℝ) : cnReal (-a :: xs) = -cnReal (a :: xs) := by
  have hfactor : Real.tanh (- -a / 2) = -Real.tanh (-a / 2) := by rw [neg_div, Real.tanh_neg]
  simp only [cnReal, List.map_cons, List.prod_cons, hfactor, neg_mul, artanh_of_neg, mul_neg]

/-- R189 (d): the value with the sign taken out. -/
theorem cnReal_eq_sign_mul (xs : List ℝ) :
    cnReal xs = (-1) ^ (xs.length + 1) * 2 * Real.artanh (xs.map fun x => Real.tanh (x / 2)).prod := by
  have hneg : (xs.map fun x => Real.tanh (-x / 2)) = (xs.map fun x => Real.tanh (x / 2)).map Neg.neg := by
    rw [List.map_map]
    exact List.map_congr_left fun x _ => by rw [neg_div, Real.tanh_neg]; rfl
  rw [cnReal, hneg, List.prod_map_neg, List.length_map, artanh_sign_mul (neg_one_pow_eq_or ℝ _), pow_succ]
  ring

/-- R189 (e): the magnitude of the value comes from the magnitudes of the inputs. -/
theorem abs_cnReal (xs : List ℝ) : |cnReal xs| = 2 * Real.artanh (xs.map fun x => Real.tanh (|x| / 2)).prod := by
  have habs : |(xs.map fun x => Real.tanh (-x / 2)).prod| = (xs.map fun x => Real.tanh (|x| / 2)).prod := by
    simp only [tanh_abs_half]
    exact (map_list_prod absHom _).trans (by rw [List.map_map]; rfl)
  rw [cnReal, abs_mul, abs_artanh, habs, abs_neg, abs_of_pos (two_pos (α := ℝ))]

/-- R189 (e): the value is at most as large as each input: the factors of the others are at most 1. -/
theorem abs_cnReal_le {xs : List ℝ} {x : ℝ} (hx : x ∈ xs) : |cnReal xs| ≤ |x| := by
  rw [cnReal_perm (List.perm_cons_erase hx)]
  have hrest : |((xs.erase x).map fun y => Real.tanh (-y / 2)).prod| ≤ 1 := by
    cases xs.erase x with
    | nil => simp
    | cons y ys => exact (abs_prod_lt_one (List.cons_ne_nil y ys)).le
  have htanh : Real.tanh (|cnReal (x :: xs.erase x)| / 2) ≤ Real.tanh (|x| / 2) := by
    rw [tanh_abs_half, tanh_abs_half, tanh_cnReal (List.cons_ne_nil _ _), List.map_cons, List.prod_cons, abs_mul]
    exact mul_le_of_le_one_right (abs_nonneg _) hrest
  linarith [tanh_le_tanh_iff.mp htanh]

/-- Settles O42: each fact is a lemma above. -/
theorem checkNodeFacts : Obligations.CheckNodeFacts := by
  unfold Obligations.CheckNodeFacts
  exact ⟨cnReal_singleton, fun _ => cnReal_of_zero_mem, fun _ _ => cnReal_perm, cnReal_neg_cons,
    fun xs _ => cnReal_eq_sign_mul xs, fun xs _ => ⟨abs_cnReal xs, fun _ => abs_cnReal_le⟩⟩

end Sys2Proof.Machine
end

section
/-! PROOFS. The iterations of a decode (R173 to R187, R195): what one iteration leaves in DecoderState and which outcome
follows it, from any state in which it begins; the statements about `BP.DEC` read it off at the first step and at a later one. -/

namespace Sys2Proof.Machine

/-! ### What follows the count of step 3 -/

theorem responded_respond {s u : State} (h : u.responses = s.responses) (st : Status) (aux : Imm) (p : Payload) :
    Responded s (u.respond st aux p) st aux p :=
  ⟨rfl, rfl, rfl, by rw [State.respond_responses, h]⟩

section
variable (s : State) (m : Imm)

theorem State.accepted_iff :
    s.accepted = true ↔ s.dec.nunsat = 0 ∧ crcVerify (s.dec.hard.toList.take 91) = true := by
  simp [State.accepted, slice]

theorem State.accepted_eq_false_iff :
    s.accepted = false ↔ ¬ (s.dec.nunsat = 0 ∧ crcVerify (s.dec.hard.toList.take 91) = true) := by
  rw [← State.accepted_iff, Bool.not_eq_true]

theorem State.endsBeforeStep5_iff : EndsBeforeStep5 s.params s.dec ↔
    s.accepted = true ∨ StagPolicy.eval s.params.stag s.dec.hist = true := by
  rw [State.accepted_iff]
  rfl

/-- The messages of step 5 (R182). -/
def State.sentB2C : Vector (Vector HeldNum 3) 174 := bitUpdate s.numerics s.derived s.dec.llr0 s.dec.c2b

/-- The decode ends in step 3 or 4 with `B2C` as it was, or reaches step 5, which writes `B2C` and nothing else. -/
theorem State.afterParity_dec : ∃ b2c, (s.afterParity m).dec = { s.dec with b2c := b2c } ∧
    (EndsBeforeStep5 s.params s.dec → b2c = s.dec.b2c) ∧ (¬ EndsBeforeStep5 s.params s.dec → b2c = s.sentB2C) := by
  rw [s.endsBeforeStep5_iff]
  obtain ⟨ha, h⟩ | ⟨ha, ⟨hs, h⟩ | ⟨hs, ⟨-, h⟩ | ⟨-, ⟨-, -, h⟩ | ⟨-, h⟩⟩⟩⟩ := s.afterParity_cases m
  · exact ⟨s.dec.b2c, by rw [h, State.respond_dec], fun _ => rfl, fun hn => absurd (.inl ha) hn⟩
  · exact ⟨s.dec.b2c, by rw [h, State.raise_dec], fun _ => rfl, fun hn => absurd (.inr hs) hn⟩
  · exact ⟨s.sentB2C, by rw [h]; rfl, by simp [ha, hs], fun _ => rfl⟩
  · exact ⟨s.sentB2C, by rw [h]; rfl, by simp [ha, hs], fun _ => rfl⟩
  · exact ⟨s.sentB2C, by rw [h]; rfl, by simp [ha, hs], fun _ => rfl⟩

/-- R174, R179, R181, R183, R187: success, then stagnation, then the bound, then the abort request. -/
theorem State.afterParity_outcome (hd : s.decoding = true) : IterationOutcome s (s.afterParity m) m := by
  obtain ⟨b2c, hdec, -⟩ := s.afterParity_dec m
  have hacc := s.accepted_iff
  have hrej := s.accepted_eq_false_iff
  unfold IterationOutcome
  rw [hdec]
  obtain ⟨ha, h⟩ | ⟨ha, ⟨hs, h⟩ | ⟨hs, ⟨hm, h⟩ | ⟨hm, ⟨hb, hp, h⟩ | ⟨hp, h⟩⟩⟩⟩ := s.afterParity_cases m
  · rw [if_pos (hacc.mp ha), h]
    exact responded_respond rfl ..
  · rw [if_neg (hrej.mp ha), if_pos hs, h]
    exact responded_respond rfl ..
  · rw [if_neg (hrej.mp ha), if_neg (ne_true_of_eq_false hs), if_pos hm, h]
    exact responded_respond s.bitStep_responses ..
  · rw [if_neg (hrej.mp ha), if_neg (ne_true_of_eq_false hs), if_neg hm.not_ge, if_pos ⟨hb, hp⟩, h]
    exact responded_respond s.bitStep_responses ..
  · have hp : ¬ (s.params.hasAbort = true ∧ s.abortPending = true) := by simpa using hp
    rw [if_neg (hrej.mp ha), if_neg (ne_true_of_eq_false hs), if_neg hm.not_ge, if_neg hp, h]
    simp [hd]

/-- The outcome speaks of these parts of the state before it only. -/
theorem IterationOutcome.of_same {s s' t : State} {m : Imm} (h : IterationOutcome s t m) (hp : s.params = s'.params)
    (ha : s.abortPending = s'.abortPending) (hb : s.busy = s'.busy) (hr : s.responses = s'.responses) :
    IterationOutcome s' t m := by
  unfold IterationOutcome Responded at h ⊢
  rwa [hp, ha, hb, hr] at h

end

/-! ### One iteration -/

theorem State.iteration_eq (u : State) (m : Imm) : u.iteration m = u.counted.afterParity m := rfl

theorem State.counted_params (u : State) : u.counted.params = u.params := by simp [State.counted]

theorem State.iteration_iter (u : State) (m : Imm) : (u.iteration m).dec.iter = u.dec.iter + 1 := by
  obtain ⟨b2c, h, -⟩ := u.counted.afterParity_dec m
  rw [u.iteration_eq, h]
  exact u.counted_dec_iter

/-- R174, R176 to R182: the messages, the trial codeword, the count and the history that an iteration leaves. -/
theorem State.iteration_iterated {u : State} (hg : GraphWF u.params.nm) (htab : TablesBuilt u.params.nm u.derived)
    (m : Imm) : Iterated u.params u.derived u.dec.b2c u.dec.hist (u.iteration m).dec := by
  have hc2b : u.counted.dec.c2b = checkUpdate u.numerics u.params.nm u.derived u.dec.b2c := by simp [State.counted]
  have hhard : u.counted.dec.hard = hardDecision u.numerics u.derived u.counted.dec.llr0 u.counted.dec.c2b := by
    simp [State.counted]
  have hcount : u.counted.dec.nunsat = oddChecks u.params.nm u.counted.dec.hard := by
    rw [← htab.parityCount_eq_oddChecks]
    simp [State.counted]
  have hhist : u.counted.dec.hist = u.dec.hist ++ [u.counted.dec.nunsat] := by simp [State.counted]
  have hb2c : u.counted.dec.b2c = u.dec.b2c := by simp [State.counted]
  have hsentB2C : u.counted.sentB2C = bitUpdate u.numerics u.derived u.counted.dec.llr0 u.counted.dec.c2b := by
    simp [State.sentB2C, State.counted]
  obtain ⟨b2c, h, hkept, hsent⟩ := u.counted.afterParity_dec m
  rw [u.counted_params] at hkept hsent
  rw [u.iteration_eq, h]
  generalize u.counted.dec = d at *
  exact {
    checks := fun hp => hc2b ▸ hp.checksSent u.dec.b2c hg htab
    decided := fun hp => by
      simp only [hhard]
      exact hp.bitsDecided u.derived d.llr0 d.c2b
    count := hcount
    history := hhist
    kept := fun he => (hkept he).trans hb2c
    sent := fun he hp => by
      simp only [hsent he, hsentB2C]
      exact hp.bitsSent u.derived d.llr0 d.c2b }

theorem State.iteration_outcome {u : State} (hd : u.decoding = true) (m : Imm) : IterationOutcome u (u.iteration m) m := by
  refine (u.counted.afterParity_outcome m ?_).of_same ?_ ?_ ?_ ?_ <;> simp [State.counted, hd]

/-! ### The steps of a decode -/

theorem exec_bpDec_running {s : State} (hd : s.decoding = true) (m : Imm) : exec (.bpDec m) s = .next (s.iteration m) :=
  if_pos hd

section
variable {s : State} {llr : List RealNum}

theorem exec_bpDec_start (hi : s.initDone = true) (hd : s.decoding = false) (ho : s.operand = llrItems llr)
    (hl : llr.length = 174) (m : Imm) : exec (.bpDec m) s = .next (s.startDecode m llr) := by
  have hlen : (Instr.bpDec m).lengthOk s.operand.length = true := by simp [Instr.lengthOk, ho, llrItems, hl]
  rw [exec_llrs hd, State.checked_of hi hlen, State.withLlrs_of ho]

theorem State.startDecode_zero (s : State) (llr : List RealNum) :
    s.startDecode 0 llr = (s.initialise llr).raise .maxIterationsExceeded :=
  if_pos rfl

theorem State.startDecode_of_ne {m : Imm} (hm : m ≠ 0) : s.startDecode m llr = (s.initialise llr).iteration m :=
  if_neg hm

/-- R173 to R182: what the first iteration leaves. -/
theorem State.startDecode_iterated (hg : GraphWF s.params.nm) (htab : TablesBuilt s.params.nm s.derived) {m : Imm}
    (hm : m ≠ 0) : Iterated s.params s.derived ((s.startDecode m llr).dec.llr0.map fun l => Vector.replicate 3 l) []
      (s.startDecode m llr).dec := by
  have h := (s.initialise llr).iteration_iterated hg htab m
  rw [State.startDecode_of_ne hm]
  rwa [State.initialise_dec_b2c, ← State.initialise_dec_llr0, initialB2C, ← State.iteration_llr0 _ m,
    State.initialise_params, State.initialise_derived, State.initialise_dec_hist] at h

theorem State.startDecode_outcome {m : Imm} (hm : m ≠ 0) : IterationOutcome s (s.startDecode m llr) m := by
  rw [State.startDecode_of_ne hm]
  refine ((s.initialise llr).iteration_outcome (State.initialise_decoding ..) m).of_same ?_ ?_ ?_ ?_ <;> simp

theorem State.startDecode_iter {m : Imm} (hm : m ≠ 0) : (s.startDecode m llr).dec.iter = 1 := by
  rw [State.startDecode_of_ne hm, State.iteration_iter, State.initialise_dec_iter]

end

/-- Settles O46: the step is one iteration. -/
theorem outcomesOfAnIteration : Obligations.OutcomesOfAnIteration := by
  unfold Obligations.OutcomesOfAnIteration
  intro s m hinv hd
  have hi : s.initDone = true := (hinv.decoding hd).2.1
  exact ⟨_, exec_bpDec_running hd m, s.iteration_iter m, s.iteration_llr0 m,
    State.iteration_iterated (hinv.graphWF hi) (hinv.tablesBuilt hi) m, State.iteration_outcome hd m⟩

/-- Settles O47: the initialisation writes every slot of `B2C` from `LLR0`, and the bound is met at once. -/
theorem zeroIterations : Obligations.ZeroIterations := by
  unfold Obligations.ZeroIterations
  intro s llr hi hd ho hl
  refine ⟨_, exec_bpDec_start hi hd ho hl 0, ?_⟩
  rw [State.startDecode_zero]
  refine ⟨responded_respond (s.initialise_responses llr) .., ?_, ?_, fun n => ?_, fun n k => ?_⟩
  · rw [State.raise_dec, State.initialise_dec_iter]
  · rw [State.raise_dec, State.initialise_dec_hist]
  · simp [State.numerics]
  · simp [initialB2C]

end Sys2Proof.Machine
end

section
/-! PROOFS. The outcomes of an iteration, read from the response it gives: stagnation (R184) and the ranges of the decoder's
counters (R195). -/

namespace Sys2Proof.Machine

/-- What an iteration that gives a response says with it (R179, R181, R183, R187). -/
theorem IterationOutcome.response_cases {s t : State} {m : Imm} {r : Response} (h : IterationOutcome s t m)
    (hr : t.responses = r :: s.responses) :
    (t.dec.nunsat = 0 ∧ crcVerify (t.dec.hard.toList.take 91) = true) ∧
        r = ⟨.ok, BitVec.ofNat 16 t.dec.iter, bitItems t.dec.hard.toList⟩ ∨
      StagPolicy.eval s.params.stag t.dec.hist = true ∧ r = ⟨.nonConvergent, 0, []⟩ ∨
      r = ⟨.maxIterationsExceeded, 0, []⟩ ∨ r = ⟨.aborted, 0, []⟩ := by
  have hresponded {st : Status} {aux : Imm} {p : Payload} (hd : Responded s t st aux p) : r = ⟨st, aux, p⟩ :=
    (List.cons.inj (hr.symm.trans hd.2.2.2)).1
  unfold IterationOutcome at h
  split at h
  next ha => exact .inl ⟨ha, hresponded h⟩
  split at h
  next hs => exact .inr (.inl ⟨hs, hresponded h⟩)
  split at h
  next => exact .inr (.inr (.inl (hresponded h)))
  split at h
  next => exact .inr (.inr (.inr (hresponded h)))
  next => simp [h.1] at hr

/-! ### The stagnation policy (R184) -/

/-- Step k of the last w steps ends at the count number `h.length - w + k`. -/
theorem lastSteps_iff (rel : Nat → Nat → Bool) (w : Nat) (h : List Nat) : lastSteps rel w h = true ↔ w + 1 ≤ h.length ∧
    ∀ i, h.length - w ≤ i → i < h.length → rel (h.getD (i - 1) 0) (h.getD i 0) = true := by
  simp only [lastSteps, Bool.and_eq_true, decide_eq_true_eq, List.all_eq_true, List.mem_range]
  refine and_congr_right fun hlen => ⟨fun hall i hlo hhi => ?_, fun hall k hk => hall _ (by omega) (by omega)⟩
  have hstep := hall (i - (h.length - w)) (by omega)
  rwa [Nat.add_sub_cancel' hlo] at hstep

/-- An operation's answer `NonConvergent` is the policy's: the checks and the bound answer otherwise. -/
theorem eval_of_nonConvergent {s t : State} {m a : Imm} {p : Payload} (h : exec (.bpDec m) s = .next t)
    (hr : t.responses = ⟨.nonConvergent, a, p⟩ :: s.responses) : ∃ hist, StagPolicy.eval s.params.stag hist = true := by
  have houtcome (ho : IterationOutcome s t m) : ∃ hist, StagPolicy.eval s.params.stag hist = true := by
    obtain ⟨-, hc⟩ | ⟨hs, -⟩ | hc | hc := ho.response_cases hr
    · cases hc
    · exact ⟨_, hs⟩
    · cases hc
    · cases hc
  obtain ⟨hd, rfl⟩ | ⟨-, ⟨-, rfl⟩ | ⟨-, ⟨-, rfl⟩ | ⟨llr, -, -, rfl⟩⟩⟩ := execBpDec_next h
  · exact houtcome (State.iteration_outcome hd m)
  · simp at hr
  · simp at hr
  · by_cases hm : m = 0
    · subst hm
      rw [State.startDecode_zero] at hr
      simp at hr
    · exact houtcome (State.startDecode_outcome hm)

/-- Settles O48: both windows are the same statement about the last steps, and `StagNever` gives no ground to answer
`NonConvergent`. -/
theorem stagnationPolicies : Obligations.StagnationPolicies := by
  unfold Obligations.StagnationPolicies
  refine ⟨fun _ => rfl, fun w h _ => ?_, fun w h _ => ?_, fun s t m a p hnever h hr => ?_⟩
  · exact (lastSteps_iff (fun before after => decide (before ≤ after)) w h).trans (by simp only [decide_eq_true_eq])
  · exact (lastSteps_iff (fun before after => decide (before < after)) w h).trans (by simp only [decide_eq_true_eq])
  · obtain ⟨hist, heval⟩ := eval_of_nonConvergent h hr
    rw [hnever] at heval
    cases heval

/-! ### The ranges (R195) -/

theorem oddChecks_eq_parityCount (nm : Vector (List Nat) 83) (hard : Vector Bool 174) :
    oddChecks nm hard = parityCount nm (nm.map List.length) hard.toList :=
  (parityCount_eq_card (by simp) hard.toList).symm

theorem oddChecks_le (nm : Vector (List Nat) 83) (hard : Vector Bool 174) : oddChecks nm hard ≤ 83 :=
  oddChecks_eq_parityCount nm hard ▸ parityCount_le ..

/-- The ranges after an iteration that began with one count of at most 83 for each iteration before it. -/
theorem ranges_of_iterated {s t : State} {m : Imm} {b2c : Vector (Vector HeldNum 3) 174} {hist : List Nat}
    (hit : Iterated s.params s.derived b2c hist t.dec) (ho : IterationOutcome s t m) (hlen : t.dec.iter = hist.length + 1)
    (hcounts : ∀ k ∈ hist, k ≤ 83) (hm : t.dec.iter ≤ m.toNat) :
    t.dec.iter ≤ m.toNat ∧ t.dec.hist.length = t.dec.iter ∧ (∀ k ∈ t.dec.hist, k ≤ 83) ∧ (m ≠ 0 → t.dec.nunsat ≤ 83) ∧
    ∀ (a : Imm) (p : Payload), t.responses = ⟨.ok, a, p⟩ :: s.responses →
      1 ≤ a.toNat ∧ a.toNat = t.dec.iter ∧ a.toNat ≤ m.toNat ∧
      ∃ w : List Bool, p = bitItems w ∧ w.length = 174 ∧
        parityCount s.params.nm (s.params.nm.map List.length) w = 0 ∧ crcVerify (w.take 91) = true := by
  have hlast : t.dec.nunsat ≤ 83 := hit.count ▸ oddChecks_le ..
  refine ⟨hm, by simp [hit.history, hlen], ?_, fun _ => hlast, fun a p hr => ?_⟩
  · simpa [hit.history, or_imp, forall_and] using ⟨hcounts, hlast⟩
  · obtain ⟨⟨hn, hv⟩, hc⟩ | ⟨-, hc⟩ | hc | hc := ho.response_cases hr
    · obtain ⟨-, rfl, rfl⟩ := Response.mk.inj hc
      have haux : (BitVec.ofNat 16 t.dec.iter).toNat = t.dec.iter :=
        BitVec.toNat_ofNat .. ▸ Nat.mod_eq_of_lt (hm.trans_lt m.isLt)
      rw [haux]
      refine ⟨by omega, rfl, hm, _, rfl, Vector.length_toList, ?_, hv⟩
      rw [← oddChecks_eq_parityCount, ← hit.count, hn]
    · cases hc
    · cases hc
    · cases hc

/-- Settles O49: a later iteration begins with the counts of the invariant, the first one with none, and with a bound of 0
none is run. -/
theorem decoderRanges : Obligations.DecoderRanges := by
  unfold Obligations.DecoderRanges
  intro s t m hinv hw hstart h
  obtain ⟨hd, rfl⟩ | ⟨hd, ⟨hi, rfl⟩ | ⟨hi, ⟨hl, rfl⟩ | ⟨llr, -, -, rfl⟩⟩⟩ := execBpDec_next h
  · obtain ⟨-, hi, m', hw', -, hlt⟩ := hinv.decoding hd
    obtain rfl : m' = m := by simpa [hw] using hw'.symm
    exact ranges_of_iterated (State.iteration_iterated (hinv.graphWF hi) (hinv.tablesBuilt hi) m')
      (State.iteration_outcome hd m') (by rw [State.iteration_iter, hinv.history hd]) (hinv.counts hd).1
      (by rw [State.iteration_iter]; exact hlt)
  · obtain hd' | ⟨hi', -⟩ := hstart
    · simp [hd] at hd'
    · simp [hi] at hi'
  · obtain hd' | ⟨-, llr, ho, hlen⟩ := hstart
    · simp [hd] at hd'
    · simp [ho, llrItems, hlen] at hl
  · by_cases hm : m = 0
    · subst hm
      rw [State.startDecode_zero]
      simp
    · have h1 : 1 ≤ m.toNat := Nat.one_le_iff_ne_zero.mpr fun h0 => hm (BitVec.eq_of_toNat_eq h0)
      exact ranges_of_iterated (State.startDecode_iterated (hinv.graphWF hi) (hinv.tablesBuilt hi) hm)
        (State.startDecode_outcome hm) (State.startDecode_iter hm) (by simp) (by rwa [State.startDecode_iter hm])

end Sys2Proof.Machine
end

section
/-! PROOFS. The first iteration in exact reals (R173, R176, R177, R182): what a bit node sums, as a function of the LLRs and
`NM` alone. -/

namespace Sys2Proof.Machine

/-! ### The slots of a bit node (R152) -/

section
variable {nm : Vector (List Nat) 83} {d : Derived} (htab : TablesBuilt nm d)
include htab

theorem TablesBuilt.mn_injective (n : Fin 174) : Function.Injective fun r : Fin 3 => d.mn[n][r] := by
  obtain ⟨h01, h12⟩ := htab.ascending n
  refine StrictMono.injective (Fin.strictMono_iff_lt_succ.mpr fun i => ?_)
  match i with
  | 0 => exact h01
  | 1 => exact h12

/-- A sum over slots of a bit node is one over their check nodes. -/
theorem TablesBuilt.sum_slots (n : Fin 174) (slots : Finset (Fin 3)) (f : Fin 83 → ℝ) :
    ∑ r ∈ slots, f d.mn[n][r] = ∑ c : Fin 83, if ∃ r ∈ slots, d.mn[n][r] = c then f c else 0 := by
  rw [← Finset.sum_filter, ← Finset.sum_image (f := f) (g := fun r : Fin 3 => d.mn[n][r]) (htab.mn_injective n).injOn]
  exact Finset.sum_congr (by ext c; simp) fun _ _ => rfl

/-- All slots of a bit node are its check nodes. -/
theorem TablesBuilt.exists_slot_iff (n : Fin 174) (c : Fin 83) :
    (∃ r ∈ (Finset.univ : Finset (Fin 3)), d.mn[n][r] = c) ↔ n.val ∈ nm[c] := by
  simpa using htab.inverse n c

/-- The slots but one are the other check nodes. -/
theorem TablesBuilt.exists_other_slot_iff (n : Fin 174) (r : Fin 3) (c : Fin 83) :
    (∃ r' ∈ Finset.univ.erase r, d.mn[n][r'] = c) ↔ n.val ∈ nm[c] ∧ c ≠ d.mn[n][r] := by
  rw [← htab.exists_slot_iff n c]
  constructor
  · rintro ⟨r', hr', rfl⟩
    exact ⟨⟨r', Finset.mem_univ _, rfl⟩, fun h => Finset.ne_of_mem_erase hr' (htab.mn_injective n h)⟩
  · rintro ⟨⟨r', -, rfl⟩, hne⟩
    exact ⟨r', Finset.mem_erase.mpr ⟨fun h => hne (h ▸ rfl), Finset.mem_univ _⟩, rfl⟩

end

/-! ### The messages of the first iteration -/

/-- R176: what check node c sends to bit node n where the message of each bit node is its LLR x. -/
noncomputable def firstMessage (nm : Vector (List Nat) 83) (x : ℕ → ℝ) (c : Fin 83) (n : ℕ) : ℝ :=
  cnReal ((nm[c].erase n).map x)

/-- R177: the corrected LLR of bit node n in the first iteration. -/
noncomputable def firstSum (nm : Vector (List Nat) 83) (x : ℕ → ℝ) (n : ℕ) : ℝ :=
  x n + ∑ c : Fin 83, if n ∈ nm[c] then firstMessage nm x c n else 0

section
variable {p : Params} {d : Derived} (hx : p.num = .exact) (hg : GraphWF p.nm) (htab : TablesBuilt p.nm d)
  {llr0 : Vector HeldNum 174} {c2b : Vector (List HeldNum) 83} {x : ℕ → ℝ}
  (hval : ∀ n : Fin 174, p.num.value llr0[n] = x n.val)

include hg hval in
/-- R173: a check node's slot u holds the LLR of its bit node there. -/
theorem GraphWF.toCheck_initial {c : Fin 83} {u : ℕ} (hu : u < p.nm[c].length) :
    toCheck p d (llr0.map fun l => Vector.replicate 3 l) c u = x p.nm[c][u] := by
  have hle : p.nm[c][u] ≤ 173 := hg.range c _ (List.getElem_mem hu)
  have hnode : (bitNode (p.nm[c].getD u 0)).val = p.nm[c][u] := by
    rw [List.getD_eq_getElem _ _ hu]
    exact Nat.mod_eq_of_lt (by omega)
  rw [← hnode, ← hval, toCheck]
  simp

include hx hg htab hval in
/-- R176: slot r of bit node n receives the message of its check node, made from the LLRs of the check's other bits. -/
theorem ChecksSent.toBit_initial (hsent : ChecksSent p d (llr0.map fun l => Vector.replicate 3 l) c2b) (n : Fin 174)
    (r : Fin 3) : toBit p d c2b n r = firstMessage p.nm x d.mn[n][r] n := by
  obtain ⟨hlen, hvalue⟩ := hsent d.mn[n][r]
  obtain ⟨ht, hn⟩ := List.getElem?_eq_some_iff.mp (htab.slotB n r)
  have hsome := List.getElem?_eq_getElem (hlen ▸ ht)
  have hcheck := hvalue _ _ hsome
  simp only [CheckValue, hx] at hcheck
  have hinputs : ((List.range p.nm[d.mn[n][r]].length).map (toCheck p d (llr0.map fun l => Vector.replicate 3 l) d.mn[n][r])) =
      p.nm[d.mn[n][r]].map x :=
    List.ext_getElem (by simp) fun u hu _ => by
      rw [List.getElem_map, List.getElem_map, List.getElem_range]
      exact hg.toCheck_initial hval (by simpa using hu)
  rw [← List.eraseIdx_map, hinputs, List.eraseIdx_map] at hcheck
  have herase := (hg.distinct d.mn[n][r]).erase_getElem _ ht
  rw [hn] at herase
  rw [toBit, List.getD_eq_getElem?_getD, hsome, Option.getD_some, firstMessage, herase, hx]
  exact hcheck

include hx hg htab hval in
/-- R177: the trial codeword of the first iteration. -/
theorem BitsDecided.initial_iff {hard : Vector Bool 174}
    (hsent : ChecksSent p d (llr0.map fun l => Vector.replicate 3 l) c2b)
    (hbits : BitsDecided p d llr0 c2b hard) (n : Fin 174) : hard[n] = true ↔ 0 < firstSum p.nm x n := by
  obtain ⟨y, hy, hiff⟩ := hbits n
  simp only [SumValue, hx] at hy
  rw [hiff, hy, firstSum, ← hx, hval]
  simp only [hsent.toBit_initial hx hg htab hval]
  rw [htab.sum_slots n Finset.univ fun c => firstMessage p.nm x c n]
  simp only [htab.exists_slot_iff]

include hx hg htab hval in
/-- R182: the messages of step 5 in the first iteration. -/
theorem BitsSent.initial_eq {b2c : Vector (Vector HeldNum 3) 174}
    (hsent : ChecksSent p d (llr0.map fun l => Vector.replicate 3 l) c2b)
    (hbits : BitsSent p d llr0 c2b b2c) (n : Fin 174) (r : Fin 3) : p.num.value b2c[n][r] =
      x n + ∑ c : Fin 83, if n.val ∈ p.nm[c] ∧ c ≠ d.mn[n][r] then firstMessage p.nm x c n else 0 := by
  have hsum := hbits n r
  simp only [SumValue, hx] at hsum
  rw [hx, hsum, ← hx, hval]
  simp only [hsent.toBit_initial hx hg htab hval]
  rw [htab.sum_slots n (Finset.univ.erase r) fun c => firstMessage p.nm x c n]
  simp only [htab.exists_other_slot_iff]

end

/-- Settles O45: the first iteration, and in exact reals the numbers of its sums. -/
theorem firstIterationOfADecode : Obligations.FirstIterationOfADecode := by
  unfold Obligations.FirstIterationOfADecode
  intro s m llr hinv hi hd ho hl hm
  have hg := hinv.graphWF hi
  have htab := hinv.tablesBuilt hi
  have hit := State.startDecode_iterated (llr := llr) hg htab hm
  have hllr (n : Fin 174) := s.startDecode_llr0 m llr n
  refine ⟨_, exec_bpDec_start hi hd ho hl m, State.startDecode_iter hm, hllr, hit, State.startDecode_outcome hm, fun hx => ?_⟩
  have hp : NumericsWF s.params := fun k hk => by simp [hx] at hk
  have hval (n : Fin 174) : s.params.num.value (s.startDecode m llr).dec.llr0[n] = llrAt llr n := by
    rw [hllr, State.numerics, hx]
    rfl
  exact ⟨(hit.decided hp).initial_iff hx hg htab hval (hit.checks hp), fun he =>
    (hit.sent he hp).initial_eq hx hg htab hval (hit.checks hp)⟩

end Sys2Proof.Machine
end

section
/-! PROOFS. Decodes that end in their first iteration, in exact reals (R189, R193): the signs of a word that satisfies every
parity equation come out of the sums as factors, so that the sums of the all-zero word decide for every word. -/

namespace Sys2Proof.Machine

/-! ### A trial codeword that is accepted at once -/

section
variable {s : State} {m : Imm} {llr : List RealNum} (hinv : Inv s) (hi : s.initDone = true) (hd : s.decoding = false)
  (hx : s.params.num = .exact) (ho : s.operand = llrItems llr) (hl : llr.length = 174) (hm : m ≠ 0)
include hinv hi hd hx ho hl hm

/-- R177: in exact reals the first trial codeword is given by the signs of the first sums. -/
theorem exec_bpDec_first : ∃ t, exec (.bpDec m) s = .next t ∧ t.dec.iter = 1 ∧
    t.dec.nunsat = oddChecks s.params.nm t.dec.hard ∧ IterationOutcome s t m ∧
    ∀ n : Fin 174, t.dec.hard[n] = true ↔ 0 < firstSum s.params.nm (llrAt llr) n := by
  obtain ⟨t, he, hiter, -, hit, hout, hexact⟩ := firstIterationOfADecode s m llr hinv hi hd ho hl hm
  exact ⟨t, he, hiter, hit.count, hout, (hexact hx).1⟩

/-- R179: where the first sums have the signs of a word that satisfies every equation and verifies, it is the answer. -/
theorem exec_bpDec_accepts {w : List Bool} (hw : w.length = 174)
    (hpar : parityCount s.params.nm (s.params.nm.map List.length) w = 0) (hcrc : crcVerify (w.take 91) = true)
    (hsign : ∀ n : Fin 174, w.getD n false = true ↔ 0 < firstSum s.params.nm (llrAt llr) n) :
    ∃ t, exec (.bpDec m) s = .next t ∧ Responded s t .ok 1 (bitItems w) := by
  obtain ⟨t, he, hiter, hcount, hout, hbits⟩ := exec_bpDec_first hinv hi hd hx ho hl hm
  have hhard : t.dec.hard.toList = w := List.ext_getElem (by simp [hw]) fun n hn hn' => by
    have hn174 : n < 174 := hw ▸ hn'
    have hbit : (t.dec.hard[(⟨n, hn174⟩ : Fin 174)] : Bool) = w.getD n false :=
      Bool.eq_iff_iff.mpr ((hbits ⟨n, hn174⟩).trans (hsign ⟨n, hn174⟩).symm)
    rw [Vector.getElem_toList, ← List.getD_eq_getElem w false hn', ← hbit]
    rfl
  refine ⟨t, he, ?_⟩
  have hzero : t.dec.nunsat = 0 := by rw [hcount, oddChecks_eq_parityCount, hhard, hpar]
  unfold IterationOutcome at hout
  rwa [hhard, hiter, if_pos ⟨hzero, hcrc⟩] at hout

end

/-! ### The first sums -/

section
variable {nm : Vector (List Nat) 83}

theorem firstSum_eq_filter (x : ℕ → ℝ) (n : ℕ) :
    firstSum nm x n = x n + ∑ c : Fin 83 with n ∈ nm[c], firstMessage nm x c n := by
  rw [firstSum, Finset.sum_filter]

theorem GraphWF.firstMessage_congr (hg : GraphWF nm) {x y : ℕ → ℝ} (h : ∀ n < 174, x n = y n) (c : Fin 83) (n : ℕ) :
    firstMessage nm x c n = firstMessage nm y c n := by
  rw [firstMessage, firstMessage]
  exact congrArg cnReal (List.map_congr_left fun i hi => h i (Nat.lt_succ_of_le (hg.range c i (List.mem_of_mem_erase hi))))

theorem GraphWF.firstSum_congr (hg : GraphWF nm) {x y : ℕ → ℝ} (h : ∀ n < 174, x n = y n) (n : Fin 174) :
    firstSum nm x n = firstSum nm y n := by
  rw [firstSum, firstSum, h n n.isLt]
  simp only [hg.firstMessage_congr h]

theorem GraphWF.card_checks (hg : GraphWF nm) (n : Fin 174) : (Finset.univ.filter fun c : Fin 83 => n.val ∈ nm[c]).card = 3 :=
  (card_checkNodes_eq_length n).trans (hg.threeChecks n)

/-- Three messages of at most B. -/
theorem GraphWF.firstSum_le (hg : GraphWF nm) {x : ℕ → ℝ} {n : Fin 174} {B : ℝ}
    (hB : ∀ c : Fin 83, n.val ∈ nm[c] → firstMessage nm x c n ≤ B) : firstSum nm x n ≤ x n + 3 * B := by
  have hsum := Finset.sum_le_card_nsmul (Finset.univ.filter fun c : Fin 83 => n.val ∈ nm[c]) (firstMessage nm x · n) B
    fun c hc => hB c (Finset.mem_filter.mp hc).2
  rw [hg.card_checks, nsmul_eq_mul, Nat.cast_ofNat] at hsum
  rw [firstSum_eq_filter]
  linarith

/-! ### The signs of a word -/

/-- The sign by which an LLR of magnitude -x stands for the bit: -1 for a one, 1 for a zero. -/
def bitSign (b : Bool) : ℝ := if b = true then -1 else 1

theorem bitSign_cases (b : Bool) : bitSign b = 1 ∨ bitSign b = -1 := by
  cases b <;> simp [bitSign]

theorem bitSign_mul_self (b : Bool) : bitSign b * bitSign b = 1 := by
  cases b <;> simp [bitSign]

theorem bitSign_xor (a b : Bool) : bitSign (a ^^ b) = bitSign a * bitSign b := by
  cases a <;> cases b <;> simp [bitSign]

theorem bitSign_foldl_xor : ∀ (bs : List Bool) (a : Bool), bitSign (bs.foldl Bool.xor a) = bitSign a * (bs.map bitSign).prod
  | [], a => by simp
  | b :: bs, a => by
    rw [List.foldl_cons, bitSign_foldl_xor bs, bitSign_xor, List.map_cons, List.prod_cons, mul_assoc]

/-- The sign of an exclusive or is the product of the signs. -/
theorem bitSign_xorAll (bs : List Bool) : bitSign (xorAll bs) = (bs.map bitSign).prod :=
  (bitSign_foldl_xor bs false).trans (by simp [bitSign])

variable {w : List Bool} (hpar : parityCount nm (nm.map List.length) w = 0)
include hpar

/-- In a word that satisfies the equation of check node c, the signs of its other bits multiply to that of bit n. -/
theorem prod_bitSign_erase {c : Fin 83} {n : ℕ} (hn : n ∈ nm[c]) :
    ((nm[c].erase n).map fun i => bitSign (w.getD i false)).prod = bitSign (w.getD n false) := by
  have hall : (nm[c].map fun i => bitSign (w.getD i false)).prod = 1 := by
    have h := bitSign_xorAll (nm[c].map fun i => w.getD i false)
    rw [← unsatisfied_eq_xorAll (deg := nm.map List.length) (by simp), parityCount_eq_zero_iff.mp hpar c,
      List.map_map] at h
    exact h.symm.trans (by simp [bitSign])
  rw [((List.perm_cons_erase hn).map _).prod_eq, List.map_cons, List.prod_cons] at hall
  calc _ = bitSign (w.getD n false) * (bitSign (w.getD n false) *
        ((nm[c].erase n).map fun i => bitSign (w.getD i false)).prod) := by
        rw [← mul_assoc, bitSign_mul_self, one_mul]
    _ = bitSign (w.getD n false) := by rw [hall, mul_one]

/-- The sums with the signs of such a word are the sums without them, each with the sign of its bit. -/
theorem firstSum_bitSign_mul (b : ℕ → ℝ) (n : ℕ) :
    firstSum nm (fun i => bitSign (w.getD i false) * b i) n = bitSign (w.getD n false) * firstSum nm b n := by
  rw [firstSum_eq_filter, firstSum_eq_filter, mul_add, Finset.mul_sum]
  congr 1
  refine Finset.sum_congr rfl fun c hc => ?_
  rw [firstMessage, firstMessage, ← prod_bitSign_erase hpar (Finset.mem_filter.mp hc).2]
  exact cnReal_map_sign_mul (fun i => bitSign (w.getD i false)) (fun _ => bitSign_cases _) b _

end

/-- R193: where the sums without the signs of a word are all less than 0, the word is the answer. -/
theorem exec_bpDec_accepts_signed {s : State} {m : Imm} {llr : List RealNum} (hinv : Inv s) (hi : s.initDone = true)
    (hd : s.decoding = false) (hx : s.params.num = .exact) (ho : s.operand = llrItems llr) (hl : llr.length = 174)
    (hm : m ≠ 0) {w : List Bool} (hw : w.length = 174)
    (hpar : parityCount s.params.nm (s.params.nm.map List.length) w = 0) (hcrc : crcVerify (w.take 91) = true)
    {b : ℕ → ℝ} (hllr : ∀ n < 174, llrAt llr n = bitSign (w.getD n false) * b n)
    (hneg : ∀ n : Fin 174, firstSum s.params.nm b n < 0) :
    ∃ t, exec (.bpDec m) s = .next t ∧ Responded s t .ok 1 (bitItems w) := by
  refine exec_bpDec_accepts hinv hi hd hx ho hl hm hw hpar hcrc fun n => ?_
  rw [(hinv.graphWF hi).firstSum_congr hllr, firstSum_bitSign_mul hpar]
  have hn := hneg n
  cases w.getD n false <;> simp [bitSign, hn, hn.le]

/-! ### The all-zero word -/

theorem crcVerify_zeros : crcVerify ((List.replicate 174 false).take 91) = true := by
  have hcrc : crc14 (List.replicate 77 false) = 0 := crcIsLinear.2.1
  have hmessage : slice 0 77 ((List.replicate 174 false).take 91) = List.replicate 77 false := by simp [slice]
  have hcheck : slice 77 91 ((List.replicate 174 false).take 91) = List.replicate 14 false := by simp [slice]
  rw [crcVerify, hmessage, hcheck, hcrc]
  decide

/-! ### Inputs of one magnitude -/

/-- The magnitude of a message made from k inputs of magnitude L (R189 (e)). -/
noncomputable def strength (k : ℕ) (L : ℝ) : ℝ := 2 * Real.artanh (Real.tanh (L / 2) ^ k)

theorem cnReal_replicate_neg (k : ℕ) (L : ℝ) : cnReal (List.replicate k (-L)) = -strength k L := by
  rw [cnReal, List.map_replicate, List.prod_replicate, neg_neg, strength]
  ring

theorem cnReal_replicate (k : ℕ) (L : ℝ) : cnReal (List.replicate k L) = (-1) ^ (k + 1) * strength k L := by
  rw [cnReal_eq_sign_mul, List.length_replicate, List.map_replicate, List.prod_replicate, strength]
  ring

section
variable {L : ℝ} (hL : 0 < L)
include hL

theorem tanh_half_pow_mem {k : ℕ} (hk : k ≠ 0) : Real.tanh (L / 2) ^ k ∈ Set.Ioo (0 : ℝ) 1 := by
  have h0 := tanh_pos (half_pos hL)
  exact ⟨pow_pos h0 k, pow_lt_one₀ h0.le (Real.tanh_lt_one _) hk⟩

theorem strength_pos {k : ℕ} (hk : k ≠ 0) : 0 < strength k L :=
  mul_pos two_pos (Real.artanh_pos (tanh_half_pow_mem hL hk))

/-- One more input weakens the message. -/
theorem strength_succ_lt {k : ℕ} (hk : k ≠ 0) : strength (k + 1) L < strength k L := by
  have h0 := tanh_half_pow_mem hL (Nat.succ_ne_zero k)
  have h1 := tanh_half_pow_mem hL hk
  have hlt : Real.tanh (L / 2) ^ (k + 1) < Real.tanh (L / 2) ^ k := by
    rw [pow_succ]
    exact mul_lt_of_lt_one_right h1.1 (Real.tanh_lt_one _)
  have h := Real.artanh_lt_artanh (neg_one_lt_zero.trans h0.1) h1.2 hlt
  unfold strength
  linarith

end

section
variable {nm : Vector (List Nat) 83} (hg : GraphWF nm)
include hg

theorem GraphWF.length_erase {c : Fin 83} {n : ℕ} (hn : n ∈ nm[c]) :
    (nm[c].erase n).length = 5 ∧ nm[c].length = 6 ∨ (nm[c].erase n).length = 6 ∧ nm[c].length = 7 := by
  have hdeg := hg.degree c
  rw [List.length_erase_of_mem hn]
  omega

/-- A message made from LLRs that are all -L, of 5 or 6 other bits. -/
theorem GraphWF.firstMessage_le_of_all_neg {L : ℝ} (hL : 0 < L) {x : ℕ → ℝ} {c : Fin 83} {n : ℕ} (hn : n ∈ nm[c])
    (hall : ∀ i ∈ nm[c].erase n, x i = -L) : firstMessage nm x c n ≤ -strength 6 L := by
  rw [firstMessage, List.map_eq_replicate_iff.mpr hall, cnReal_replicate_neg]
  obtain ⟨h, -⟩ | ⟨h, -⟩ := hg.length_erase hn
  · rw [h]
    linarith [strength_succ_lt hL (k := 5) (by decide)]
  · rw [h]

theorem GraphWF.firstSum_neg_of_all_neg {L : ℝ} (hL : 0 < L) (n : Fin 174) : firstSum nm (fun _ => -L) n < 0 := by
  have h := hg.firstSum_le (x := fun _ => -L) (n := n) (B := -strength 6 L) fun c hc =>
    hg.firstMessage_le_of_all_neg hL hc fun _ _ => rfl
  linarith [strength_pos hL (k := 6) (by decide)]

end

/-- Settles O53: without the signs of the codeword every LLR is -L, and so every sum is less than 0. -/
theorem strongCodewordsDecodeAtOnce : Obligations.StrongCodewordsDecodeAtOnce := by
  unfold Obligations.StrongCodewordsDecodeAtOnce
  intro s m info L llr hinv hi hd hx ht hlen hcrc hL hm ho ⟨hl, hllr⟩
  have hinfo : (ldpcEncode s.params.gen info).take 91 = info := by
    rw [ldpcEncode, ← hlen, List.take_left]
  obtain ⟨t, he, hr⟩ := exec_bpDec_accepts_signed hinv hi hd hx ho hl hm (ldpcEncode_length _ hlen)
    (ht.parityCount_ldpcEncode _ (by simp) hlen) (hinfo.symm ▸ hcrc) (b := fun _ => -L)
    (fun n hn => by rw [hllr n hn, bitSign]; split <;> simp) ((hinv.graphWF hi).firstSum_neg_of_all_neg hL)
  exact ⟨t, he, hr, hinfo⟩

/-- Settles O51: a check-node value of zeros is 0, so no bit of the trial codeword is 1. -/
theorem allZeroLlrsGiveTheZeroCodeword : Obligations.AllZeroLlrsGiveTheZeroCodeword := by
  unfold Obligations.AllZeroLlrsGiveTheZeroCodeword
  intro s m llr hinv hi hd hx ho ⟨hl, hllr⟩ hm
  have hg := hinv.graphWF hi
  refine exec_bpDec_accepts hinv hi hd hx ho hl hm List.length_replicate (parityCount_zeros 174) crcVerify_zeros fun n => ?_
  have hzero : firstSum s.params.nm (fun _ => 0) n = 0 := by
    rw [firstSum_eq_filter, zero_add]
    refine Finset.sum_eq_zero fun c hc => cnReal_of_zero_mem ?_
    have hlen := hg.length_erase (Finset.mem_filter.mp hc).2
    rw [List.map_const']
    exact List.mem_replicate.mpr ⟨by omega, rfl⟩
  rw [hg.firstSum_congr hllr, hzero, zeros_getD]
  simp

end Sys2Proof.Machine
end

section
/-! PROOFS. The scenarios of R193 (b) and (c) in exact reals: inputs that are all of one sign, and two weak errors. -/

namespace Sys2Proof.Machine

/-! ### All LLRs of one sign (R193 (b)) -/

/-- Three messages of six inputs of 10 outweigh an LLR of 10. -/
theorem ten_le_three_strength : 10 ≤ 3 * strength 6 10 := by
  have h53 := tanh_half (-(10 / 3))
  have h5 := tanh_half (-10)
  have hcube : Real.exp (-10) = Real.exp (-(10 / 3)) ^ 3 := by rw [← Real.exp_nat_mul]; norm_num
  rw [neg_neg] at h53 h5
  rw [hcube] at h5
  have hq0 := Real.exp_pos (-(10 / 3))
  have hq : Real.exp (-(10 / 3)) ≤ 1 / 4 := by
    rw [Real.exp_neg, inv_eq_one_div]
    exact one_div_le_one_div_of_le (by norm_num) (by linarith [Real.add_one_le_exp (10 / 3 : ℝ)])
  generalize Real.exp (-(10 / 3)) = q at h53 h5 hq0 hq
  have hpow : Real.tanh (10 / 3 / 2) ≤ Real.tanh (10 / 2) ^ 6 := by
    have hdist : 1 - 2 * q ^ 3 ≤ Real.tanh (10 / 2) := by
      rw [h5, le_div_iff₀ (by positivity)]
      nlinarith [pow_pos hq0 3]
    have hsmall : q ^ 3 ≤ q * (1 / 4) ^ 2 := by
      rw [pow_succ']
      exact mul_le_mul_of_nonneg_left (pow_le_pow_left₀ hq0.le hq 2) hq0.le
    have hbernoulli := one_add_mul_le_pow (a := -(2 * q ^ 3)) (by linarith) 6
    calc Real.tanh (10 / 3 / 2) ≤ 1 - 12 * q ^ 3 := by
          rw [h53, div_le_iff₀ (by linarith)]
          nlinarith
      _ ≤ (1 - 2 * q ^ 3) ^ 6 := by
          rw [sub_eq_add_neg]
          push_cast at hbernoulli
          linarith
      _ ≤ Real.tanh (10 / 2) ^ 6 := pow_le_pow_left₀ (by linarith) hdist 6
  have hartanh := Real.artanh_le_artanh (Real.neg_one_lt_tanh _)
    (tanh_half_pow_mem (L := 10) (by norm_num) (k := 6) (by decide)).2 hpow
  rw [Real.artanh_tanh] at hartanh
  unfold strength
  linarith

theorem strength_ten_le : strength 6 10 ≤ 10 := by
  have h := abs_cnReal_le (xs := List.replicate 6 (-10)) (x := -10) (by simp)
  rw [cnReal_replicate_neg, abs_neg, abs_neg] at h
  exact (le_abs_self _).trans (h.trans_eq (by norm_num))

section
variable {nm : Vector (List Nat) 83} (hg : GraphWF nm)
include hg

/-- With all LLRs +10 a check node of degree 7 votes for 0, one of degree 6 for 1. -/
theorem GraphWF.firstMessage_ten {c : Fin 83} {n : ℕ} (hn : n ∈ nm[c]) :
    nm[c].length = 6 ∧ firstMessage nm (fun _ => 10) c n = strength 5 10 ∨
      nm[c].length = 7 ∧ firstMessage nm (fun _ => 10) c n = -strength 6 10 := by
  rw [firstMessage, List.map_const', cnReal_replicate]
  obtain ⟨h, hdeg⟩ | ⟨h, hdeg⟩ := hg.length_erase hn
  · exact .inl ⟨hdeg, by rw [h]; norm_num⟩
  · exact .inr ⟨hdeg, by rw [h]; norm_num⟩

/-- One check node of degree 6 turns the sum positive; three of degree 7 turn it negative. -/
theorem GraphWF.firstSum_ten_pos_iff (n : Fin 174) :
    0 < firstSum nm (fun _ => 10) n ↔ ∃ c : Fin 83, n.val ∈ nm[c] ∧ nm[c].length = 6 := by
  have h5 := strength_pos (L := 10) (by norm_num) (k := 5) (by decide)
  have h6 := strength_pos (L := 10) (by norm_num) (k := 6) (by decide)
  have h65 : strength 6 10 < strength 5 10 := strength_succ_lt (by norm_num) (by decide)
  constructor
  · intro hpos
    by_contra! hno
    have hle := hg.firstSum_le (x := fun _ => 10) (n := n) (B := -strength 6 10) fun c hc => by
      obtain ⟨hdeg, -⟩ | ⟨-, h⟩ := hg.firstMessage_ten hc
      · exact absurd hdeg (hno c hc)
      · exact h.le
    linarith [ten_le_three_strength]
  · rintro ⟨c, hc, hdeg⟩
    have hmsg : firstMessage nm (fun _ => 10) c n = strength 5 10 := by
      obtain ⟨-, h⟩ | ⟨h7, -⟩ := hg.firstMessage_ten hc
      · exact h
      · omega
    have hmem : c ∈ Finset.univ.filter fun c : Fin 83 => n.val ∈ nm[c] := by simpa using hc
    have hothers := Finset.card_nsmul_le_sum ((Finset.univ.filter fun c : Fin 83 => n.val ∈ nm[c]).erase c)
      (firstMessage nm (fun _ => 10) · n) (-strength 6 10) fun c' hc' => by
        obtain ⟨-, h⟩ | ⟨-, h⟩ := hg.firstMessage_ten (Finset.mem_filter.mp (Finset.mem_of_mem_erase hc')).2
        · linarith
        · exact h.ge
    rw [Finset.card_erase_of_mem hmem, hg.card_checks, two_nsmul] at hothers
    rw [firstSum_eq_filter, ← Finset.add_sum_erase _ _ hmem, hmsg]
    linarith [strength_ten_le]

/-- R159: there is a check node of degree 6, and it has a bit node. -/
theorem GraphWF.exists_degree_six : ∃ (c : Fin 83) (n : Fin 174), n.val ∈ nm[c] ∧ nm[c].length = 6 := by
  have hcount : 0 < (List.finRange 83).countP fun c => nm[c].length == 6 := by
    rw [hg.countP_degree_six]
    decide
  obtain ⟨c, -, hc⟩ := List.countP_pos_iff.mp hcount
  have h6 : nm[c].length = 6 := by simpa using hc
  have hmem : nm[c][0] ∈ nm[c] := List.getElem_mem (by omega)
  exact ⟨c, ⟨nm[c][0], Nat.lt_succ_of_le (hg.range c _ hmem)⟩, hmem, h6⟩

end

/-- Settles O52: for -10 every sum is negative; for +10 a sum is positive where a check node has degree 6, and there is one. -/
theorem allZeroScenario : Obligations.AllZeroScenario := by
  unfold Obligations.AllZeroScenario
  intro s m llr hinv hi hd hx ho hm
  have hg := hinv.graphWF hi
  refine ⟨fun ⟨hl, hllr⟩ => ?_, fun ⟨hl, hllr⟩ => ?_⟩
  · refine exec_bpDec_accepts_signed hinv hi hd hx ho hl hm List.length_replicate (parityCount_zeros 174) crcVerify_zeros
      (b := fun _ => -10) (fun n hn => ?_) (hg.firstSum_neg_of_all_neg (by norm_num))
    rw [hllr n hn, zeros_getD, bitSign]
    simp
  · obtain ⟨t, he, -, -, hout, hbits⟩ := exec_bpDec_first hinv hi hd hx ho hl hm
    have hone (n : Fin 174) : t.dec.hard[n] = true ↔ ∃ c : Fin 83, n.val ∈ s.params.nm[c] ∧ s.params.nm[c].length = 6 := by
      rw [hbits, hg.firstSum_congr hllr, hg.firstSum_ten_pos_iff]
    have hne : t.dec.hard ≠ Vector.replicate 174 false := fun hzero => by
      obtain ⟨c, n, hmem, h6⟩ := hg.exists_degree_six
      have htrue := (hone n).mpr ⟨c, hmem, h6⟩
      simp [hzero] at htrue
    refine ⟨t, he, fun n => ?_, hne, fun a hr => ?_⟩
    · rw [← Bool.not_eq_true, hone, not_exists]
      refine forall_congr' fun c => ?_
      have hdeg := hg.degree c
      constructor
      · intro h hc
        exact hdeg.resolve_left fun h6 => h ⟨hc, h6⟩
      · rintro h ⟨hc, h6⟩
        have h7 := h hc
        omega
    · obtain ⟨-, hc⟩ | ⟨-, hc⟩ | hc | hc := hout.response_cases hr
      · have hword : List.replicate 174 false = t.dec.hard.toList := by
          simpa using congrArg bitsOf (Response.mk.inj hc).2.2
        exact hne (Vector.toList_inj.mp (hword.symm.trans Vector.toList_replicate.symm))
      · cases hc
      · cases hc
      · cases hc

/-! ### Two weak errors (R193 (c)) -/

/-- The LLRs of R193 (c) without the signs of the word: e at the two positions p and q, -L at the others. -/
def twoErrors (L e : ℝ) (p q i : ℕ) : ℝ := if i = p ∨ i = q then e else -L

theorem twoErrors_comm (L e : ℝ) (p q : ℕ) : twoErrors L e p q = twoErrors L e q p := by
  funext i
  simp only [twoErrors, or_comm]

theorem twoErrors_left (L e : ℝ) (p q : ℕ) : twoErrors L e p q p = e := if_pos (.inl rfl)

theorem twoErrors_right (L e : ℝ) (p q : ℕ) : twoErrors L e p q q = e := if_pos (.inr rfl)

section
variable {nm : Vector (List Nat) 83} (hg : GraphWF nm) {L e : ℝ} (hL : 0 < L) (he : 0 ≤ e) {p q : ℕ}

include he in
/-- A message made from an input of magnitude e is at most e. -/
theorem firstMessage_le_of_weak {x : ℕ → ℝ} {c : Fin 83} {n i : ℕ} (hi : i ∈ nm[c].erase n) (hx : x i = e) :
    firstMessage nm x c n ≤ e := by
  have h := abs_cnReal_le (List.mem_map_of_mem (f := x) hi)
  rw [hx, abs_of_nonneg he] at h
  exact (le_abs_self _).trans h

include hg hL he in
/-- No check node counts for more than e against a bit. -/
theorem GraphWF.firstMessage_twoErrors_le {c : Fin 83} {n : ℕ} (hn : n ∈ nm[c]) :
    firstMessage nm (twoErrors L e p q) c n ≤ e := by
  by_cases hweak : ∃ i ∈ nm[c].erase n, i = p ∨ i = q
  · obtain ⟨i, hi, hpq⟩ := hweak
    exact firstMessage_le_of_weak he hi (if_pos hpq)
  · have hall (i) (hi : i ∈ nm[c].erase n) : twoErrors L e p q i = -L := if_neg fun hpq => hweak ⟨i, hi, hpq⟩
    linarith [hg.firstMessage_le_of_all_neg hL hn hall, strength_pos hL (k := 6) (by decide)]

include hg hL he in
/-- A check node that has p without q sees the right sign at all its other bits. -/
theorem GraphWF.firstMessage_twoErrors_left_le (hpq : p ≠ q) {c : Fin 83} (hp : p ∈ nm[c]) :
    firstMessage nm (twoErrors L e p q) c p ≤ if q ∈ nm[c] then e else -strength 6 L := by
  split
  next hq => exact firstMessage_le_of_weak he ((List.mem_erase_of_ne hpq.symm).mpr hq) (twoErrors_right L e p q)
  next hq =>
    refine hg.firstMessage_le_of_all_neg hL hp fun i hi => if_neg ?_
    obtain ⟨hip, hic⟩ := (hg.distinct c).mem_erase_iff.mp hi
    rintro (rfl | rfl)
    · exact hip rfl
    · exact hq hic

/-- The number of check nodes that have both positions. -/
def sharedChecks (nm : Vector (List Nat) 83) (p q : ℕ) : ℕ :=
  (Finset.univ.filter fun c : Fin 83 => p ∈ nm[c] ∧ q ∈ nm[c]).card

theorem sharedChecks_comm (p q : ℕ) : sharedChecks nm p q = sharedChecks nm q p := by
  simp only [sharedChecks, and_comm]

theorem sharedChecks_eq_countP (p q : ℕ) :
    (List.finRange 83).countP (fun c => nm[c].contains p && nm[c].contains q) = sharedChecks nm p q := by
  rw [sharedChecks, card_filter_univ_eq_countP]
  exact List.countP_congr fun c _ => by simp

include hg hL he in
/-- At a wrong position the check nodes with both errors count e against the bit, the others `strength 6 L` for it. -/
theorem GraphWF.firstSum_twoErrors_left_le (hpq : p ≠ q) (hp : p < 174) : firstSum nm (twoErrors L e p q) p ≤
    (1 + (sharedChecks nm p q : ℝ)) * e - (3 - (sharedChecks nm p q : ℝ)) * strength 6 L := by
  have hsum := Finset.sum_le_sum fun (c : Fin 83) (hc : c ∈ Finset.univ.filter fun c : Fin 83 => p ∈ nm[c]) =>
    hg.firstMessage_twoErrors_left_le hL he hpq (Finset.mem_filter.mp hc).2
  have hsplit := Finset.card_filter_add_card_filter_not (s := Finset.univ.filter fun c : Fin 83 => p ∈ nm[c])
    (fun c => q ∈ nm[c])
  rw [hg.card_checks ⟨p, hp⟩, Finset.filter_filter] at hsplit
  have hrest : ((({c ∈ {c : Fin 83 | p ∈ nm[c]} | ¬ q ∈ nm[c]} : Finset (Fin 83)).card : ℕ) : ℝ) =
      3 - (sharedChecks nm p q : ℝ) := by
    rw [eq_sub_iff_add_eq']
    exact_mod_cast hsplit
  rw [Finset.sum_ite, Finset.sum_const, Finset.sum_const, nsmul_eq_mul, nsmul_eq_mul, hrest, Finset.filter_filter] at hsum
  rw [firstSum_eq_filter, twoErrors_left]
  change _ ≤ (sharedChecks nm p q : ℝ) * e + _ at hsum
  linarith

include hg hL he in
/-- R193 (c): under its conditions every sum has the right sign. -/
theorem GraphWF.firstSum_twoErrors_neg (hweak : 3 * e < L) (hpq : p ≠ q) (hp : p < 174) (hq : q < 174)
    (hu : (1 + (sharedChecks nm p q : ℝ)) * e < (3 - (sharedChecks nm p q : ℝ)) * strength 6 L) (n : Fin 174) :
    firstSum nm (twoErrors L e p q) n < 0 := by
  by_cases hnp : n.val = p
  · rw [hnp]
    linarith [hg.firstSum_twoErrors_left_le hL he hpq hp]
  by_cases hnq : n.val = q
  · have h := hg.firstSum_twoErrors_left_le hL he hpq.symm hq
    rw [hnq, twoErrors_comm]
    rw [sharedChecks_comm] at h
    linarith
  · have h := hg.firstSum_le (x := twoErrors L e p q) (n := n) (B := e) fun c hc => hg.firstMessage_twoErrors_le hL he hc
    have hn : twoErrors L e p q n = -L := if_neg (by simp [hnp, hnq])
    linarith

end

/-- Settles O54: without the signs of the word the sums are those of two weak errors in the all-zero word. -/
theorem twoWeakErrorsAreCorrected : Obligations.TwoWeakErrorsAreCorrected := by
  unfold Obligations.TwoWeakErrorsAreCorrected
  intro s m w L e p q llr hinv hi hd hx hw hpar hcrc hm hp hq hpq he hweak hu ho ⟨hl, hllr⟩
  simp only [sharedChecks_eq_countP] at hu
  refine exec_bpDec_accepts_signed hinv hi hd hx ho hl hm hw hpar hcrc (b := twoErrors L e p q) (fun n hn => ?_)
    ((hinv.graphWF hi).firstSum_twoErrors_neg (by linarith) he hweak hpq hp hq hu)
  rw [hllr n hn, bitSign, twoErrors]
  split <;> split <;> simp

end Sys2Proof.Machine
end

section
/-! PROOFS. Every decode ends (R188): each step of CORE uses up an iteration or answers, each abort request is an event used
up, and a turn given or a command that waits takes no step of its own. -/

namespace Sys2Proof.Machine

/-- A `BP.DEC` with the bound m on finite LLRs is in execution, below its bound, and no reset is to come. -/
structure State.Pending (s : State) (m : Imm) : Prop where
  busy : s.busy = true
  noReset : .reset ∉ s.inputs
  word : decode s.cmdWord = .ok (.bpDec m)
  operand : ∃ llr, s.operand = llrItems llr
  below : s.decoding = true → s.dec.iter < m.toNat

/-- Between s and t the command in execution got its one response. -/
def State.EndedIn (s t : State) : Prop := t.busy = false ∧ ∃ r, t.responses = r :: s.responses

/-- How many steps of CORE a decode with the bound m can still take (R188). -/
def State.iterationsLeft (s : State) (m : Imm) : ℕ := if s.decoding = true then m.toNat - s.dec.iter else max 1 m.toNat

/-- How many steps it can still take, those of abort requests counted (R188). -/
def State.stepsLeft (s : State) (m : Imm) : ℕ := s.iterationsLeft m + s.inputs.count .abort

section
variable {s : State} {m : Imm}

theorem State.Pending.iterationsLeft_pos (h : s.Pending m) : 0 < s.iterationsLeft m := by
  have hbelow := h.below
  unfold State.iterationsLeft
  split
  next hd => exact Nat.sub_pos_of_lt (hbelow hd)
  next => exact Nat.lt_of_lt_of_le Nat.one_pos (le_max_left ..)

/-- A decode that goes on is still pending. -/
theorem State.Pending.goesOn (h : s.Pending m) {d : Decoder} (hd : d.iter < m.toNat) :
    ({ s with dec := d, decoding := true } : State).Pending m :=
  ⟨h.busy, h.noReset, h.word, h.operand, fun _ => hd⟩

/-- Events before CORE's turn leave the decode pending. -/
theorem State.Pending.withInputs (h : s.Pending m) {rest : List HostEvent} (hr : .reset ∉ rest) :
    ({ s with inputs := rest } : State).Pending m :=
  ⟨h.busy, hr, h.word, h.operand, h.below⟩

theorem State.Pending.raiseAbort (h : s.Pending m) : s.raiseAbort.Pending m :=
  ⟨h.busy, h.noReset, h.word, h.operand, h.below⟩

/-- Between s and t CORE took a step of a pending decode: it answered, or it used up one of the iterations left. -/
def State.AdvancesTo (s : State) (m : Imm) (t : State) : Prop :=
  s.EndedIn t ∨ t.Pending m ∧ t.responses = s.responses ∧ t.inputs = s.inputs ∧ t.iterationsLeft m < s.iterationsLeft m

/-- An iteration from u, a state of the decode of s, is an advance. -/
theorem State.Pending.iteration (h : s.Pending m) {u : State} (hu : u = { s with dec := u.dec, decoding := true })
    (hleft : m.toNat - u.dec.iter ≤ s.iterationsLeft m) : s.AdvancesTo m (u.iteration m) := by
  obtain ⟨t, st, aux, p, ⟨d, rfl⟩, hend⟩ | ⟨hm, hgoes⟩ := u.iteration_cases m
  · rw [hend, hu]
    exact .inl ⟨rfl, _, rfl⟩
  · obtain ⟨d, hd⟩ := u.decWritten_continued
    have hiter : d.iter = u.dec.iter + 1 := by rw [← u.continued_dec_iter, hd]
    rw [hgoes, hd, hu]
    refine .inr ⟨h.goesOn (hiter ▸ hm), rfl, rfl, ?_⟩
    rw [State.iterationsLeft, if_pos rfl]
    change m.toNat - d.iter < _
    omega

/-- The first step of a decode: a fault of the checks, the end at a bound of 0, or the first iteration. -/
theorem State.Pending.start (h : s.Pending m) (hd : s.decoding = false) {t : State} (he : execBpDec m s = .next t) :
    s.AdvancesTo m t := by
  obtain ⟨hd', -⟩ | ⟨-, ⟨-, rfl⟩ | ⟨-, ⟨-, rfl⟩ | ⟨llr, -, -, rfl⟩⟩⟩ := execBpDec_next he
  · simp [hd] at hd'
  · exact .inl ⟨rfl, _, rfl⟩
  · exact .inl ⟨rfl, _, rfl⟩
  · by_cases hm : m = 0
    · subst hm
      rw [State.startDecode_zero]
      exact .inl ⟨rfl, _, rfl⟩
    · rw [State.startDecode_of_ne hm]
      refine h.iteration rfl ?_
      rw [State.initialise_dec_iter, State.iterationsLeft, if_neg (by simp [hd])]
      exact le_max_right ..

theorem State.Pending.exec (h : s.Pending m) : ∃ t, exec (.bpDec m) s = .next t ∧ s.AdvancesTo m t := by
  cases hd : s.decoding
  · obtain ⟨llr, ho⟩ := h.operand
    have hfinite : Payload.finite s.operand = true := by simp [ho, llrItems, Payload.finite]
    have htyped : (Instr.bpDec m).payloadTyped s.operand = true := by
      simp [ho, llrItems, Instr.payloadTyped, Instr.itemType, Item.type]
    obtain ⟨t, he⟩ := exec_total (.inr htyped) hfinite
    exact ⟨t, he, h.start hd he⟩
  · refine ⟨_, exec_bpDec_running hd m, h.iteration (by rw [← hd]) ?_⟩
    rw [State.iterationsLeft, if_pos hd]

/-- A step of the machine answers a pending decode, or leaves it pending with fewer steps left. -/
theorem State.Pending.step (h : s.Pending m) : ∃ t, step s = .next t ∧
    (s.EndedIn t ∨ t.Pending m ∧ t.responses = s.responses ∧ t.stepsLeft m < s.stepsLeft m) := by
  have hcore {s' : State} (hm : CoreMoves s s') (hp : s'.Pending m) (hr : s'.responses = s.responses)
      (hleft : s'.stepsLeft m = s.stepsLeft m) : ∃ t, Machine.step s = .next t ∧
        (s.EndedIn t ∨ t.Pending m ∧ t.responses = s.responses ∧ t.stepsLeft m < s.stepsLeft m) := by
    obtain ⟨t, he, ht⟩ := hp.exec
    refine ⟨t, (stepRunsTheDecodedOperation s s' _ h.busy hm h.word).trans he, ?_⟩
    unfold State.AdvancesTo State.EndedIn at ht
    unfold State.EndedIn
    rw [hr] at ht
    refine ht.imp_right fun ⟨hpt, hrt, hit, hlt⟩ => ⟨hpt, hrt, ?_⟩
    rw [← hleft, State.stepsLeft, State.stepsLeft, hit]
    omega
  have hno := h.noReset
  match hi : s.inputs with
  | [] => exact hcore (.inl ⟨hi, rfl⟩) h rfl rfl
  | .command w p :: rest => exact hcore (.inr (.inl ⟨⟨w, p, rest, hi⟩, rfl⟩)) h rfl rfl
  | .coreTurn :: rest =>
    rw [hi] at hno
    exact hcore (.inr (.inr ⟨rest, hi, rfl⟩)) (h.withInputs (List.not_mem_of_not_mem_cons hno)) rfl
      (by simp [State.stepsLeft, State.iterationsLeft, hi])
  | .abort :: rest =>
    rw [hi] at hno
    refine ⟨({ s with inputs := rest } : State).raiseAbort, by simp [Machine.step, turn, hi],
      .inr ⟨(h.withInputs (List.not_mem_of_not_mem_cons hno)).raiseAbort, rfl, ?_⟩⟩
    change s.iterationsLeft m + rest.count .abort < s.iterationsLeft m + s.inputs.count .abort
    rw [hi, List.count_cons_self]
    exact Nat.lt_succ_self _
  | .reset :: rest => simp [hi] at hno

theorem run_succ {M : Host.Core} {s t : M.State} (h : M.step s = .next t) (k : ℕ) : M.run (k + 1) s = M.run k t := by
  rw [Host.Core.run, h]

/-- The decode is answered after k steps, and busy without a response before. -/
def State.AnsweredAfter (s : State) (k : ℕ) : Prop :=
  (∃ t r, Host.Core.run Sys2Proof.core k s = .next t ∧ t.busy = false ∧ t.responses = r :: s.responses) ∧
    ∀ j < k, ∃ u : State, Host.Core.run Sys2Proof.core j s = .next u ∧ u.busy = true ∧ u.responses = s.responses

/-- A step that leaves the decode unanswered comes before the others. -/
theorem State.AnsweredAfter.succ {s t : State} {k : ℕ} (h : t.AnsweredAfter k) (hs : Machine.step s = .next t)
    (hb : s.busy = true) (hr : t.responses = s.responses) : s.AnsweredAfter (k + 1) := by
  unfold State.AnsweredAfter at h ⊢
  rw [hr] at h
  obtain ⟨⟨u, r, hu, hend⟩, hbefore⟩ := h
  refine ⟨⟨u, r, (run_succ (M := Sys2Proof.core) hs k).trans hu, hend⟩, fun j hj => ?_⟩
  match j with
  | 0 => exact ⟨s, rfl, hb, rfl⟩
  | j + 1 =>
    obtain ⟨v, hv, hstands⟩ := hbefore j (by omega)
    exact ⟨v, (run_succ (M := Sys2Proof.core) hs j).trans hv, hstands⟩

/-- Induction on the bound of the steps left. -/
theorem State.Pending.answeredAfter : ∀ (n : ℕ) {s : State}, s.Pending m → s.stepsLeft m ≤ n →
    ∃ k, 1 ≤ k ∧ k ≤ n ∧ s.AnsweredAfter k
  | 0, s, h, hn => by
    have hpos := h.iterationsLeft_pos
    rw [State.stepsLeft] at hn
    omega
  | n + 1, s, h, hn => by
    obtain ⟨t, hs, ⟨hb, r, hr⟩ | ⟨ht, hr, hlt⟩⟩ := h.step
    · refine ⟨1, le_rfl, by omega, ⟨t, r, run_succ (M := Sys2Proof.core) hs 0, hb, hr⟩, fun j hj => ?_⟩
      obtain rfl : j = 0 := by omega
      exact ⟨s, rfl, h.busy, rfl⟩
    · obtain ⟨k, hk1, hkn, hk⟩ := State.Pending.answeredAfter n ht (by omega)
      exact ⟨k + 1, by omega, by omega, hk.succ hs h.busy hr⟩

end

/-- Settles O50: at its start the steps left are those of the bound and one for each abort request to come. -/
theorem everyDecodeTerminates : Obligations.EveryDecodeTerminates := by
  unfold Obligations.EveryDecodeTerminates
  intro s m llr hb hno hd hw ho
  have hp : s.Pending m := ⟨hb, hno, hw, ⟨llr, ho⟩, fun h => by simp [hd] at h⟩
  have hleft : s.stepsLeft m = max 1 m.toNat + s.inputs.count .abort := by simp [State.stepsLeft, State.iterationsLeft, hd]
  exact hp.answeredAfter _ hleft.le

end Sys2Proof.Machine
end

section
/-! PROOFS. What a host cannot tell apart (R34, R61, R194): two states that differ only in what is not read keep doing so, and
give the same responses. -/

namespace Sys2Proof.Machine

/-! ### States that a host cannot tell apart -/

/-- The parts of DecoderState that an iteration reads before it writes them are the same (R27). -/
def Decoder.SameWork (d e : Decoder) : Prop := e = { d with c2b := e.c2b, hard := e.hard, nunsat := e.nunsat }

theorem Decoder.SameWork.refl (d : Decoder) : d.SameWork d := rfl

/-- Two states that differ in the derived tables before `INIT_DONE`, in what DecoderState holds outside a decode, and in the
responses given before those that both added to `ra` and `rb`. -/
inductive Agree (ra rb : List Response) (a : State) : State → Prop
  | intro {D : Derived} {d : Decoder} {rs : List Response} (tables : a.initDone = true → D = a.derived)
      (work : a.decoding = true → a.initDone = true ∧ a.dec.SameWork d)
      (new : ∃ new, a.responses = new ++ ra ∧ rs = new ++ rb) :
      Agree ra rb a { a with derived := D, dec := d, responses := rs }

/-- Two outcomes that a host cannot tell apart. -/
inductive SameOutcome (ra rb : List Response) : Outcome → Outcome → Prop
  | next {t u : State} (h : Agree ra rb t u) : SameOutcome ra rb (.next t) (.next u)
  | fault (f : Fault) : SameOutcome ra rb (.fault f) (.fault f)
  | refused (r : Refusal) : SameOutcome ra rb (.refused r) (.refused r)

section
variable {ra rb : List Response} {a b : State}

/-- The same response keeps two states alike. -/
theorem Agree.respond (h : Agree ra rb a b) (st : Status) (aux : Imm) (p : Payload) :
    Agree ra rb (a.respond st aux p) (b.respond st aux p) := by
  obtain @⟨D, d, rs, ht, -, new, hra, hrs⟩ := h
  exact .intro (D := D) (d := d) (rs := ⟨st, aux, p⟩ :: rs) ht nofun
    ⟨⟨st, aux, p⟩ :: new, congrArg (List.cons _) hra, congrArg (List.cons _) hrs⟩

theorem Agree.raise (h : Agree ra rb a b) (st : Status) : Agree ra rb (a.raise st) (b.raise st) := h.respond st 0 []

/-! ### The operations -/

theorem Agree.whenInitialised (h : Agree ra rb a b) {k l : Outcome}
    (hk : a.initDone = true → SameOutcome ra rb k l) : SameOutcome ra rb (a.whenInitialised k) (b.whenInitialised l) := by
  have hraise := h.raise .notInitialised
  obtain @⟨D, d, rs, -, -, -⟩ := h
  unfold State.whenInitialised
  by_cases hi : a.initDone = true
  · rw [if_pos hi, if_pos hi]
    exact hk hi
  · rw [if_neg hi, if_neg hi]
    exact .next hraise

theorem Agree.whenLength (h : Agree ra rb a b) {ok : Bool} {k l : Outcome} (hk : SameOutcome ra rb k l) :
    SameOutcome ra rb (a.whenLength ok k) (b.whenLength ok l) := by
  cases ok
  · exact .next (h.raise .invalidLength)
  · exact hk

theorem Agree.whenIndex (h : Agree ra rb a b) {ok : Bool} {k l : Outcome} (hk : SameOutcome ra rb k l) :
    SameOutcome ra rb (a.whenIndex ok k) (b.whenIndex ok l) := by
  cases ok
  · exact .next (h.raise .invalidIndex)
  · exact hk

theorem Agree.withBits (h : Agree ra rb a b) {k l : List Bool → State} (hk : ∀ bs, Agree ra rb (k bs) (l bs)) :
    SameOutcome ra rb (a.withBits k) (b.withBits l) := by
  obtain @⟨D, d, rs, -, -, -⟩ := h
  unfold State.withBits
  cases bitsOf a.operand with
  | some bs => exact .next (hk bs)
  | none => exact .fault _

theorem Agree.withSyms (h : Agree ra rb a b) {k l : List Sym → State} (hk : ∀ vs, Agree ra rb (k vs) (l vs)) :
    SameOutcome ra rb (a.withSyms k) (b.withSyms l) := by
  obtain @⟨D, d, rs, -, -, -⟩ := h
  unfold State.withSyms
  cases symsOf a.operand with
  | some vs => exact .next (hk vs)
  | none => exact .fault _

theorem Agree.withLlrs (h : Agree ra rb a b) {k l : List RealNum → State} (hk : ∀ qs, Agree ra rb (k qs) (l qs)) :
    SameOutcome ra rb (a.withLlrs k) (b.withLlrs l) := by
  obtain @⟨D, d, rs, -, -, -⟩ := h
  unfold State.withLlrs
  cases llrsOf a.operand with
  | values qs => exact .next (hk qs)
  | nonFinite => exact .refused _
  | foreign => exact .fault _

/-- R220: `INIT` reads `NM`, and where it writes the tables it makes them the same. -/
theorem Agree.execInit (h : Agree ra rb a b) : SameOutcome ra rb (execInit a) (execInit b) := by
  have hraise := h.raise .graphInvalid
  have h' := h
  obtain @⟨D, d, rs, -, -, hnew⟩ := h
  refine h'.whenLength (.next ?_)
  by_cases hg : graphOk a.params.nm = true
  · rw [if_pos hg, if_pos hg]
    exact .respond (a := { a with derived := buildDerived a.params.nm, initDone := true, decoding := false })
      (.intro (D := buildDerived a.params.nm) (d := d) (rs := rs) (fun _ => rfl) nofun hnew) ..
  · rw [if_neg hg, if_neg hg]
    exact hraise

/-- Every operation but `INIT` and `BP.DEC`: what it answers it makes from the constants, the derived tables and `OPERAND`. -/
theorem Agree.exec_of_answered (h : Agree ra rb a b) {i : Instr} (hi : i ≠ .init) (hb : ∀ m, i ≠ .bpDec m) :
    SameOutcome ra rb (exec i a) (exec i b) := by
  have h' := h
  obtain @⟨D, d, rs, ht, -, -⟩ := h
  cases i with
  | init => exact absurd rfl hi
  | bpDec m => exact absurd rfl (hb m)
  | crc14Enc | crc14Vfy | grayMap | ldpcEnc | ldpcSyn =>
    refine h'.whenInitialised fun hdone => h'.whenLength ?_
    obtain rfl := ht hdone
    exact h'.withBits fun _ => h'.respond ..
  | grayEnc | grayDec =>
    refine h'.whenInitialised fun hdone => h'.whenLength ?_
    obtain rfl := ht hdone
    exact h'.withSyms fun _ => h'.respond ..
  | grayUnmap =>
    refine h'.whenInitialised fun hdone => ?_
    obtain rfl := ht hdone
    exact h'.withSyms fun _ => h'.respond ..
  | fgNm | fgMn =>
    refine h'.whenInitialised fun hdone => h'.whenLength (h'.whenIndex ?_)
    obtain rfl := ht hdone
    exact .next (h'.respond ..)

/-! ### The decode -/

/-- Up to the count of step 3 an iteration reads only what the two states have in common, and writes the rest anew. -/
theorem counted_of_sameWork {u : State} {e : Decoder} {rs : List Response} (hw : u.dec.SameWork e) :
    ({ u with dec := e, responses := rs } : State).counted = { u.counted with responses := rs } := by
  rw [hw]
  rfl

/-- R183, R187: the bound and the abort request. -/
theorem Agree.endIteration (h : Agree ra rb a b) (hiter : b.dec.iter = a.dec.iter) (m : Imm) :
    Agree ra rb (a.endIteration m) (b.endIteration m) := by
  have h' := h
  obtain @⟨D, d, rs, -, -, -⟩ := h
  unfold State.endIteration
  rw [hiter]
  by_cases hm : m.toNat ≤ a.dec.iter
  · rw [if_pos hm, if_pos hm]
    exact h'.raise _
  rw [if_neg hm, if_neg hm]
  by_cases hab : (a.params.hasAbort && a.abortPending) = true
  · rw [if_pos hab, if_pos hab]
    exact h'.raise _
  · rw [if_neg hab, if_neg hab]
    exact h'

/-- R179 to R187: what follows the count does not read the responses given. -/
theorem Agree.afterParity {c : State} {rs : List Response} (hi : c.initDone = true)
    (hnew : ∃ new, c.responses = new ++ ra ∧ rs = new ++ rb) (m : Imm) :
    Agree ra rb (c.afterParity m) (({ c with responses := rs } : State).afterParity m) := by
  have h : Agree ra rb c { c with responses := rs } :=
    .intro (D := c.derived) (d := c.dec) (fun _ => rfl) (fun _ => ⟨hi, .refl _⟩) hnew
  have hbit : Agree ra rb c.bitStep ({ c with responses := rs } : State).bitStep :=
    .intro (a := c.bitStep) (D := c.derived) (d := c.bitStep.dec)
      (fun _ => c.bitStep_derived.symm) (fun _ => ⟨c.bitStep_initDone.trans hi, .refl _⟩) (c.bitStep_responses.symm ▸ hnew)
  unfold State.afterParity
  by_cases ha : c.accepted = true
  · rw [if_pos ha, if_pos (c := ({ c with responses := rs } : State).accepted = true) ha]
    exact h.respond ..
  rw [if_neg ha, if_neg (c := ({ c with responses := rs } : State).accepted = true) ha]
  by_cases hs : StagPolicy.eval c.params.stag c.dec.hist = true
  · rw [if_pos hs, if_pos hs]
    exact h.raise _
  · rw [if_neg hs, if_neg hs]
    exact hbit.endIteration (by simp) m

/-- R174: an iteration of two decodes with the same messages. -/
theorem Agree.iteration {u : State} {e : Decoder} {rs : List Response} (hi : u.initDone = true)
    (hw : u.dec.SameWork e) (hnew : ∃ new, u.responses = new ++ ra ∧ rs = new ++ rb) (m : Imm) :
    Agree ra rb (u.iteration m) (({ u with dec := e, responses := rs } : State).iteration m) := by
  have hresponses : u.counted.responses = u.responses := by simp [State.counted]
  have hdone : u.counted.initDone = true := by simpa [State.counted] using hi
  rw [State.iteration_eq, State.iteration_eq, counted_of_sameWork hw]
  exact .afterParity hdone (hresponses.symm ▸ hnew) m

/-- R173: the initialisation writes what the first iteration reads. -/
theorem initialise_of_other_dec (u : State) (e : Decoder) (rs : List Response) (llr : List RealNum) :
    ∃ e', (u.initialise llr).dec.SameWork e' ∧ ({ u with dec := e, responses := rs } : State).initialise llr =
      { u.initialise llr with dec := e', responses := rs } :=
  ⟨{ (u.initialise llr).dec with c2b := e.c2b, hard := e.hard, nunsat := e.nunsat }, rfl, rfl⟩

theorem Agree.startDecode {u : State} {e : Decoder} {rs : List Response} (hi : u.initDone = true)
    (hnew : ∃ new, u.responses = new ++ ra ∧ rs = new ++ rb) (m : Imm) (llr : List RealNum) :
    Agree ra rb (u.startDecode m llr) (({ u with dec := e, responses := rs } : State).startDecode m llr) := by
  obtain ⟨e', hw, he⟩ := initialise_of_other_dec u e rs llr
  by_cases hm : m = 0
  · subst hm
    rw [State.startDecode_zero, State.startDecode_zero, he]
    exact .raise (.intro (a := u.initialise llr) (D := u.derived) (fun _ => rfl) (fun _ => ⟨hi, hw⟩) hnew) _
  · rw [State.startDecode_of_ne hm, State.startDecode_of_ne hm, he]
    exact .iteration (u := u.initialise llr) hi hw hnew m

theorem Agree.execBpDec (h : Agree ra rb a b) (m : Imm) : SameOutcome ra rb (execBpDec m a) (execBpDec m b) := by
  have h' := h
  obtain @⟨D, d, rs, ht, hw, hnew⟩ := h
  unfold Machine.execBpDec
  by_cases hd : a.decoding = true
  · rw [if_pos hd, if_pos hd]
    obtain ⟨hi, hwork⟩ := hw hd
    obtain rfl := ht hi
    exact .next (.iteration hi hwork hnew m)
  · rw [if_neg hd, if_neg hd]
    refine h'.whenInitialised fun hi => h'.whenLength ?_
    obtain rfl := ht hi
    exact h'.withLlrs fun llr => .startDecode hi hnew m llr

theorem Agree.exec (h : Agree ra rb a b) (i : Instr) : SameOutcome ra rb (exec i a) (exec i b) := by
  by_cases hi : i = .init
  · subst hi
    exact h.execInit
  by_cases hb : ∃ m, i = .bpDec m
  · obtain ⟨m, rfl⟩ := hb
    exact h.execBpDec m
  · exact h.exec_of_answered hi fun m hm => hb ⟨m, hm⟩

/-! ### Steps and runs -/

theorem Agree.coreTurn (h : Agree ra rb a b) : SameOutcome ra rb (coreTurn a) (coreTurn b) := by
  have h' := h
  obtain @⟨D, d, rs, -, -, -⟩ := h
  unfold Machine.coreTurn
  by_cases hb : a.busy = true
  · rw [if_pos hb, if_pos hb]
    cases decode a.cmdWord with
    | ok i => exact h'.exec i
    | error _ => exact .next (h'.raise _)
  · rw [if_neg hb, if_neg hb]
    exact .next h'

theorem Agree.inputs_eq (h : Agree ra rb a b) : b.inputs = a.inputs := by
  obtain @⟨D, d, rs, -, -, -⟩ := h
  rfl

theorem Agree.withInputs (h : Agree ra rb a b) (rest : List HostEvent) :
    Agree ra rb { a with inputs := rest } { b with inputs := rest } := by
  obtain @⟨D, d, rs, ht, hw, hnew⟩ := h
  exact .intro (a := { a with inputs := rest }) ht hw hnew

theorem Agree.raiseAbort (h : Agree ra rb a b) : Agree ra rb a.raiseAbort b.raiseAbort := by
  obtain @⟨D, d, rs, ht, hw, hnew⟩ := h
  exact .intro (a := a.raiseAbort) ht hw hnew

theorem Agree.accept (h : Agree ra rb a b) (w : Word) (p : Payload) : Agree ra rb (a.accept w p) (b.accept w p) := by
  obtain @⟨D, d, rs, ht, -, hnew⟩ := h
  exact .intro (a := a.accept w p) ht nofun hnew

theorem Agree.resetEvent (h : Agree ra rb a b) : Agree ra rb a.resetEvent b.resetEvent := by
  obtain @⟨D, d, rs, -, -, hnew⟩ := h
  exact .intro (a := a.resetEvent) nofun nofun hnew

theorem Agree.step (h : Agree ra rb a b) : SameOutcome ra rb (step a) (step b) := by
  have hinputs := h.inputs_eq
  unfold Machine.step turn
  rw [hinputs]
  match a.inputs with
  | [] => exact h.coreTurn
  | .coreTurn :: rest => exact (h.withInputs rest).coreTurn
  | .reset :: rest => exact .next (h.withInputs rest).resetEvent
  | .abort :: rest => exact .next (h.withInputs rest).raiseAbort
  | .command w p :: rest =>
    have hcore := h.coreTurn
    have haccept := (h.withInputs rest).accept w p
    obtain @⟨D, d, rs, -, -, -⟩ := h
    by_cases hb : a.busy = true
    · simpa only [if_pos hb] using hcore
    · simpa only [if_neg hb] using SameOutcome.next haccept

/-- What follows a step that gives a next state. -/
def continueWith {σ φ ρ : Type} (f : σ → Host.Outcome σ φ ρ) : Host.Outcome σ φ ρ → Host.Outcome σ φ ρ
  | .next t => f t
  | .fault r => .fault r
  | .refused r => .refused r

theorem run_succ_eq {M : Host.Core} (k : ℕ) (s : M.State) : M.run (k + 1) s = continueWith (M.run k) (M.step s) := by
  rw [Host.Core.run]
  cases M.step s <;> rfl

theorem run_core_succ (k : ℕ) (s : State) : Host.Core.run Sys2Proof.core (k + 1) s =
    continueWith (Host.Core.run Sys2Proof.core k) (step s) :=
  run_succ_eq (M := Sys2Proof.core) k s

theorem SameOutcome.continueWith {x y : Outcome} (h : SameOutcome ra rb x y) {f : State → Outcome}
    (hf : ∀ {t u : State}, Agree ra rb t u → SameOutcome ra rb (f t) (f u)) :
    SameOutcome ra rb (continueWith f x) (continueWith f y) := by
  cases h with
  | next h => exact hf h
  | fault r => exact .fault r
  | refused r => exact .refused r

theorem Agree.run : ∀ (k : ℕ) {a b : State}, Agree ra rb a b →
    SameOutcome ra rb (Host.Core.run Sys2Proof.core k a) (Host.Core.run Sys2Proof.core k b)
  | 0, _, _, h => .next h
  | k + 1, a, b, h => by
    rw [run_core_succ, run_core_succ]
    exact h.step.continueWith (Agree.run k)

/-- The responses in an outcome that is a state. -/
def responsesOf : Outcome → Option (List Response)
  | .next t => some t.responses
  | .fault _ => none
  | .refused _ => none

theorem responsesAfter_eq (k : ℕ) (s : State) : responsesAfter k s = responsesOf (Host.Core.run Sys2Proof.core k s) := rfl

theorem SameOutcome.responsesOf {x y : Outcome} (h : SameOutcome ra rb x y) :
    responsesOf x = none ∧ responsesOf y = none ∨
      ∃ new, responsesOf x = some (new ++ ra) ∧ responsesOf y = some (new ++ rb) := by
  cases h with
  | next h =>
    obtain @⟨_, _, _, -, -, new, hra, hrb⟩ := h
    exact .inr ⟨new, congrArg some hra, congrArg some hrb⟩
  | fault r => exact .inl ⟨rfl, rfl⟩
  | refused r => exact .inl ⟨rfl, rfl⟩

end

/-- Settles O56: the two states agree, and with no decode begun nothing of DecoderState needs to. -/
theorem unspecifiedStateIsNeverObserved : Obligations.UnspecifiedStateIsNeverObserved := by
  unfold Obligations.UnspecifiedStateIsNeverObserved
  intro k a b ha hb hparams hdone hbusy habort hword hoperand hinputs hda hdb
  have hsame : b = { a with derived := b.derived, dec := b.dec, responses := b.responses } := by
    cases a
    cases b
    simp_all
  have htables (hi : a.initDone = true) : b.derived = a.derived := by
    rw [(ha.tables hi).2, (hb.tables (hdone ▸ hi)).2, hparams]
  have h : Agree a.responses b.responses a b := by
    rw [hsame]
    exact .intro htables (fun hd => by simp [hda] at hd) ⟨[], rfl, rfl⟩
  rw [responsesAfter_eq, responsesAfter_eq]
  exact (h.run k).responsesOf

end Sys2Proof.Machine
end


section
/-! PROOFS. What stands around the operations (R220 to R223, R244, R249): the abort request, commands before `INIT`, and
an `INIT` that fails or is repeated. -/

namespace Sys2Proof.Machine

/-! ### The abort request (R223, R249) -/

theorem step_abort {s : State} {rest : List HostEvent} (hi : s.inputs = .abort :: rest) :
    step s = .next { s with inputs := rest }.raiseAbort := by
  simp [step, turn, hi]

/-- Settles O7: the step is the abort event, and that sets the flag exactly where the input exists and `BUSY` = 1. -/
theorem abortRequestIsRecordedWhileBusy : Obligations.AbortRequestIsRecordedWhileBusy := by
  unfold Obligations.AbortRequestIsRecordedWhileBusy
  intro s rest hi
  have hflag : (s.abortPending || (s.params.hasAbort && s.busy)) =
      if s.params.hasAbort = true ∧ s.busy = true then true else s.abortPending := by
    cases s.params.hasAbort <;> cases s.busy <;> simp
  rw [step_abort hi, ← hflag]
  rfl

/-- Settles O8: where one step ends the command, all that its checks and its operation can give is a stop that leaves no
state, or a response. The response clears the flag, and nothing before it reads the flag, so both sides are one term. -/
theorem abortNeverEndsAnotherOperation : Obligations.AbortNeverEndsAnotherOperation := by
  unfold Obligations.AbortNeverEndsAnotherOperation
  intro i s b hi
  cases i with
  | bpDec m => exact absurd rfl (hi m)
  | init | crc14Enc | crc14Vfy | grayEnc | grayDec | grayMap | grayUnmap | ldpcEnc | ldpcSyn | fgNm | fgMn => rfl

/-! ### Before `INIT` (R222) -/

/-- CORE's turn leaves `INIT_DONE` and the decode in execution. -/
theorem CoreMoves.work_eq {s s' : State} (h : CoreMoves s s') : s'.initDone = s.initDone ∧ s'.decoding = s.decoding := by
  obtain ⟨-, rfl⟩ | ⟨-, rfl⟩ | ⟨rest, -, rfl⟩ := h <;> exact ⟨rfl, rfl⟩

/-- R21, R222: a decode is in execution only after `INIT`. -/
theorem Inv.not_decoding {s : State} (h : Inv s) (hi : s.initDone = false) : s.decoding = false := by
  refine Bool.eq_false_iff.mpr fun hd => ?_
  obtain ⟨-, hdone, -⟩ := h.decoding hd
  simp [hi] at hdone

/-- R240: where no decode is in execution, a fault writes `BUSY`, `ABORT_PENDING` and the response only. -/
theorem State.raise_of_not_decoding {s : State} (hd : s.decoding = false) (st : Status) : s.raise st =
    { s with busy := false, abortPending := false, responses := ⟨st, 0, []⟩ :: s.responses } := by
  simp [State.raise, State.respond, hd]

/-- R222: `INIT_DONE` is the first check of every operation but `INIT`. -/
theorem exec_of_not_initialised {i : Instr} {s : State} (hi : s.initDone = false) (hd : s.decoding = false)
    (hn : i ≠ .init) : exec i s = .next (s.raise .notInitialised) := by
  cases i with
  | init => exact absurd rfl hn
  | bpDec m => exact (exec_llrs hd m).trans (State.whenInitialised_of_not hi _)
  | crc14Enc | crc14Vfy | grayEnc | grayDec | grayMap | grayUnmap | ldpcEnc | ldpcSyn | fgNm | fgMn =>
    exact State.whenInitialised_of_not hi _

/-- Settles O12: the step is the operation, which fails its first check; no decode is in execution that it would end. -/
theorem notInitialisedBeforeInit : Obligations.NotInitialisedBeforeInit := by
  unfold Obligations.NotInitialisedBeforeInit
  intro s s' i hinv hb hm hw hn hi
  obtain ⟨hi', hd'⟩ := hm.work_eq
  have hd : s'.decoding = false := hd'.trans (hinv.not_decoding hi)
  rw [stepRunsTheDecodedOperation s s' i hb hm hw, exec_of_not_initialised (hi'.trans hi) hd hn,
    State.raise_of_not_decoding hd]

/-! ### `INIT` on a bad graph, and `INIT` again (R220, R221) -/

theorem exec_init_of_bad {s : State} (ho : s.operand = []) (hg : graphOk s.params.nm = false) :
    exec .init s = .next (s.raise .graphInvalid) := by
  change execInit s = _
  simp [execInit, ho, hg]

/-- Settles O22: the build check is exactly the clauses (a) to (e), and where it fails only a response follows. -/
theorem initOnABadGraphIsGraphInvalid : Obligations.InitOnABadGraphIsGraphInvalid := by
  unfold Obligations.InitOnABadGraphIsGraphInvalid
  intro s ho hbad
  have hg : graphOk s.params.nm = false := Bool.eq_false_iff.mpr fun hg => hbad (graphOk_iff.mp hg)
  exact ⟨_, exec_init_of_bad ho hg, rfl, rfl, rfl, rfl, rfl, rfl, rfl, rfl⟩

/-- Settles O23: in a built state the tables already are what the build makes of `NM`. -/
theorem repeatedInitChangesNothing : Obligations.RepeatedInitChangesNothing := by
  unfold Obligations.RepeatedInitChangesNothing
  intro s hinv hi ho
  obtain ⟨hg, htables⟩ := hinv.tables hi
  have hsame : { s with derived := buildDerived s.params.nm, initDone := true } = s := by rw [← htables, ← hi]
  rw [exec_init ho hg, hsame]
  rfl

end Sys2Proof.Machine
end

section
/-! PROOFS. The host's chains (R224 to R226), put together from what the single operations answer. -/

namespace Sys2Proof.Machine

/-! ### The operations of the transmit chain -/

/-- An operation gives one answer. -/
theorem Answers.result_unique {i : Instr} {s : State} {p : Payload} {a b : Imm} {q r : Payload}
    (hq : Answers i s p a q) (hr : Answers i s p b r) : q = r := by
  have hstate := Host.Outcome.next.inj (hq.symm.trans hr)
  have hresponse : a = b ∧ q = r := by simpa using congrArg State.responses hstate
  exact hresponse.2

theorem answers_crc14Enc {s : State} {m : List Bool} (hi : s.initDone = true) (hm : m.length = 77) :
    Answers .crc14Enc s (bitItems m) 0 (bitItems (crcBits (crc14 m))) :=
  exec_crc14Enc (s := { s with operand := bitItems m }) hi rfl hm

theorem answers_ldpcEnc {s : State} {info : List Bool} (hi : s.initDone = true) (hl : info.length = 91) :
    Answers .ldpcEnc s (bitItems info) 0 (bitItems (ldpcEncode s.params.gen info)) :=
  exec_ldpcEnc (s := { s with operand := bitItems info }) hi rfl hl

/-- R127: from a built state the tones of a bit sequence unmap to it. -/
theorem Inv.answers_grayUnmap_mapped {s : State} (hinv : Inv s) (hi : s.initDone = true) {p : List Bool}
    (hp : p.length % 3 = 0) : Answers .grayUnmap s (symItems ((symsOfBits p).map grayAt)) 0 (bitItems p) := by
  obtain ⟨-, hbits, -⟩ := grayRoundTrips s hinv hi
  obtain ⟨q, hmap, hunmap⟩ := hbits p hp
  rwa [hmap.result_unique (answers_grayMap hi hp)] at hunmap

/-! ### The codeword of a message -/

theorem txCodeword_length (gen : Vector (BitVec 91) 83) {m : List Bool} (hm : m.length = 77) :
    (txCodeword gen m).length = 174 := ldpcEncode_length gen (crcAppend_length hm)

/-- R141: the codeword begins with the message and its CRC. -/
theorem txCodeword_take (gen : Vector (BitVec 91) 83) {m : List Bool} (hm : m.length = 77) :
    (txCodeword gen m).take 91 = crcAppend m := List.take_left' (crcAppend_length hm)

/-- R105: the CRC of zeros is 0. -/
theorem crcAppend_zeros : crcAppend (List.replicate 77 false) = List.replicate 91 false := by
  rw [crcAppend, crc14_zeros]
  rfl

theorem txCodeword_zeros (gen : Vector (BitVec 91) 83) :
    txCodeword gen (List.replicate 77 false) = List.replicate 174 false := by
  rw [txCodeword, crcAppend_zeros, ldpcEncode_zeros]

/-- Settles O57: the chain is the three operations in turn, on payloads of the lengths 77, 91 and 174. -/
theorem transmitChain : Obligations.TransmitChain := by
  unfold Obligations.TransmitChain
  intro s m hinv hi hm
  have hlen := txCodeword_length s.params.gen hm
  have hthree : (txCodeword s.params.gen m).length % 3 = 0 := by rw [hlen]
  refine ⟨crcBits (crc14 m), txCodeword s.params.gen m, _, answers_crc14Enc hi hm,
    answers_ldpcEnc hi (crcAppend_length hm), answers_grayMap hi hthree, ?_, txCodeword_take _ hm, rfl,
    hinv.answers_grayUnmap_mapped hi hthree, ?_⟩
  · rw [List.length_map, symsOfBits_length 58 _ hlen]
  · rintro rfl
    rw [txCodeword_zeros]
    rfl

/-- Settles O58: the block that is sent verifies, so its strong LLRs decode to it, and it begins with the message. -/
theorem receiveChainReturnsTheMessage : Obligations.ReceiveChainReturnsTheMessage := by
  unfold Obligations.ReceiveChainReturnsTheMessage
  intro s k m L llr hinv hi hd hx ht hm hL hk ho hllr
  obtain ⟨t, he, hr, -⟩ := strongCodewordsDecodeAtOnce s k (crcAppend m) L llr hinv hi hd hx ht
    (crcAppend_length hm) (crcVerify_crcAppend hm) hL hk ho hllr
  refine ⟨t, _, he, hr, ?_⟩
  calc (txCodeword s.params.gen m).take 77
      = ((txCodeword s.params.gen m).take 91).take 77 := by rw [List.take_take]; rfl
    _ = m := by rw [txCodeword_take _ hm, crcAppend_take hm]

end Sys2Proof.Machine
end

section
/-! PROOFS. The faults of the checks of R250 (R222, R240, R241, R245): which check an operation fails, that its answer is
then the fault and nothing else, and that nothing but a failed check gives such an answer. -/

namespace Sys2Proof.Machine

/-! ### The checks of R250 -/

/-- The faults that the checks of an operation raise. -/
def checkFaults : List Status := [.notInitialised, .invalidLength, .invalidIndex]

/-- R250: the first check that the operation i fails in s, by the fault it raises. None looks at a payload item. -/
inductive FailsCheck (i : Instr) (s : State) : Status → Prop
  | notInitialised (hn : i ≠ .init) (hi : s.initDone = false) : FailsCheck i s .notInitialised
  | invalidLength (hi : i = .init ∨ s.initDone = true) (hl : i.lengthOk s.operand.length = false) :
      FailsCheck i s .invalidLength
  | invalidIndex (hi : i = .init ∨ s.initDone = true) (hl : i.lengthOk s.operand.length = true)
      (hx : i.immOk = false) : FailsCheck i s .invalidIndex

/-- The checks of R250 before what k does. -/
def State.checks (s : State) (i : Instr) (k : Outcome) : Outcome :=
  if i = .init then s.whenLength (i.lengthOk s.operand.length) (s.whenIndex i.immOk k)
  else s.checked i (s.whenIndex i.immOk k)

section
variable {i : Instr} {s t : State} {st : Status} {k : Outcome}

/-- Where `INIT_DONE` is not in the way, the checks are those of the length and the immediate. -/
theorem State.checks_of_initialised (hi : i = .init ∨ s.initDone = true) (k : Outcome) :
    s.checks i k = s.whenLength (i.lengthOk s.operand.length) (s.whenIndex i.immOk k) := by
  unfold State.checks
  split
  next => rfl
  next hn => exact State.whenInitialised_of_done (hi.resolve_left hn) _

/-- R245: an operation that reads its payload has no check of its immediate, and is not `INIT`. -/
theorem State.checks_of_reads (hi : i.itemType ≠ none) (k : Outcome) : s.checks i k = s.checked i k := by
  cases i with
  | init | fgNm | fgMn => exact absurd rfl hi
  | crc14Enc | crc14Vfy | grayEnc | grayDec | grayMap | grayUnmap | ldpcEnc | ldpcSyn | bpDec => rfl

/-- A failed check answers its fault, whatever would follow. -/
theorem FailsCheck.checks_eq (h : FailsCheck i s st) (k : Outcome) : s.checks i k = .next (s.raise st) := by
  cases h with
  | notInitialised hn hi => exact (if_neg hn).trans (State.whenInitialised_of_not hi _)
  | invalidLength hi hl => rw [State.checks_of_initialised hi, hl, State.whenLength_false]
  | invalidIndex hi hl hx =>
    rw [State.checks_of_initialised hi, hl, State.whenLength_true, hx, State.whenIndex_false]

/-- A next state after the checks is the fault of the one that failed, or comes from what follows them. -/
theorem State.checks_eq_next (h : s.checks i k = .next t) :
    (∃ st, FailsCheck i s st ∧ t = s.raise st) ∨ k = .next t := by
  by_cases hi : i = .init ∨ s.initDone = true
  · rw [State.checks_of_initialised hi] at h
    obtain ⟨hl, h⟩ | ⟨hl, rfl⟩ := State.whenLength_eq_next.mp h
    · obtain ⟨-, h⟩ | ⟨hx, rfl⟩ := State.whenIndex_eq_next.mp h
      · exact .inr h
      · exact .inl ⟨_, .invalidIndex hi hl hx, rfl⟩
    · exact .inl ⟨_, .invalidLength hi hl, rfl⟩
  · obtain ⟨hn, hi⟩ := not_or.mp hi
    have hfails : FailsCheck i s .notInitialised := .notInitialised hn (Bool.eq_false_iff.mpr hi)
    rw [hfails.checks_eq k] at h
    cases h
    exact .inl ⟨_, hfails, rfl⟩

/-- Another payload of the same length fails the same check (R240). -/
theorem FailsCheck.withOperand (h : FailsCheck i s st) {q : Payload} (hq : q.length = s.operand.length) :
    FailsCheck i { s with operand := q } st := by
  cases h with
  | notInitialised hn hi => exact .notInitialised hn hi
  | invalidLength hi hl => exact .invalidLength hi (hq ▸ hl)
  | invalidIndex hi hl hx => exact .invalidIndex hi (hq ▸ hl) hx

end

/-! ### What follows the checks raises none of their faults -/

/-- No response that k adds to those of s is a fault of the checks. -/
def PastChecks (s : State) (k : Outcome) : Prop :=
  ∀ t r, k = .next t → t.responses = r :: s.responses → r.status ∉ checkFaults

section
variable {s : State}

theorem pastChecks_respond {u : State} (hu : u.responses = s.responses) {st : Status} (hst : st ∉ checkFaults)
    (aux : Imm) (p : Payload) : PastChecks s (.next (u.respond st aux p)) := by
  rintro t r ⟨rfl⟩ hr
  rw [State.respond_responses, hu] at hr
  cases hr
  exact hst

theorem pastChecks_withBits (aux : List Bool → Imm) (result : List Bool → Payload) :
    PastChecks s (s.withBits fun bs => s.respond .ok (aux bs) (result bs)) := by
  intro t r h
  obtain ⟨bs, -, rfl⟩ := State.withBits_eq_next.mp h
  exact pastChecks_respond rfl (by decide) _ _ _ r rfl

theorem pastChecks_withSyms (result : List Sym → Payload) :
    PastChecks s (s.withSyms fun vs => s.respond .ok 0 (result vs)) := by
  intro t r h
  obtain ⟨vs, -, rfl⟩ := State.withSyms_eq_next.mp h
  exact pastChecks_respond rfl (by decide) _ _ _ r rfl

/-- R174: an iteration ends a decode by its own outcomes only. -/
theorem pastChecks_of_outcome {t : State} {m : Imm} (h : IterationOutcome s t m) : PastChecks s (.next t) := by
  rintro _ r ⟨rfl⟩ hr
  obtain ⟨-, rfl⟩ | ⟨-, rfl⟩ | rfl | rfl := h.response_cases hr <;> simp [checkFaults]

theorem pastChecks_withLlrs (m : Imm) : PastChecks s (s.withLlrs fun llr => s.startDecode m llr) := by
  intro t r h
  obtain ⟨llr, -, rfl⟩ := State.withLlrs_eq_next.mp h
  by_cases hm : m = 0
  · subst hm
    rw [State.startDecode_zero]
    exact pastChecks_respond (s.initialise_responses llr) (by decide) _ _ _ r rfl
  · exact pastChecks_of_outcome (State.startDecode_outcome hm) _ r rfl

theorem pastChecks_build : PastChecks s (.next (
    if graphOk s.params.nm = true then
      { s with derived := buildDerived s.params.nm, initDone := true }.respond .ok 0 []
    else s.raise .graphInvalid)) := by
  split
  · exact pastChecks_respond rfl (by decide) _ _
  · exact pastChecks_respond rfl (by decide) _ _

end

/-! ### The operations -/

/-- The step of i in s is not one within a decode, which began before it (R185). -/
def State.AtStart (s : State) (i : Instr) : Prop := ∀ m, i = .bpDec m → s.decoding = false

section
variable {i : Instr} {s t : State} {st : Status}

/-- R250: an operation at its start is its checks and then work that raises none of their faults. -/
theorem exec_eq_checks (hs : s.AtStart i) : ∃ k, exec i s = s.checks i k ∧ PastChecks s k := by
  obtain h | h | h | ⟨m, rfl⟩ := itemType_cases i
  · by_cases hi : i = .init
    · subst hi
      exact ⟨_, rfl, pastChecks_build⟩
    · obtain ⟨result, he⟩ := exec_read s h hi
      exact ⟨_, he.trans (if_neg hi).symm, pastChecks_respond rfl (by decide) _ _⟩
  · obtain ⟨result, he⟩ := exec_bits s h
    exact ⟨_, he.trans (State.checks_of_reads (by simp [h]) _).symm, pastChecks_withBits _ _⟩
  · obtain ⟨result, he⟩ := exec_syms s h
    exact ⟨_, he.trans (State.checks_of_reads (by simp [h]) _).symm, pastChecks_withSyms _⟩
  · have he := exec_llrs (hs m rfl) m
    exact ⟨_, he.trans (State.checks_of_reads (by simp [Instr.itemType]) _).symm, pastChecks_withLlrs m⟩

/-- R240: an operation that fails a check answers its fault. -/
theorem FailsCheck.exec_eq (h : FailsCheck i s st) (hs : s.AtStart i) : exec i s = .next (s.raise st) := by
  obtain ⟨k, he, -⟩ := exec_eq_checks hs
  exact he.trans (h.checks_eq k)

/-- R240, R250: a fault of the checks is answered at the start of an operation, by the check that fails. -/
theorem exec_checkFault {a : Imm} {p : Payload} (h : exec i s = .next t)
    (hr : t.responses = ⟨st, a, p⟩ :: s.responses) (hst : st ∈ checkFaults) :
    s.AtStart i ∧ FailsCheck i s st ∧ t = s.raise st := by
  have hs : s.AtStart i := by
    rintro m rfl
    refine Bool.eq_false_iff.mpr fun hd => ?_
    rw [exec_bpDec_running hd m] at h
    exact pastChecks_of_outcome (State.iteration_outcome hd m) t _ h hr hst
  obtain ⟨k, he, hk⟩ := exec_eq_checks hs
  obtain ⟨st', hf, rfl⟩ | h := State.checks_eq_next (he.symm.trans h)
  · cases hr
    exact ⟨hs, hf, rfl⟩
  · exact absurd hst (hk t _ h hr)

end

/-- Settles O15: such a fault comes from a failed check, which reads the length of the payload and no item of it. -/
theorem faultsChangeNothing : Obligations.FaultsChangeNothing := by
  unfold Obligations.FaultsChangeNothing
  intro i s t st a p h hr hst
  obtain ⟨hs, hf, rfl⟩ := exec_checkFault h hr hst
  exact ⟨rfl, fun q hq => (hf.withOperand hq).exec_eq hs⟩

/-- Settles O13: a wrong length fails the second check where the first is passed, and only a wrong length fails it. -/
theorem wrongLengthsAreInvalidLength : Obligations.WrongLengthsAreInvalidLength := by
  unfold Obligations.WrongLengthsAreInvalidLength
  refine ⟨fun i s hi hd => ⟨fun hl => ?_, fun hl t a p h hr => ?_⟩, fun k x => ?_⟩
  · exact (FailsCheck.invalidLength hi hl).exec_eq fun _ _ => hd
  · obtain ⟨-, hf, -⟩ := exec_checkFault h hr (by decide)
    cases hf with
    | invalidLength _ hwrong => simp [hl] at hwrong
  · simp [Instr.lengthOk, Nat.dvd_iff_mod_eq_zero]

/-- Settles O14: with `INIT_DONE` = 1 and no items the immediate is the check that fails. -/
theorem indicesOutOfRangeAreInvalidIndex : Obligations.IndicesOutOfRangeAreInvalidIndex := by
  unfold Obligations.IndicesOutOfRangeAreInvalidIndex
  intro s x hi ho
  have hfails {i : Instr} (hl : i.lengthOk 0 = true) (hx : i.immOk = false) : FailsCheck i s .invalidIndex :=
    .invalidIndex (.inr hi) (by simpa [ho] using hl) hx
  exact ⟨fun hx => (hfails rfl (by simpa [Instr.immOk] using hx)).exec_eq nofun,
    fun hx => (hfails rfl (by simpa [Instr.immOk] using hx)).exec_eq nofun⟩

end Sys2Proof.Machine
end
